-- ==== Sys2Proof/Word.lean ====
section
/-! DEFINITION. The bit-vector types of the machine (spec/00_scope.md R6, R7). -/

namespace Sys2Proof

/-- One byte of SRC, of DST, of a byte plane. -/
abbrev Byte := BitVec 8

/-- `IDX_BITS` = 32 (R6, D5): an index value, a FIFO entry, a predictor, a varint result,
a host register as the host reads or writes it. -/
abbrev Word := BitVec 32

/-- Four bits: a FIFO slot number, a nibble of a control byte. -/
abbrev Nibble := BitVec 4

end Sys2Proof
end

