-- ==== Sys2Proof/Machine/Work.lean ====
section
/-! DEFINITION. The working registers and register files of a decode call (spec/10_state.md R14 to R26), and the
registers that the spec's pseudocode implies by its local names. -/

namespace Sys2Proof.Machine

/-- Everything that is "created at the start of a decode call and discarded at its end" (R28).  Cursors, counters
and loop registers are natural numbers, as R7 and R14 say; values are bit vectors. -/
structure Work where
  /-- DCUR (R14): SRC offset of the next payload byte. -/
  dcur : Nat
  /-- CCUR (R15): SRC offset of the next triangle control byte. -/
  ccur : Nat
  /-- IDX (R16): elements already produced. -/
  idx : Nat
  /-- VER (R17): the format version. -/
  ver : Nibble
  /-- FECMAX (R17): the free-edge-code threshold. -/
  fecmax : Nibble
  /-- NEXT (R18): the fresh-vertex counter. -/
  next : Word
  /-- LAST (R19): the most recent delta-coded index. -/
  last : Word
  /-- EOFF (R20): the EdgeFifo slot that the next push writes. -/
  eoff : Nibble
  /-- VOFF (R20): the VertexFifo slot that the next push writes. -/
  voff : Nibble
  /-- HCUR (R21): SRC offset of the first header byte of the current run. -/
  hcur : Nat
  /-- BLK (R21): index of the first vertex of the current block. -/
  blk : Nat
  /-- PLANE (R21): the current byte plane. -/
  plane : Nat
  /-- GRP (R21): the current group within the run. -/
  grp : Nat
  /-- EF_A (R22): first endpoints. -/
  efA : Vector Word 16
  /-- EF_B (R22): second endpoints. -/
  efB : Vector Word 16
  /-- VF (R23): the VertexFifo. -/
  vf : Vector Word 16
  /-- SEQLAST (R24): the two predictor slots of sequence decoding. -/
  seqlast : Vector Word 2
  /-- PRED (R25): the last-vertex predictor. -/
  pred : Vector Byte 256
  /-- RAW (R26): the output of one byte-group run. -/
  raw : Vector Byte 256
  /-- TRANS (R26): the transposed scratch buffer of one block. -/
  trans : Vector Byte 8192
  /-- The selectors of the current run, latched from its header bytes (`sel(g)` of R102). -/
  sel : Vector (BitVec 2) 16
  /-- The next lane of the current group (R113), or the next seed byte (`k` of R160). -/
  lane : Nat
  /-- `ext` of R109 and R110: SRC offset of the next extension byte. -/
  ext : Nat
  /-- `fea` of R130 and R132: the code of vertex `a` of the new triangle in progress. -/
  fea : Nibble
  /-- Whether the codeAux byte in progress comes from the payload (R132) or from the table (R130). -/
  auxPay : Bool
  /-- `result` of R90: the value of the varint in progress, or of the last one. -/
  vres : Word
  /-- The number of bytes of the varint in progress already read; 0 when none is in progress (R90's `shift` is 7 times it). -/
  vcnt : Nat
deriving DecidableEq, Repr, Inhabited

end Sys2Proof.Machine
end

