-- ==== Sys2Proof/Config.lean ====
section
/-! DEFINITION. The constants of spec/00_scope.md R5, the parameters of R6, and the free values. -/

namespace Sys2Proof.Config

/-- `GROUP_BYTES` (R5): bytes produced by one byte group. -/
abbrev groupBytes : Nat := 16
/-- `GROUPS_PER_HDR` (R5): selectors per header byte. -/
abbrev groupsPerHdr : Nat := 4
/-- `BLOCK_BYTES` (R5): scratch bytes of one vertex block. -/
abbrev blockBytes : Nat := 8192
/-- `BLOCK_MAX_VERTS` (R5): most vertices in one block. -/
abbrev blockMaxVerts : Nat := 256
/-- `TAIL_MIN` (R5): least size of the vertex trailer. -/
abbrev tailMin : Nat := 32
/-- `ELEM_MAX` (R5): largest vertex element size. -/
abbrev elemMax : Nat := 256
/-- `SEQ_TAIL` (R5): reserved bytes at the end of a sequence stream. -/
abbrev seqTail : Nat := 4
/-- `AUX_TABLE` (R5): bytes of the codeAux table. -/
abbrev auxTable : Nat := 16
/-- `VARINT_MAX` (R5): most bytes of one varint. -/
abbrev varintMax : Nat := 5
/-- `FECMAX_V0` (R5, R17). -/
abbrev fecmaxV0 : Nibble := 15#4
/-- `FECMAX_V1` (R5, R17). -/
abbrev fecmaxV1 : Nibble := 13#4
/-- `LEN_BITS` = 32 (R6, D23): every offset of SRC and DST is below this (R40, R226). -/
abbrev lenLimit : Nat := 4294967296

/-- The parameters the spec leaves to the model (R6, D8, D12) and to the platform (R40, D1).  They are a
field of State that no step changes, so a statement about every state is a statement about every value of
them.  DESIGN CHOICE, log entry 1. -/
structure Params where
  /-- `FIFO_INIT` (R6, D8): what every FIFO slot holds at the start of a decode. -/
  fifoInit : Word
  /-- `GROUP_MARGIN` (R6, D12): bytes that must remain before a byte group is decoded. -/
  groupMargin : Nat
  /-- Where the platform puts SRC offset 0 in physical memory (R40, R223). -/
  srcBase : Nat
  /-- Where the platform puts DST offset 0 in physical memory (R40, R223). -/
  dstBase : Nat
deriving DecidableEq, Repr

/-- The values of R6; and SRC and DST apart by as much as any stream can be long. -/
def defaults : Params :=
  { fifoInit := 0xFFFFFFFF#32, groupMargin := 24, srcBase := 0, dstBase := lenLimit }

/-- FREE VALUE: the byte of DST at an offset where DST is unspecified (R49, U1), by the generation of DST's
contents and the offset.  Log entry 2. -/
opaque freeDst : Nat → Nat → Byte

/-- FREE VALUE: the working registers after a decode call has ended or after a hardware reset (R28, R29, U9), by
the number of times they were dropped before.  Log entry 3. -/
opaque freeWork : Nat → Machine.Work

end Sys2Proof.Config
end

