-- ==== Sys2Proof/Syntax.lean ====
section
/-! DEFINITION. The instructions: one constructor per row of spec/opcode_table.json (the stream symbols of
spec/30_encoding.md and the command START), and the positions at which a symbol is read. -/

namespace Sys2Proof

/-- The stream symbols and the command.  An operand is a field of the symbol's encoding; the payload a
symbol reads after itself (a free index, extension bytes) is not an operand: its meaning reads SRC. -/
inductive Instr where
  /-- `HDR.ATTR` (R61, R178): header byte of an attribute stream, version 0. -/
  | hdrAttr
  /-- `HDR.TRI v` (R61, R179): header byte of a triangle stream, version `v`. -/
  | hdrTri (ver : BitVec 1)
  /-- `HDR.SEQ v` (R61, R180): header byte of an index-sequence stream, version `v`. -/
  | hdrSeq (ver : BitVec 1)
  /-- `VB.LAST` (R62, R90): byte 1 to 4 of a varint with CONT = 0. -/
  | vbLast (group : BitVec 7)
  /-- `VB.CONT` (R62, R90): byte 1 to 4 of a varint with CONT = 1. -/
  | vbCont (group : BitVec 7)
  /-- `VB.FIFTH` (R62, R91): the fifth byte of a varint; bits 7:4 are ignored. -/
  | vbFifth (ignored : BitVec 4) (groupLo : BitVec 4)
  /-- `VARINT` (R90): one to five bytes in stream order. -/
  | varint (bytes : List Byte)
  /-- `FREE` (R63, R94): a varint in free-index form. -/
  | free (bytes : List Byte)
  /-- `SEQ` (R63, R152): a varint in sequence form. -/
  | seq (bytes : List Byte)
  /-- `TRI.NEW.BYTE15` (R137): control byte 0xFF. -/
  | triNewByte15
  /-- `TRI.NEW.BYTE0` (R136): control byte 0xFE. -/
  | triNewByte0
  /-- `TRI.NEW.TABLE j` (R131): control byte 0xF0 + j, j in 0..13. -/
  | triNewTable (j : Nibble)
  /-- `TRI.EDGE.FREE fe` (R128): LO = 15. -/
  | triEdgeFree (fe : Nibble)
  /-- `TRI.EDGE.NEXT fe` (R126): LO = 0. -/
  | triEdgeNext (fe : Nibble)
  /-- `TRI.EDGE.DEC fe` (R127): LO = 13, version 1. -/
  | triEdgeDec (fe : Nibble)
  /-- `TRI.EDGE.INC fe` (R127): LO = 14, version 1. -/
  | triEdgeInc (fe : Nibble)
  /-- `TRI.EDGE.FIFO fe, fec` (R126): a VertexFifo hit. -/
  | triEdgeFifo (fe fec : Nibble)
  /-- `CAUX feb, fec` (R65, R133): a codeAux byte, from the table or from the payload. -/
  | caux (feb fec : Nibble)
  /-- `CAUX.RESTART` (R132): the codeAux byte 0x00 read from the payload. -/
  | cauxRestart
  /-- `GHDR` (R67, R102): a byte-group header byte, the selectors of four groups. -/
  | ghdr (sel0 sel1 sel2 sel3 : BitVec 2)
  /-- `GRP.W0` (R106): selector 0. -/
  | grpW0
  /-- `GRP.W2` (R109): selector 1. -/
  | grpW2
  /-- `GRP.W4` (R110): selector 2. -/
  | grpW4
  /-- `GRP.W8` (R107): selector 3. -/
  | grpW8
  /-- `C2` (R68, R109): a control byte of a width-2 group. -/
  | c2 (code0 code1 code2 code3 : BitVec 2)
  /-- `C4` (R69, R110): a control byte of a width-4 group. -/
  | c4 (code0 code1 : Nibble)
  /-- `LIT` (R69, R107, R160): an extension byte, a byte of a width-8 group, a seed byte. -/
  | lit (value : Byte)
  /-- `RSV` (R72): a reserved byte; any value, never examined. -/
  | rsv (value : Byte)
  /-- `START` (R76, R170): a word written to CTRL with bit 0 set; bits 31:1 are ignored. -/
  | start (ignored : BitVec 31)
deriving DecidableEq, Repr

/-- Where a symbol is read (R60: symbols are "told apart by position", never by a prefix).  The decoder
takes the position; the sequencer knows it. -/
inductive Ctx where
  /-- SRC offset 0. -/
  | header
  /-- A triangle control byte; `v0` says that FECMAX is 15 (version 0), so that LO 13 and 14 are FIFO hits (R71). -/
  | ctri (v0 : Bool)
  /-- A codeAux byte; `payload` says that it comes from the payload, where 0x00 is the restart marker (R132). -/
  | caux (payload : Bool)
  /-- A byte of a varint; `fifth` says that it is the fifth (R62). -/
  | vb (fifth : Bool)
  /-- A varint whose use is not yet told. -/
  | varint
  /-- A free index. -/
  | free
  /-- A sequence symbol. -/
  | seq
  /-- A byte-group header byte. -/
  | ghdr
  /-- A 2-bit selector, given as bits 1:0 of a byte. -/
  | sel
  /-- A control byte of a width-2 group. -/
  | c2
  /-- A control byte of a width-4 group. -/
  | c4
  /-- A literal byte. -/
  | lit
  /-- A reserved byte. -/
  | rsv
  /-- A word written to CTRL, as four bytes, least significant first. -/
  | command
deriving DecidableEq, Repr

end Sys2Proof
end

