-- ==== Sys2Proof/Machine/State.lean ====
section
/-! DEFINITION. The state of the block (spec/10_state.md R10 to R30), its memories, what the host asks of it, the ways a
step can stop, and the state right after hardware reset. -/

namespace Sys2Proof.Machine

/-- The four classes of end of a decode call besides Ok, and Ok (R12, R191 to R196). -/
inductive Status where
  | ok | badHeader | truncated | trailingMismatch | badFilter
deriving DecidableEq, Repr

/-- Where the sequencer stands (R55: one sequential agent).  `idle` is BUSY = 0 (R210). -/
inductive Pos where
  /-- No decode call runs. -/
  | idle
  /-- Before the header byte (R178, R179, R180). -/
  | header
  /-- Attributes: the seed bytes are being read into PRED (R160). -/
  | seed
  /-- Attributes: at the head of the block loop (R165). -/
  | blockTop
  /-- Attributes: at the start of a byte-group run (R104). -/
  | runTop
  /-- Attributes: at a header byte of the run (R101). -/
  | groupHeader
  /-- Attributes: before a byte group (R105). -/
  | group
  /-- Attributes: a run is complete, its plane is to be reconstructed (R162). -/
  | planeEnd
  /-- Attributes: all planes of a block are complete (R163). -/
  | blockEnd
  /-- Triangles: at the head of the triangle loop (R140). -/
  | triangles
  /-- Indices: at the head of the index loop (R155). -/
  | sequence
deriving DecidableEq, Repr

/-- What the host (R9: "whatever writes the configuration registers, issues START and reads STATUS and DST") does in
one step of the machine. -/
inductive HostMove where
  /-- Write a host register by its number (R10). -/
  | writeReg (reg : Nat) (v : Word)
  /-- Read a host register by its number (R10). -/
  | readReg (reg : Nat)
  /-- Place a byte of the stream (R222). -/
  | writeSrc (a : Nat) (b : Byte)
  /-- Write a byte of the destination buffer. -/
  | writeDst (a : Nat) (b : Byte)
  /-- Read a byte of the destination buffer (R183). -/
  | readDst (a : Nat)
  /-- Power-on or the external reset input (R29). -/
  | reset
  /-- Nothing: the block takes a step of its own. -/
  | pass
deriving DecidableEq, Repr

/-- A memory: cells in strictly rising order of address. -/
abbrev Mem := List Host.Cell

/-- The two byte-addressed spaces (R27, R40). -/
inductive Space where
  | src | dst
deriving DecidableEq, Repr

/-- What an address that a memory does not list reads as: a byte of SRC that the host has not placed reads as 0
(DESIGN CHOICE, unsafe, log entry 4); a byte of DST that nothing has written, or that an unsuccessful decode
has left unspecified, has no value (R49). -/
def Space.unlisted : Space → Option Byte
  | .src => some 0#8
  | .dst => none

/-- The state of the machine. -/
structure State where
  /-- FLAGS.BUSY (R11). -/
  busy : Bool
  /-- FLAGS.DONE (R11). -/
  done : Bool
  /-- FLAGS.CFGERR (R11). -/
  cfgerr : Bool
  /-- STATUS.CODE (R12). -/
  status : BitVec 8
  /-- CFG_MODE (R10). -/
  cfgMode : BitVec 2
  /-- CFG_FILTER (R10). -/
  cfgFilter : BitVec 2
  /-- CFG_COUNT (R10). -/
  cfgCount : BitVec 32
  /-- CFG_ELEMSIZE (R10). -/
  cfgElemsize : BitVec 9
  /-- CFG_SRCLEN (R10). -/
  cfgSrclen : BitVec 32
  /-- FILTER_OUT (R10, R176). -/
  filterOut : BitVec 2
  /-- The sequencer's place in the decode. -/
  pos : Pos
  /-- The working registers and register files of a decode call (R14 to R26). -/
  w : Work
  /-- SRC (R27, R40). -/
  src : Mem
  /-- DST (R27, R40): the bytes whose value is known. -/
  dst : Mem
  /-- The parameters (R6, R221). -/
  par : Config.Params
  /-- What the host does in the coming steps, first to come first. -/
  host : List HostMove
  /-- The word the host's last read returned. -/
  rdata : Word
  /-- The MODEL's counter: how often DST's contents have become unspecified; the argument of `Config.freeDst`. -/
  dstGen : Nat
  /-- The MODEL's counter: how often the working registers have been dropped; the argument of `Config.freeWork`. -/
  drops : Nat
deriving DecidableEq, Repr

/-- Why the machine stops with a fault.  None of these is a status of the block (R191 to R194): a status is a
next state. -/
inductive Fault where
  /-- The host addressed a register that does not exist (R10 numbers 0 to 8).  Raised by a host access; safe. -/
  | noSuchRegister
  /-- The host addressed an offset of SRC or DST at or above 2^32, which does not exist (R40).  Raised by a host
  access; safe. -/
  | noSuchOffset
  /-- The block would write outside `[0, N*E)` of DST, where DST does not exist (R40, R47).  Raised by the write
  primitive; unreachable in a decode call (R47); safe. -/
  | dstOutOfRange
deriving DecidableEq, Repr

/-- Why the model gives no next state. -/
inductive Refusal where
  /-- The instruction has no meaning yet.  No arm of exec answers so. -/
  | notModelled (mnemonic : String)
  /-- An accepted START whose SRC and DST ranges overlap in physical memory: "behaviour is unspecified; a model
  refuses such a launch" (R223).  Raised by START; safe. -/
  | buffersOverlap
  /-- The host touched SRC or DST while BUSY = 1, which R52 and R224 forbid and U3 gives no effect.  Raised by a host
  access; safe. -/
  | buffersTouchedWhileBusy
deriving DecidableEq, Repr

/-- The working registers after power-on, of which R29 says only that they are unspecified: every one 0.
DESIGN CHOICE, unsafe, log entry 5. -/
def Work.reset : Work :=
  { dcur := 0, ccur := 0, idx := 0, ver := 0, fecmax := 0, next := 0, last := 0, eoff := 0, voff := 0,
    hcur := 0, blk := 0, plane := 0, grp := 0,
    efA := Vector.replicate 16 0, efB := Vector.replicate 16 0, vf := Vector.replicate 16 0,
    seqlast := Vector.replicate 2 0, pred := Vector.replicate 256 0, raw := Vector.replicate 256 0,
    trans := Vector.replicate 8192 0, sel := Vector.replicate 16 0,
    lane := 0, ext := 0, fea := 0, auxPay := false, vres := 0, vcnt := 0 }

/-- The machine right after hardware reset (R10's reset column, R29, R220): every host-visible register 0, idle,
nothing in SRC or DST, no move of the host pending. -/
def State.reset : State :=
  { busy := false, done := false, cfgerr := false, status := 0, cfgMode := 0, cfgFilter := 0, cfgCount := 0,
    cfgElemsize := 0, cfgSrclen := 0, filterOut := 0, pos := .idle, w := Work.reset, src := [], dst := [],
    par := Config.defaults, host := [], rdata := 0, dstGen := 0, drops := 0 }

end Sys2Proof.Machine
end

