-- ==== Sys2Proof/Machine/Flags.lean ====
section
/-! DEFINITION. The FLAGS and STATUS registers as the host reads them (spec/10_state.md R10 to R12).  The block has no
condition codes: no operation sets a carry, overflow, zero or sign flag (R13). -/

namespace Sys2Proof.Machine

/-- The code of a status, 8 bits two's complement (R12). -/
def Status.code : Status → BitVec 8
  | .ok => 0x00#8
  | .badHeader => 0xFF#8
  | .truncated => 0xFE#8
  | .trailingMismatch => 0xFD#8
  | .badFilter => 0xFC#8

/-- The FLAGS word (R10, R11): bit 0 BUSY, bit 1 DONE, bit 2 CFGERR, bits 31:3 read 0. -/
def State.flagsWord (s : State) : Word :=
  0#29 ++ BitVec.ofBool s.cfgerr ++ BitVec.ofBool s.done ++ BitVec.ofBool s.busy

/-- The STATUS word (R10): `sext_32(CODE)`. -/
def State.statusWord (s : State) : Word := s.status.signExtend 32

end Sys2Proof.Machine
end

