-- ==== Sys2Proof/WellFormed.lean ====
section
/-! DEFINITION. Which symbol may stand at which position, with which operands: the constraints of
spec/opcode_table.json that the operands' types do not already hold. -/

namespace Sys2Proof

/-- The shape of a varint (R62, R90): CONT is 1 in every byte but the last; the last has CONT = 0, unless it
is the byte after `k` others, the fifth, whose CONT is ignored. -/
def varintShape : Nat → List Byte → Bool
  | _, [] => false
  | 0, [_] => true
  | 0, _ :: _ :: _ => false
  | _ + 1, [b] => !b.msb
  | k + 1, b :: c :: r => b.msb && varintShape k (c :: r)

/-- The operand checks of a symbol, whatever its position. -/
def Instr.operandsOk : Instr → Bool
  | .varint bs | .free bs | .seq bs => varintShape 4 bs
  | .triNewTable j => decide (j.toNat ≤ 13)
  | .triEdgeFree fe | .triEdgeNext fe | .triEdgeDec fe | .triEdgeInc fe => fe != 15#4
  | .triEdgeFifo fe fec => fe != 15#4 && fec != 0#4 && fec != 15#4
  | .hdrAttr | .hdrTri _ | .hdrSeq _ | .vbLast _ | .vbCont _ | .vbFifth _ _ | .triNewByte15 | .triNewByte0
  | .caux _ _ | .cauxRestart | .ghdr _ _ _ _ | .grpW0 | .grpW2 | .grpW4 | .grpW8 | .c2 _ _ _ _ | .c4 _ _
  | .lit _ | .rsv _ | .start _ => true

/-- The symbol may stand at the position (R60, R71, R132). -/
def Instr.standsAt (c : Ctx) : Instr → Bool
  | .hdrAttr | .hdrTri _ | .hdrSeq _ => c == .header
  | .vbLast _ | .vbCont _ => c == .vb false
  | .vbFifth _ _ => c == .vb true
  | .varint _ => c == .varint
  | .free _ => c == .free
  | .seq _ => c == .seq
  | .triNewByte15 | .triNewByte0 | .triNewTable _ | .triEdgeFree _ | .triEdgeNext _ =>
      c == .ctri false || c == .ctri true
  | .triEdgeDec _ | .triEdgeInc _ => c == .ctri false
  | .triEdgeFifo _ fec => c == .ctri true || (c == .ctri false && decide (fec.toNat ≤ 12))
  | .caux feb fec => c == .caux false || (c == .caux true && !(feb == 0#4 && fec == 0#4))
  | .cauxRestart => c == .caux true
  | .ghdr _ _ _ _ => c == .ghdr
  | .grpW0 | .grpW2 | .grpW4 | .grpW8 => c == .sel
  | .c2 _ _ _ _ => c == .c2
  | .c4 _ _ => c == .c4
  | .lit _ => c == .lit
  | .rsv _ => c == .rsv
  | .start _ => c == .command

/-- A well-formed symbol at a position. -/
def Instr.wellFormed (c : Ctx) (i : Instr) : Bool := i.operandsOk && i.standsAt c

end Sys2Proof
end

