-- ==== Sys2Proof/Decode.lean ====
section
/-! DEFINITION. The decoder, total on any bytes at any position, and after it the encoder
(spec/30_encoding.md R61 to R70, R74; spec/opcode_table.json). -/

namespace Sys2Proof

/-- Why bytes are not a symbol of a position (R72: the header byte is the only byte that can be illegal). -/
inductive DecodeError where
  /-- The header byte is none of 0xA0, 0xE0, 0xE1, 0xD0, 0xD1 (R61, R72). -/
  | badHeader
  /-- The bytes end before the symbol does. -/
  | endOfBytes
  /-- Bit 0 of the word is 0: writing 0 to START does nothing (R10). -/
  | notStart
deriving DecidableEq, Repr

/-- `v[lo+len-1 : lo]` (R7). -/
def bits (lo len : Nat) (b : BitVec n) : BitVec len := b.extractLsb' lo len

/-- The bytes of one varint and those after it (R62, R74): it ends at the first byte with CONT = 0, or at the
byte after `k` others. -/
def splitVarint : Nat → List Byte → Option (List Byte × List Byte)
  | _, [] => none
  | 0, b :: r => some ([b], r)
  | k + 1, b :: r =>
    if b.msb then
      match splitVarint k r with
      | some (bs, r') => some (b :: bs, r')
      | none => none
    else some ([b], r)

/-- The legal header bytes (R61, R72). -/
def decodeHeader (b : Byte) : Option Instr :=
  if b == 0xA0#8 then some .hdrAttr
  else if bits 1 7 b == 0x70#7 then some (.hdrTri (bits 0 1 b))
  else if bits 1 7 b == 0x68#7 then some (.hdrSeq (bits 0 1 b))
  else none

/-- The `codeTri` map (R64, R71): every byte is legal. -/
def decodeTri (v0 : Bool) (b : Byte) : Instr :=
  let hi := bits 4 4 b
  let lo := bits 0 4 b
  if hi == 15#4 then
    if lo == 15#4 then .triNewByte15
    else if lo == 14#4 then .triNewByte0
    else .triNewTable lo
  else if lo == 0#4 then .triEdgeNext hi
  else if lo == 15#4 then .triEdgeFree hi
  else if lo == 13#4 && !v0 then .triEdgeDec hi
  else if lo == 14#4 && !v0 then .triEdgeInc hi
  else .triEdgeFifo hi lo

/-- A codeAux byte (R65); 0x00 read from the payload is the restart marker (R132). -/
def decodeCaux (payload : Bool) (b : Byte) : Instr :=
  if payload && b == 0#8 then .cauxRestart else .caux (bits 4 4 b) (bits 0 4 b)

/-- One byte of a varint (R62). -/
def decodeVb (fifth : Bool) (b : Byte) : Instr :=
  if fifth then .vbFifth (bits 4 4 b) (bits 0 4 b)
  else if b.msb then .vbCont (bits 0 7 b)
  else .vbLast (bits 0 7 b)

/-- The group a 2-bit selector stands for (R67, R103). -/
def decodeSel (s : BitVec 2) : Instr :=
  if s == 0#2 then .grpW0
  else if s == 1#2 then .grpW2
  else if s == 2#2 then .grpW4
  else .grpW8

/-- The decoder: the symbol at the head of the bytes, read at position `c`, and the bytes after it. -/
def decode (c : Ctx) (bs : List Byte) : Except DecodeError (Instr × List Byte) :=
  match bs with
  | [] => .error .endOfBytes
  | b :: r =>
    match c with
    | .header =>
      match decodeHeader b with
      | some i => .ok (i, r)
      | none => .error .badHeader
    | .ctri v0 => .ok (decodeTri v0 b, r)
    | .caux payload => .ok (decodeCaux payload b, r)
    | .vb fifth => .ok (decodeVb fifth b, r)
    | .varint =>
      match splitVarint 4 (b :: r) with
      | some (v, r') => .ok (.varint v, r')
      | none => .error .endOfBytes
    | .free =>
      match splitVarint 4 (b :: r) with
      | some (v, r') => .ok (.free v, r')
      | none => .error .endOfBytes
    | .seq =>
      match splitVarint 4 (b :: r) with
      | some (v, r') => .ok (.seq v, r')
      | none => .error .endOfBytes
    | .ghdr => .ok (.ghdr (bits 0 2 b) (bits 2 2 b) (bits 4 2 b) (bits 6 2 b), r)
    | .sel => .ok (decodeSel (bits 0 2 b), r)
    | .c2 => .ok (.c2 (bits 6 2 b) (bits 4 2 b) (bits 2 2 b) (bits 0 2 b), r)
    | .c4 => .ok (.c4 (bits 4 4 b) (bits 0 4 b), r)
    | .lit => .ok (.lit b, r)
    | .rsv => .ok (.rsv b, r)
    | .command =>
      match r with
      | b1 :: b2 :: b3 :: r' =>
        if bits 0 1 b == 1#1 then .ok (.start (b3 ++ b2 ++ b1 ++ bits 1 7 b), r')
        else .error .notStart
      | _ => .error .endOfBytes

/-- The bytes of a symbol, in stream order. -/
def encode : Instr → List Byte
  | .hdrAttr => [0xA0#8]
  | .hdrTri v => [0x70#7 ++ v]
  | .hdrSeq v => [0x68#7 ++ v]
  | .vbLast g => [0#1 ++ g]
  | .vbCont g => [1#1 ++ g]
  | .vbFifth x g => [x ++ g]
  | .varint bs => bs
  | .free bs => bs
  | .seq bs => bs
  | .triNewByte15 => [0xFF#8]
  | .triNewByte0 => [0xFE#8]
  | .triNewTable j => [15#4 ++ j]
  | .triEdgeFree fe => [fe ++ 15#4]
  | .triEdgeNext fe => [fe ++ 0#4]
  | .triEdgeDec fe => [fe ++ 13#4]
  | .triEdgeInc fe => [fe ++ 14#4]
  | .triEdgeFifo fe fec => [fe ++ fec]
  | .caux feb fec => [feb ++ fec]
  | .cauxRestart => [0x00#8]
  | .ghdr s0 s1 s2 s3 => [s3 ++ s2 ++ s1 ++ s0]
  | .grpW0 => [0#8]
  | .grpW2 => [1#8]
  | .grpW4 => [2#8]
  | .grpW8 => [3#8]
  | .c2 c0 c1 c2 c3 => [c0 ++ c1 ++ c2 ++ c3]
  | .c4 c0 c1 => [c0 ++ c1]
  | .lit v => [v]
  | .rsv v => [v]
  | .start x =>
    [bits 0 7 x ++ 1#1, bits 7 8 x, bits 15 8 x, bits 23 8 x]

/-- The first `k` bytes of a number, least significant first. -/
def bytesOf : Nat → Nat → List Byte
  | 0, _ => []
  | k + 1, w => BitVec.ofNat 8 w :: bytesOf k (w / 256)

/-- The position at which the host's word is read.  A symbol of the stream is told apart by position and
never by its bits (R60), so a word alone does not say which symbol it is; the position taken here is, by
the word's length: 32 bits, a write to CTRL; fewer than 8 bits, a selector; one byte, the stream's header
byte where it is a legal one, otherwise a triangle control byte of version 1; two, three or five bytes,
a sequence symbol.  DESIGN CHOICE, log entry 12. -/
def tableCtx (nbits w : Nat) : Ctx :=
  if nbits == 32 then .command
  else if nbits < 8 then .sel
  else if nbits == 8 then
    match decodeHeader (BitVec.ofNat 8 w) with
    | some _ => .header
    | none => .ctri false
  else .seq

/-- The instruction the decoder reads from the host's word at that position. -/
def decodeTableWord (nbits w : Nat) : Option Instr :=
  match decode (tableCtx nbits w) (bytesOf 5 w) with
  | .ok (i, _) => some i
  | .error _ => none

end Sys2Proof
end

