-- ==== Sys2Proof/Machine/Operands.lean ====
section
/-! DEFINITION. How operand values are assembled and addressed (spec/30_encoding.md R70), and the lengths and block
sizes of spec/41_bytegroup.md and spec/43_delta_predictor.md. -/

namespace Sys2Proof.Machine

/-- The value of a varint (R70, R90): seven bits a byte, least significant group first, into 32 bits; what lands at
and above bit 32 is dropped (R91). -/
def varintBits (shift : Nat) : List Byte → Word
  | [] => 0
  | b :: r => ((bits 0 7 b).setWidth 32 <<< shift) ||| varintBits (shift + 7) r

/-- The value of the bytes of one varint (R90). -/
def varintValue (bs : List Byte) : Word := varintBits 0 bs

/-- `Unzigzag32` (R93). -/
def unzigzag32 (v : Word) : Word := (v >>> 1) ^^^ (0 - (bits 0 1 v).setWidth 32)

/-- `Unzigzag8` (R95). -/
def unzigzag8 (r : Byte) : Byte := (r >>> 1) ^^^ (0 - (bits 0 1 r).setWidth 8)

/-- `fec - (fec ^ 3)` as a signed number in 32 bits (R70, R127): 13 gives -1, 14 gives +1. -/
def shortDelta (fec : Nibble) : Word := fec.setWidth 32 - (fec ^^^ 3#4).setWidth 32

/-- The slot bit of a sequence value (R63, R152). -/
def seqSlot (v : Word) : BitVec 1 := bits 0 1 v

/-- The signed delta of a sequence value (R70, R152): the zigzag of `v >> 1`. -/
def seqDelta (v : Word) : Word := unzigzag32 (v >>> 1)

/-- The edge slot `(EOFF - 1 - fe) & 15` (R70, R125). -/
def edgeSlot (eoff fe : Nibble) : Nibble := eoff - 1#4 - fe

/-- The vertex slot of the edge-continue path, `(VOFF - 1 - fec) & 15` (R70, R126). -/
def edgeVertexSlot (voff fec : Nibble) : Nibble := voff - 1#4 - fec

/-- The vertex slot of the new-triangle path, `(VOFF - code) & 15` (R70, R133); no `- 1`. -/
def newVertexSlot (voff code : Nibble) : Nibble := voff - code

/-- The first `n` bytes of `v`, least significant first (R47); `n` = 2 drops the high 16 bits (R48). -/
def leBytes : Nat → Word → List Byte
  | 0, _ => []
  | n + 1, v => bits 0 8 v :: leBytes n (v >>> 8)

/-- `tailSize = max(32, E)` (R160). -/
def tailSize (e : Nat) : Nat := max Config.tailMin e

/-- `blockSize` (R161, R165). -/
def blockSize (e : Nat) : Nat :=
  min (Config.blockBytes / e / Config.groupBytes * Config.groupBytes) Config.blockMaxVerts

/-- `bc`, the vertices of the block that starts at `blk` (R161). -/
def blockCount (n e blk : Nat) : Nat := min (blockSize e) (n - blk)

/-- The groups `G` of a run for `bc` vertices (R100, R162: `n = ceil(bc/16)*16`, `G = n div 16`). -/
def runGroups (bc : Nat) : Nat := (bc + 15) / 16

/-- The header bytes `H = ceil(G/4)` of a run of `g` groups (R101). -/
def runHeaders (g : Nat) : Nat := (g + 3) / Config.groupsPerHdr

/-- Slot `i` of a 16-slot file; a 4-bit slot number names every slot and no other. -/
def slot16 {α : Type} (f : Vector α 16) (i : Nibble) : α := f[i.toNat]'i.isLt

/-- A 16-slot file with slot `i` written. -/
def setSlot16 {α : Type} (f : Vector α 16) (i : Nibble) (x : α) : Vector α 16 := f.set i.toNat x i.isLt

/-- Slot `s` of SEQLAST. -/
def slot2 (f : Vector Word 2) (s : BitVec 1) : Word := f[s.toNat]'s.isLt

/-- SEQLAST with slot `s` written. -/
def setSlot2 (f : Vector Word 2) (s : BitVec 1) (x : Word) : Vector Word 2 := f.set s.toNat x s.isLt

end Sys2Proof.Machine
end

