-- ==== Sys2Proof/Machine/Ops.lean ====
section
/-! DEFINITION. The operations that the meanings share: memory, the access primitives MemRead and MemWrite (R46, R47), the
end of a decode call (R181, R200), the configuration as numbers, the FIFO pushes (R123, R124), Emit (R138). -/

namespace Sys2Proof.Machine

/-! ### Memory -/

/-- The byte a memory lists at an address. -/
def Mem.lookup : Mem → Nat → Option Byte
  | [], _ => none
  | c :: r, a => if c.1 = a then some c.2 else Mem.lookup r a

/-- The byte at an address, where it has a value. -/
def Mem.read (sp : Space) (m : Mem) (a : Nat) : Option Byte :=
  match Mem.lookup m a with
  | some b => some b
  | none => sp.unlisted

/-- The memory that lists `b` at `a`, in rising order. -/
def Mem.insert : Mem → Nat → Byte → Mem
  | [], a, b => [(a, b)]
  | c :: r, a, b =>
    if a < c.1 then (a, b) :: c :: r
    else if c.1 = a then (a, b) :: r
    else c :: Mem.insert r a b

/-- The memory that does not list `a`. -/
def Mem.erase : Mem → Nat → Mem
  | [], _ => []
  | c :: r, a => if c.1 = a then r else c :: Mem.erase r a

/-- Write one byte, keeping the canonical form: what an unlisted address reads as is not listed. -/
def Mem.write (sp : Space) (m : Mem) (a : Nat) (b : Byte) : Mem :=
  if sp.unlisted = some b then Mem.erase m a else Mem.insert m a b

/-- Write bytes at rising addresses. -/
def Mem.writeBytes (sp : Space) (m : Mem) (a : Nat) : List Byte → Mem
  | [] => m
  | b :: r => Mem.writeBytes sp (Mem.write sp m a b) (a + 1) r

/-- The memory without the cells below `k`: their bytes have become unspecified (R49). -/
def Mem.dropBelow (m : Mem) (k : Nat) : Mem := m.filter (fun c => decide (k ≤ c.1))

/-- The addresses rise strictly. -/
def Mem.rising : Mem → Bool
  | [] => true
  | [_] => true
  | c :: d :: r => decide (c.1 < d.1) && Mem.rising (d :: r)

/-- The canonical form: addresses strictly rising, no entry equal to what an unlisted address reads as. -/
def Mem.wf (sp : Space) (m : Mem) : Bool :=
  Mem.rising m && m.all (fun c => decide (sp.unlisted ≠ some c.2))

/-! ### The configuration as numbers -/

/-- `N` (R42): CFG_COUNT. -/
def State.n (s : State) : Nat := s.cfgCount.toNat

/-- `E` (R42): CFG_ELEMSIZE. -/
def State.e (s : State) : Nat := s.cfgElemsize.toNat

/-- `L` (R42): CFG_SRCLEN. -/
def State.l (s : State) : Nat := s.cfgSrclen.toNat

/-- `T = N div 3` (R43): the triangles of the call. -/
def State.t (s : State) : Nat := s.n / 3

/-- `TABLE_START = L - 16` (R43). -/
def State.tableStart (s : State) : Nat := s.l - Config.auxTable

/-- `SAFE_END = L - 4` (R44). -/
def State.safeEnd (s : State) : Nat := s.l - Config.seqTail

/-- `bc` of the current block (R161). -/
def State.bc (s : State) : Nat := blockCount s.n s.e s.w.blk

/-- The groups of the current run (R100). -/
def State.groups (s : State) : Nat := runGroups s.bc

/-- The header bytes of the current run (R101). -/
def State.headers (s : State) : Nat := runHeaders s.groups

/-- The state with other working registers. -/
def State.withW (s : State) (w : Work) : State := { s with w := w }

/-! ### The end of a decode call: the block's exception entry -/

/-- `raise <Status>` and `done Ok` (R181, R200): STATUS.CODE receives the code, BUSY falls, DONE rises, CFGERR and
the CFG registers stay; every working register is dropped; after any status but Ok the DST of the call,
offsets below `N*E`, is unspecified in full (R49).  There is no handler and no return (R202). -/
def State.endCall (st : Status) (s : State) : State :=
  { s with
    status := st.code
    busy := false
    done := true
    pos := .idle
    w := Config.freeWork s.drops
    drops := s.drops + 1
    dst := if st = .ok then s.dst else Mem.dropBelow s.dst (s.n * s.e)
    dstGen := if st = .ok then s.dstGen else s.dstGen + 1 }

/-- Hardware reset while the machine is in state `s` (R29): every register of R10 at its reset value, the working
registers unspecified; a decode in progress is abandoned and the DST of that call, offsets below `N*E`, is then
unspecified. -/
def State.hardReset (s : State) : State :=
  { s with
    busy := false, done := false, cfgerr := false, status := 0, cfgMode := 0, cfgFilter := 0, cfgCount := 0
    cfgElemsize := 0, cfgSrclen := 0, filterOut := 0
    pos := .idle
    w := Config.freeWork s.drops
    drops := s.drops + 1
    dst := if s.busy then Mem.dropBelow s.dst (s.n * s.e) else s.dst
    dstGen := if s.busy then s.dstGen + 1 else s.dstGen }

/-! ### A part of a meaning: it yields a value and goes on, or the machine stops there -/

/-- The outcome type of a step. -/
abbrev Res := Host.Outcome State Fault Refusal

/-- What a part of a meaning does: `val a s` goes on from `s` with `a`; `stop o` leaves the meaning with the outcome
`o`, which is a next state where a status was raised (R200: no further MemRead or MemWrite happens). -/
inductive Run (α : Type) where
  | val (a : α) (s : State)
  | stop (o : Res)

/-- One part, then another. -/
def Run.bind {α β : Type} (r : Run α) (f : α → State → Run β) : Run β :=
  match r with
  | .val a s => f a s
  | .stop o => .stop o

/-- The outcome of a meaning whose parts are done. -/
def Run.finish {α : Type} (r : Run α) : Res :=
  match r with
  | .val _ s => .next s
  | .stop o => o

/-- `raise <Status>` inside a meaning (R8, R200). -/
def raise {α : Type} (st : Status) (s : State) : Run α := .stop (.next (s.endCall st))

/-! ### Access primitives -/

/-- The byte SRC holds at an offset. -/
def State.srcByte (s : State) (a : Nat) : Byte := (Mem.read .src s.src a).getD 0

/-- The byte DST holds at an offset, where it has a value. -/
def State.dstByte (s : State) (a : Nat) : Option Byte := Mem.read .dst s.dst a

/-- `MemRead(addr, 1)` (R46): at or beyond CFG_SRCLEN the read does not happen and the decode ends with Truncated. -/
def memRead (a : Nat) (s : State) : Run Byte :=
  if a < s.l then .val (s.srcByte a) s else raise .truncated s

/-- `MemWrite` (R47): the bytes, least significant first, at rising offsets of DST.  Where DST does not exist, at and
above `N*E` (R40), the access faults. -/
def memWrite (a : Nat) (bs : List Byte) (s : State) : Run Unit :=
  if a + bs.length ≤ s.n * s.e then .val () { s with dst := Mem.writeBytes .dst s.dst a bs }
  else .stop (.fault .dstOutOfRange)

/-- Up to `k` bytes of the stream from offset `a` on: those below CFG_SRCLEN. -/
def State.window (s : State) (a : Nat) : Nat → List Byte
  | 0 => []
  | k + 1 => if a < s.l then s.srcByte a :: s.window (a + 1) k else []

/-! ### FIFO pushes and Emit -/

/-- `PushVertex(v)` (R123). -/
def Work.pushVertex (v : Word) (w : Work) : Work :=
  { w with vf := setSlot16 w.vf w.voff v, voff := w.voff + 1#4 }

/-- A push that is skipped on a FIFO hit (R123, R126, R135). -/
def Work.pushVertexUnless (hit : Bool) (v : Word) (w : Work) : Work := if hit then w else w.pushVertex v

/-- `PushEdge(x, y)` (R124). -/
def Work.pushEdge (x y : Word) (w : Work) : Work :=
  { w with efA := setSlot16 w.efA w.eoff x, efB := setSlot16 w.efB w.eoff y, eoff := w.eoff + 1#4 }

/-- `Emit(a, b, c)` (R138): the three indices at elements IDX, IDX+1, IDX+2, each narrowed to `E` bytes (R48);
IDX advances by 3. -/
def emit (a b c : Word) (s : State) : Run Unit :=
  (memWrite (s.w.idx * s.e) (leBytes s.e a) s).bind fun _ s =>
  (memWrite ((s.w.idx + 1) * s.e) (leBytes s.e b) s).bind fun _ s =>
  (memWrite ((s.w.idx + 2) * s.e) (leBytes s.e c) s).bind fun _ s =>
  .val () (s.withW { s.w with idx := s.w.idx + 3 })

end Sys2Proof.Machine
end

