-- ==== Sys2Proof/Machine/Fetch.lean ====
section
/-! DEFINITION. What stands before the sequencer: the tests that precede a symbol (spec/44_command.md R178 to R180,
spec/42_triangle_fifo.md R122, R139, spec/43_delta_predictor.md R153, R154, R164, spec/41_bytegroup.md R104, R105), and the
bytes of the symbol that is read next. -/

namespace Sys2Proof.Machine

/-- What comes next. -/
inductive Due where
  /-- Nothing: the block is idle (R220: "the block does nothing until a START"). -/
  | rest
  /-- The call ends here with a status. -/
  | ends (st : Status)
  /-- The sequencer's own work, with no symbol. -/
  | work
  /-- The symbol at a position, and the bytes from which it is read. -/
  | symbol (c : Ctx) (bytes : List Byte)
deriving DecidableEq, Repr

/-- The length that a stream must have before its header byte is read, by mode (R178: 1; R179: `1 + T + 16`;
R180: `1 + N + 4`). -/
def State.leastLength (s : State) : Nat :=
  if s.cfgMode = 1#2 then 1 + s.t + Config.auxTable
  else if s.cfgMode = 2#2 then 1 + s.n + Config.seqTail
  else 1

/-- Truncated where the test holds, otherwise what follows it. -/
def truncatedIf (test : Bool) (d : Due) : Due := if test then .ends .truncated else d

/-- The final cursor test (R139, R154, R164). -/
def finalTest (arrived : Bool) : Due := .ends (if arrived then .ok else .trailingMismatch)

/-- What stands before the sequencer. -/
def due (s : State) : Due :=
  match s.pos with
  | .idle => .rest
  | .header => truncatedIf (s.l < s.leastLength) (.symbol .header (s.window 0 1))
  | .seed => .symbol .lit (s.window (s.l - s.e + s.w.lane) 1)
  | .blockTop => if s.w.blk < s.n then .work else finalTest (s.l - s.w.dcur == tailSize s.e)
  | .runTop => truncatedIf (s.l - s.w.dcur < s.headers) .work
  | .groupHeader => .symbol .ghdr (s.window s.w.dcur 1)
  | .group =>
    truncatedIf (s.l - s.w.dcur < s.par.groupMargin) (.symbol .sel [(s.w.sel.getD s.w.grp 0).setWidth 8])
  | .planeEnd => .work
  | .blockEnd => .work
  | .triangles =>
    if s.w.ccur < 1 + s.t then
      truncatedIf (s.tableStart < s.w.dcur)
        (.symbol (.ctri (s.w.fecmax == Config.fecmaxV0)) (s.window s.w.ccur 1))
    else finalTest (s.w.dcur == s.tableStart)
  | .sequence =>
    if s.w.idx < s.n then
      truncatedIf (s.safeEnd ≤ s.w.dcur) (.symbol .seq (s.window s.w.dcur Config.varintMax))
    else finalTest (s.w.dcur == s.safeEnd)

/-- The status of bytes that are no symbol: an illegal header byte is BadHeader (R72, R191); bytes that end first
are a read at or beyond CFG_SRCLEN, Truncated (R46). -/
def statusOf : DecodeError → Status
  | .badHeader => .badHeader
  | .endOfBytes => .truncated
  | .notStart => .truncated

end Sys2Proof.Machine
end

