-- ==== Sys2Proof/Machine/ByteGroup.lean ====
section
/-! DEFINITION. The bit-group unpacker (spec/41_bytegroup.md): the run's header bytes GHDR, the groups GRP.W0, GRP.W2,
GRP.W4, GRP.W8, their control bytes C2 and C4, and the literal byte LIT. -/

namespace Sys2Proof.Machine

/-- One output byte of the current group (R113: lane `lane` of group GRP is RAW[16*GRP + lane]). -/
def Work.putLane (b : Byte) (w : Work) : Work :=
  { w with raw := w.raw.setIfInBounds (Config.groupBytes * w.grp + w.lane) b, lane := w.lane + 1 }

/-- A literal byte taken verbatim by the next lane (R107, R109, R110): `ext` passes it. -/
def Work.literal (b : Byte) (w : Work) : Work := { w.putLane b with ext := w.ext + 1 }

/-- The next lane takes the byte at `ext`. -/
def literalLane (s : State) : Run Unit :=
  (memRead s.w.ext s).bind fun b s => .val () (s.withW (s.w.literal b))

/-- The next lane takes a code: the sentinel takes the next extension byte, any other code is the literal value
(R68, R69, R109, R110). -/
def codeLane (sentinel : Bool) (value : Byte) (s : State) : Run Unit :=
  if sentinel then literalLane s else .val () (s.withW (s.w.putLane value))

/-- A 2-bit code (R68, R109). -/
def code2Lane (c : BitVec 2) (s : State) : Run Unit := codeLane (c == 3#2) (c.setWidth 8) s

/-- A 4-bit code (R69, R110). -/
def code4Lane (c : Nibble) (s : State) : Run Unit := codeLane (c == 15#4) (c.setWidth 8) s

/-- The four codes of a C2 byte, in order (R68). -/
def c2Lanes (c0 c1 c2 c3 : BitVec 2) (s : State) : Run Unit :=
  (code2Lane c0 s).bind fun _ s => (code2Lane c1 s).bind fun _ s => (code2Lane c2 s).bind fun _ s => code2Lane c3 s

/-- The two codes of a C4 byte, in order (R69). -/
def c4Lanes (c0 c1 : Nibble) (s : State) : Run Unit :=
  (code4Lane c0 s).bind fun _ s => code4Lane c1 s

/-- The same part `k` times. -/
def repeatRun (f : State → Run Unit) : Nat → State → Run Unit
  | 0, s => .val () s
  | k + 1, s => (f s).bind fun _ s => repeatRun f k s

/-- The `k` control bytes from offset `a` on, each read and then unpacked. -/
def controlBytes (f : Byte → State → Run Unit) : Nat → Nat → State → Run Unit
  | 0, _, s => .val () s
  | k + 1, a, s => (memRead a s).bind fun b s => (f b s).bind fun _ s => controlBytes f k (a + 1) s

/-- The start of a group with `ctl` control bytes: lane 0; the extension area (or, with no control byte, the literal
bytes) starts after them. -/
def Work.beginGroup (ctl : Nat) (w : Work) : Work := { w with lane := 0, ext := w.dcur + ctl }

/-- The end of a group (R108 to R110): DCUR passes it; the next group of the run, or the end of the run. -/
def State.endGroup (s : State) : State :=
  { s with
    pos := if s.w.grp + 1 < s.groups then .group else .planeEnd
    w := { s.w with dcur := s.w.ext, grp := s.w.grp + 1 } }

/-- A group: its start, its sixteen lanes, its end. -/
def groupOf (ctl : Nat) (lanes : State → Run Unit) (s : State) : Res :=
  ((lanes (s.withW (s.w.beginGroup ctl))).bind fun _ s => .val () s.endGroup).finish

/-- `GRP.W0` (R106): sixteen zero bytes, no stream byte. -/
def execGrpW0 (s : State) : Res := groupOf 0 (repeatRun (codeLane false 0#8) 16) s

/-- `GRP.W8` (R107): sixteen bytes verbatim. -/
def execGrpW8 (s : State) : Res := groupOf 0 (repeatRun literalLane 16) s

/-- `GRP.W2` (R109): four C2 bytes, then the extension area. -/
def execGrpW2 (s : State) : Res :=
  groupOf 4 (controlBytes (fun b => c2Lanes (bits 6 2 b) (bits 4 2 b) (bits 2 2 b) (bits 0 2 b)) 4 s.w.dcur) s

/-- `GRP.W4` (R110): eight C4 bytes, then the extension area. -/
def execGrpW4 (s : State) : Res :=
  groupOf 8 (controlBytes (fun b => c4Lanes (bits 4 4 b) (bits 0 4 b)) 8 s.w.dcur) s

/-- `C2` (R68, R109): four lanes of the current group. -/
def execC2 (code0 code1 code2 code3 : BitVec 2) (s : State) : Res := (c2Lanes code0 code1 code2 code3 s).finish

/-- `C4` (R69, R110): two lanes of the current group. -/
def execC4 (code0 code1 : Nibble) (s : State) : Res := (c4Lanes code0 code1 s).finish

/-- A seed byte (R160): PRED[k] takes it; after the last of the `E` bytes the block loop begins. -/
def State.seedByte (b : Byte) (s : State) : State :=
  { s with
    pos := if s.w.lane + 1 < s.e then .seed else .blockTop
    w := { s.w with pred := s.w.pred.setIfInBounds s.w.lane b, lane := s.w.lane + 1 } }

/-- `LIT` (R69): a seed byte goes to PRED (R160), any other literal byte to the next lane (R107, R109, R110). -/
def execLit (value : Byte) (s : State) : Res :=
  .next (if s.pos = .seed then s.seedByte value else s.withW (s.w.literal value))

/-- The selectors of header byte `h` latched as those of groups `4h` to `4h + 3` (R67, R102). -/
def latchSel (sel : Vector (BitVec 2) 16) (h : Nat) (s0 s1 s2 s3 : BitVec 2) : Vector (BitVec 2) 16 :=
  (((sel.setIfInBounds (4 * h) s0).setIfInBounds (4 * h + 1) s1).setIfInBounds (4 * h + 2) s2).setIfInBounds
    (4 * h + 3) s3

/-- `GHDR` (R67, R101, R102): header byte number `DCUR - HCUR` of the run; after the last, the run's groups. -/
def execGhdr (sel0 sel1 sel2 sel3 : BitVec 2) (s : State) : Res :=
  let h := s.w.dcur - s.w.hcur
  let w := { s.w with sel := latchSel s.w.sel h sel0 sel1 sel2 sel3, dcur := s.w.dcur + 1 }
  if h + 1 < s.headers then .next (s.withW w)
  else .next { s with pos := .group, w := { w with grp := 0 } }

end Sys2Proof.Machine
end

