-- ==== Sys2Proof/Machine/Command.lean ====
section
/-! DEFINITION. The command START (spec/44_command.md R170 to R176, R182). -/

namespace Sys2Proof.Machine

/-- `ConfigLegal()` (R171 to R174). -/
def State.configLegal (s : State) : Bool :=
  decide (s.cfgMode ≠ 3#2) && decide (s.n * s.e < Config.lenLimit) &&
  (if s.cfgMode = 0#2 then decide (s.e % 4 = 0) && decide (4 ≤ s.e) && decide (s.e ≤ Config.elemMax)
   else if s.cfgMode = 1#2 then decide (s.n % 3 = 0) && (s.e == 2 || s.e == 4)
   else s.e == 2 || s.e == 4)

/-- `FilterLegal()` (R176). -/
def State.filterLegal (s : State) : Bool :=
  if s.cfgFilter = 0#2 then true
  else if s.cfgFilter = 1#2 then s.cfgMode == 0#2 && (s.e == 4 || s.e == 8)
  else if s.cfgFilter = 2#2 then s.cfgMode == 0#2 && s.e == 8
  else s.cfgMode == 0#2 && s.e % 4 == 0

/-- SRC `[0, L)` and DST `[0, N*E)` share a physical address (R223). -/
def State.buffersOverlap (s : State) : Bool :=
  decide (max s.par.srcBase s.par.dstBase < min (s.par.srcBase + s.l) (s.par.dstBase + s.n * s.e))

/-- `refuse ConfigError` (R175): CFGERR rises, DONE has fallen (R170); STATUS, FILTER_OUT, SRC and DST stay. -/
def State.refuseConfig (s : State) : State := { s with done := false, cfgerr := true }

/-- An accepted START (R170): the host-visible registers; the header is read next. -/
def State.accept (s : State) : State :=
  { s with done := false, cfgerr := false, busy := true, status := 0, filterOut := s.cfgFilter, pos := .header }

/-- `START` (R170): ignored while busy (R182); refused on an illegal configuration (R175); no launch with overlapping
buffers (R223); then BadFilter before the stream is looked at (R176), or the decode of CFG_MODE begins (R177). -/
def execStart (_ignored : BitVec 31) (s : State) : Res :=
  if s.busy then .next s
  else if !s.configLegal then .next s.refuseConfig
  else if s.buffersOverlap then .refused .buffersOverlap
  else if !s.filterLegal then .next (s.accept.endCall .badFilter)
  else .next s.accept

end Sys2Proof.Machine
end

