-- ==== Sys2Proof/Machine/Header.lean ====
section
/-! DEFINITION. The header symbols HDR.ATTR, HDR.TRI, HDR.SEQ (spec/44_command.md R177 to R180): the header is right for
CFG_MODE or the call ends with BadHeader; then the initial state of the mode's decoder (R30, R121, R151, R160).
The length tests that precede the header read (R120, R150, R178) stand before the fetch, in Fetch.lean. -/

namespace Sys2Proof.Machine

/-- A header symbol under the CFG_MODE it belongs to; under any other it gets BadHeader (R177, R191). -/
def headerFor (mode : BitVec 2) (s : State) (go : State → State) : Res :=
  if s.cfgMode = mode then .next (go s) else .next (s.endCall .badHeader)

/-- The start of DecodeAttributes (R160, R165): the tail-length test, then the cursors; the seed is read next. -/
def beginAttributes (s : State) : State :=
  if s.l - 1 < tailSize s.e then s.endCall .truncated
  else { s with pos := .seed, w := { s.w with ver := 0#4, dcur := 1, idx := 0, blk := 0, lane := 0 } }

/-- The initial state of DecodeTriangles (R121). -/
def beginTriangles (ver : BitVec 1) (s : State) : State :=
  { s with
    pos := .triangles
    w := { s.w with
      ver := ver.setWidth 4
      fecmax := if ver = 0#1 then Config.fecmaxV0 else Config.fecmaxV1
      ccur := 1, dcur := 1 + s.t, idx := 0, next := 0, last := 0, eoff := 0, voff := 0
      efA := Vector.replicate 16 s.par.fifoInit
      efB := Vector.replicate 16 s.par.fifoInit
      vf := Vector.replicate 16 s.par.fifoInit } }

/-- The initial state of DecodeIndices (R151); VER is latched and has no other effect (D28). -/
def beginIndices (ver : BitVec 1) (s : State) : State :=
  { s with
    pos := .sequence
    w := { s.w with ver := ver.setWidth 4, dcur := 1, idx := 0, seqlast := Vector.replicate 2 0 } }

/-- `HDR.ATTR` (R178, then R160). -/
def execHdrAttr (s : State) : Res := headerFor 0#2 s beginAttributes

/-- `HDR.TRI v` (R179, then R121). -/
def execHdrTri (ver : BitVec 1) (s : State) : Res := headerFor 1#2 s (beginTriangles ver)

/-- `HDR.SEQ v` (R180, then R151). -/
def execHdrSeq (ver : BitVec 1) (s : State) : Res := headerFor 2#2 s (beginIndices ver)

end Sys2Proof.Machine
end

