-- ==== Sys2Proof/Machine/Reserved.lean ====
section
/-! DEFINITION. The reserved byte RSV (spec/30_encoding.md R72). -/

namespace Sys2Proof.Machine

/-- `RSV` (R72): never examined, so nothing happens; no cursor passes it (R42, R44, R66). -/
def execRsv (_value : Byte) (s : State) : Res := .next s

end Sys2Proof.Machine
end

