-- ==== Sys2Proof/Machine/Varint.lean ====
section
/-! DEFINITION. The variable-length integer decoder (spec/40_varint.md): the byte symbols VB.LAST, VB.CONT, VB.FIFTH, the
whole VARINT, and the free index FREE. -/

namespace Sys2Proof.Machine

/-- One turn of VByte's loop (R90): a group of value bits enters the result at `shift`, DCUR advances; `ends` says
that the byte ends the varint.  The first byte of a varint starts the result afresh. -/
def Work.vbGroup (group : Word) (shift : Nat) (ends : Bool) (w : Work) : Work :=
  { w with
    dcur := w.dcur + 1
    vres := (if w.vcnt = 0 then 0 else w.vres) ||| (group <<< shift)
    vcnt := if ends then 0 else w.vcnt + 1 }

/-- A byte with CONT = 0 among the first four (R62). -/
def Work.vbLast (group : BitVec 7) (w : Work) : Work := w.vbGroup (group.setWidth 32) (7 * w.vcnt) true

/-- A byte with CONT = 1 among the first four (R62). -/
def Work.vbCont (group : BitVec 7) (w : Work) : Work := w.vbGroup (group.setWidth 32) (7 * w.vcnt) false

/-- The fifth byte (R62, R91): bits 3:0 go to value bits 31:28, the others nowhere, and the varint ends. -/
def Work.vbFifth (groupLo : BitVec 4) (w : Work) : Work := w.vbGroup (groupLo.setWidth 32) 28 true

/-- One byte of a varint, the fifth where four have gone before it (R62). -/
def Work.vbByte (b : Byte) (w : Work) : Work :=
  if w.vcnt = 4 then w.vbFifth (bits 0 4 b)
  else if b.msb then w.vbCont (bits 0 7 b)
  else w.vbLast (bits 0 7 b)

/-- The bytes of a varint one after another. -/
def Work.vbBytes : List Byte → Work → Work
  | [], w => w
  | b :: r, w => Work.vbBytes r (w.vbByte b)

/-- `VByte()` on bytes already split off the stream (R90): the value stands in `vres`. -/
def Work.varint (bs : List Byte) (w : Work) : Work := Work.vbBytes bs { w with vcnt := 0 }

/-- `DecodeIndex()` on the bytes of its varint (R94): LAST moves by the signed delta; the index is LAST. -/
def Work.freeIndex (bs : List Byte) (w : Work) : Work :=
  let w := w.varint bs
  { w with last := w.last + unzigzag32 w.vres }

/-- The bytes of the varint at DCUR (R90); a read at or beyond CFG_SRCLEN ends the decode with Truncated (R46). -/
def fetchVarint (s : State) : Run (List Byte) :=
  match splitVarint 4 (s.window s.w.dcur Config.varintMax) with
  | some (bs, _) => .val bs s
  | none => raise .truncated s

/-- `DecodeIndex()` (R94). -/
def decodeIndex (s : State) : Run Word :=
  (fetchVarint s).bind fun bs s =>
  let w := s.w.freeIndex bs
  .val w.last (s.withW w)

/-- `VB.LAST` (R62, R90). -/
def execVbLast (group : BitVec 7) (s : State) : Res := .next (s.withW (s.w.vbLast group))

/-- `VB.CONT` (R62, R90). -/
def execVbCont (group : BitVec 7) (s : State) : Res := .next (s.withW (s.w.vbCont group))

/-- `VB.FIFTH` (R62, R91). -/
def execVbFifth (_ignored groupLo : BitVec 4) (s : State) : Res := .next (s.withW (s.w.vbFifth groupLo))

/-- `VARINT` (R90). -/
def execVarint (bytes : List Byte) (s : State) : Res := .next (s.withW (s.w.varint bytes))

/-- `FREE` (R94). -/
def execFree (bytes : List Byte) (s : State) : Res := .next (s.withW (s.w.freeIndex bytes))

end Sys2Proof.Machine
end

