-- ==== Sys2Proof/Machine/Sequence.lean ====
section
/-! DEFINITION. The index-sequence symbol SEQ (spec/43_delta_predictor.md R152). -/

namespace Sys2Proof.Machine

/-- The predictor update of `SeqIndex()` (R152): the slot that bit 0 of the value selects moves by the delta. -/
def Work.seqIndex (w : Work) : Work :=
  { w with seqlast :=
      setSlot2 w.seqlast (seqSlot w.vres) (slot2 w.seqlast (seqSlot w.vres) + seqDelta w.vres) }

/-- `SEQ` (R152): the varint, the predictor slot, the index written to element IDX, IDX + 1. -/
def execSeq (bytes : List Byte) (s : State) : Res :=
  let w := (s.w.varint bytes).seqIndex
  ((memWrite (s.w.idx * s.e) (leBytes s.e (slot2 w.seqlast (seqSlot w.vres))) (s.withW w)).bind fun _ s =>
    .val () (s.withW { s.w with idx := s.w.idx + 1 })).finish

end Sys2Proof.Machine
end

