-- ==== Sys2Proof/Machine/Triangle.lean ====
section
/-! DEFINITION. The mesh-index FIFO state machine (spec/42_triangle_fifo.md R123 to R142): the eight control bytes and the
codeAux byte.  A control byte's meaning is the whole triangle (R126 to R128, R131, R136, R137): it reads the
payload it needs at DCUR. -/

namespace Sys2Proof.Machine

/-- The control byte at CCUR is passed (R125). -/
def Work.passControl (w : Work) : Work := { w with ccur := w.ccur + 1 }

/-- The end of an edge-continue triangle (R126 to R128): Emit, the vertex push unless `c` was a hit, the two edges. -/
def finishEdge (a b c : Word) (hit : Bool) (s : State) : Run Unit :=
  (emit a b c s).bind fun _ s =>
  .val () (s.withW (((s.w.pushVertexUnless hit c).pushEdge c b).pushEdge a c))

/-- An edge-continue triangle (R125, R129): the edge `fe` selects is read, then `c` is resolved from the FIFOs as
they are, then the triangle is written and pushed. -/
def edgeTriangle (fe : Nibble) (hit : Bool) (third : State → Run Word) (s : State) : Run Unit :=
  let slot := edgeSlot s.w.eoff fe
  let a := slot16 s.w.efA slot
  let b := slot16 s.w.efB slot
  (third (s.withW s.w.passControl)).bind fun c s => finishEdge a b c hit s

/-- `c <- NEXT; NEXT <- NEXT + 1` (R126, R133). -/
def takeNext (s : State) : Run Word := .val s.w.next (s.withW { s.w with next := s.w.next + 1#32 })

/-- `c <- LAST + delta; LAST <- c` (R127). -/
def moveLast (delta : Word) (s : State) : Run Word :=
  .val (s.w.last + delta) (s.withW { s.w with last := s.w.last + delta })

/-- A VertexFifo read: the slot's content, whatever was or was not pushed into it (R133, R141). -/
def readVertex (slot : Nibble) (s : State) : Run Word := .val (slot16 s.w.vf slot) s

/-- `TRI.EDGE.NEXT fe` (R126). -/
def execTriEdgeNext (fe : Nibble) (s : State) : Res := (edgeTriangle fe false takeNext s).finish

/-- `TRI.EDGE.FIFO fe, fec` (R126): the vertex push is skipped. -/
def execTriEdgeFifo (fe fec : Nibble) (s : State) : Res :=
  (edgeTriangle fe true (fun s => readVertex (edgeVertexSlot s.w.voff fec) s) s).finish

/-- `TRI.EDGE.DEC fe` (R127): `fec` = 13, the third vertex is LAST - 1. -/
def execTriEdgeDec (fe : Nibble) (s : State) : Res :=
  (edgeTriangle fe false (moveLast (shortDelta 13#4)) s).finish

/-- `TRI.EDGE.INC fe` (R127): `fec` = 14, the third vertex is LAST + 1. -/
def execTriEdgeInc (fe : Nibble) (s : State) : Res :=
  (edgeTriangle fe false (moveLast (shortDelta 14#4)) s).finish

/-- `TRI.EDGE.FREE fe` (R128): the third vertex is the free index at DCUR. -/
def execTriEdgeFree (fe : Nibble) (s : State) : Res := (edgeTriangle fe false decodeIndex s).finish

/-- A vertex of a new triangle after phase 1 of ResolveNew (R133): a value with its `hit` flag, or a free index that
phase 2 is to read. -/
inductive Vertex where
  | known (v : Word) (hit : Bool)
  | pending
deriving DecidableEq, Repr

/-- Phase 1 of ResolveNew for one vertex code (R133): 0 takes NEXT, 15 is left to phase 2, 1..14 is a FIFO hit. -/
def vertexPhase1 (code : Nibble) (s : State) : Vertex × State :=
  if code = 0#4 then (.known s.w.next false, s.withW { s.w with next := s.w.next + 1#32 })
  else if code = 15#4 then (.pending, s)
  else (.known (slot16 s.w.vf (newVertexSlot s.w.voff code)) true, s)

/-- Phase 2 of ResolveNew for one vertex (R133): a pending one is the free index at DCUR. -/
def vertexPhase2 (x : Vertex) (s : State) : Run (Word × Bool) :=
  match x with
  | .known v hit => .val (v, hit) s
  | .pending => (decodeIndex s).bind fun v s => .val (v, false) s

/-- `ResolveNew(fea, feb, fec)` (R133). -/
def resolveNew (fea feb fec : Nibble) (s : State) : Run ((Word × Bool) × (Word × Bool) × (Word × Bool)) :=
  let (a, s) := vertexPhase1 fea s
  let (b, s) := vertexPhase1 feb s
  let (c, s) := vertexPhase1 fec s
  (vertexPhase2 a s).bind fun a s =>
  (vertexPhase2 b s).bind fun b s =>
  (vertexPhase2 c s).bind fun c s => .val (a, b, c) s

/-- What follows the codeAux byte of a new triangle (R133, R135): the three vertices, Emit, the vertex pushes (skipped
for hits; `a` of a legal `fea` is never one, R134), the three edges. -/
def newTriangle (feb fec : Nibble) (s : State) : Run Unit :=
  (resolveNew s.w.fea feb fec s).bind fun (a, b, c) s =>
  (emit a.1 b.1 c.1 s).bind fun _ s =>
  .val () (s.withW
    ((((((s.w.pushVertexUnless a.2 a.1).pushVertexUnless b.2 b.1).pushVertexUnless c.2 c.1).pushEdge
      b.1 a.1).pushEdge c.1 b.1).pushEdge a.1 c.1))

/-- The codeAux byte's own effect: a byte of the payload is passed (R132), a table entry costs no payload (R130). -/
def cauxTriangle (feb fec : Nibble) (s : State) : Run Unit :=
  newTriangle feb fec (if s.w.auxPay then s.withW { s.w with dcur := s.w.dcur + 1 } else s)

/-- The restart marker's own effect (R132): the byte is passed and NEXT is 0 before any vertex takes a value. -/
def restartTriangle (s : State) : Run Unit :=
  newTriangle 0#4 0#4 (s.withW { s.w with dcur := s.w.dcur + 1, next := 0#32 })

/-- `CAUX feb, fec` (R65, R133, R135), with `fea` and the place of the byte as the control byte left them. -/
def execCaux (feb fec : Nibble) (s : State) : Res := (cauxTriangle feb fec s).finish

/-- `CAUX.RESTART` (R132). -/
def execCauxRestart (s : State) : Res := (restartTriangle s).finish

/-- `TRI.NEW.TABLE j` (R130, R131): `fea` = 0, the codeAux byte is table entry `j`; no restart on 0. -/
def execTriNewTable (j : Nibble) (s : State) : Res :=
  let s := s.withW { s.w.passControl with fea := 0#4, auxPay := false }
  ((memRead (s.tableStart + j.toNat) s).bind fun aux s =>
    cauxTriangle (bits 4 4 aux) (bits 0 4 aux) s).finish

/-- The codeAux byte from the payload (R132): the restart marker, or any other codeAux byte. -/
def newFromPayload (fea : Nibble) (s : State) : Run Unit :=
  let s := s.withW { s.w.passControl with fea := fea, auxPay := true }
  (memRead s.w.dcur s).bind fun aux s =>
    if aux = 0#8 then restartTriangle s else cauxTriangle (bits 4 4 aux) (bits 0 4 aux) s

/-- `TRI.NEW.BYTE0` (R136): `fea` = 0. -/
def execTriNewByte0 (s : State) : Res := (newFromPayload 0#4 s).finish

/-- `TRI.NEW.BYTE15` (R137): `fea` = 15. -/
def execTriNewByte15 (s : State) : Res := (newFromPayload 15#4 s).finish

end Sys2Proof.Machine
end

