-- ==== Sys2Proof/Machine/Dispatch.lean ====
section
/-! DEFINITION. exec: one arm per instruction, each one call of its meaning. -/

namespace Sys2Proof.Machine

def exec (i : Instr) (s : State) : Host.Outcome State Fault Refusal :=
  match i with
  | .hdrAttr => Sys2Proof.Machine.execHdrAttr s
  | .hdrTri ver => Sys2Proof.Machine.execHdrTri ver s
  | .hdrSeq ver => Sys2Proof.Machine.execHdrSeq ver s
  | .vbLast group => Sys2Proof.Machine.execVbLast group s
  | .vbCont group => Sys2Proof.Machine.execVbCont group s
  | .vbFifth ignored groupLo => Sys2Proof.Machine.execVbFifth ignored groupLo s
  | .varint bytes => Sys2Proof.Machine.execVarint bytes s
  | .free bytes => Sys2Proof.Machine.execFree bytes s
  | .seq bytes => Sys2Proof.Machine.execSeq bytes s
  | .triNewByte15 => Sys2Proof.Machine.execTriNewByte15 s
  | .triNewByte0 => Sys2Proof.Machine.execTriNewByte0 s
  | .triNewTable j => Sys2Proof.Machine.execTriNewTable j s
  | .triEdgeFree fe => Sys2Proof.Machine.execTriEdgeFree fe s
  | .triEdgeNext fe => Sys2Proof.Machine.execTriEdgeNext fe s
  | .triEdgeDec fe => Sys2Proof.Machine.execTriEdgeDec fe s
  | .triEdgeInc fe => Sys2Proof.Machine.execTriEdgeInc fe s
  | .triEdgeFifo fe fec => Sys2Proof.Machine.execTriEdgeFifo fe fec s
  | .caux feb fec => Sys2Proof.Machine.execCaux feb fec s
  | .cauxRestart => Sys2Proof.Machine.execCauxRestart s
  | .ghdr sel0 sel1 sel2 sel3 => Sys2Proof.Machine.execGhdr sel0 sel1 sel2 sel3 s
  | .grpW0 => Sys2Proof.Machine.execGrpW0 s
  | .grpW2 => Sys2Proof.Machine.execGrpW2 s
  | .grpW4 => Sys2Proof.Machine.execGrpW4 s
  | .grpW8 => Sys2Proof.Machine.execGrpW8 s
  | .c2 code0 code1 code2 code3 => Sys2Proof.Machine.execC2 code0 code1 code2 code3 s
  | .c4 code0 code1 => Sys2Proof.Machine.execC4 code0 code1 s
  | .lit value => Sys2Proof.Machine.execLit value s
  | .rsv value => Sys2Proof.Machine.execRsv value s
  | .start ignored => Sys2Proof.Machine.execStart ignored s

end Sys2Proof.Machine
end

