-- ==== Sys2Proof/Machine/HostPort.lean ====
section
/-! DEFINITION. What the host can do (spec/10_state.md R10, R29; spec/20_memory.md R52; spec/44_command.md R182, R183;
spec/70_reset_and_hazards.md R222, R224): register reads and writes, access to SRC and DST, hardware reset. -/

namespace Sys2Proof.Machine

/-- A word as four bytes, least significant first. -/
def wordBytes (v : Word) : List Byte := [bits 0 8 v, bits 8 8 v, bits 16 8 v, bits 24 8 v]

/-- The word a host register reads as (R10): CTRL reads as 0, unused bits read 0.  R10 gives the CFG registers the access
"read/write while BUSY=0" and says of BUSY = 1 only that a write is ignored; here they read as their value then too:
DESIGN CHOICE, unsafe, log entry 22. -/
def State.regWord (s : State) (reg : Nat) : Option Word :=
  match reg with
  | 0 => some 0
  | 1 => some s.flagsWord
  | 2 => some s.statusWord
  | 3 => some (s.cfgMode.setWidth 32)
  | 4 => some (s.cfgFilter.setWidth 32)
  | 5 => some s.cfgCount
  | 6 => some (s.cfgElemsize.setWidth 32)
  | 7 => some s.cfgSrclen
  | 8 => some (s.filterOut.setWidth 32)
  | _ => none

/-- A write to a CFG register: ignored while BUSY = 1 (R10, R182). -/
def State.writeCfg (s : State) (new : State) : Res := .next (if s.busy then s else new)

/-- A write to a host register (R10): CTRL takes the command START (R76); the CFG registers keep the low bits of
their width; the read-only registers keep their value. -/
def writeReg (reg : Nat) (v : Word) (s : State) : Res :=
  match reg with
  | 0 =>
    match decode .command (wordBytes v) with
    | .ok (i, _) => exec i s
    | .error _ => .next s
  | 1 => .next s
  | 2 => .next s
  | 3 => s.writeCfg { s with cfgMode := bits 0 2 v }
  | 4 => s.writeCfg { s with cfgFilter := bits 0 2 v }
  | 5 => s.writeCfg { s with cfgCount := v }
  | 6 => s.writeCfg { s with cfgElemsize := bits 0 9 v }
  | 7 => s.writeCfg { s with cfgSrclen := v }
  | 8 => .next s
  | _ => .fault .noSuchRegister

/-- A read of a host register; reading changes nothing in the block (R53, R224: "Reading FLAGS at any time is safe").  A CFG
register is read while BUSY = 1 as while BUSY = 0: DESIGN CHOICE, unsafe, log entry 22. -/
def readReg (reg : Nat) (s : State) : Res :=
  match s.regWord reg with
  | some v => .next { s with rdata := v }
  | none => .fault .noSuchRegister

/-- An access of the host to SRC or DST (R52, R224): never while BUSY = 1, and only at an offset that exists (R40). -/
def bufferAccess (a : Nat) (s : State) (new : State) : Res :=
  if s.busy then .refused .buffersTouchedWhileBusy
  else if Config.lenLimit ≤ a then .fault .noSuchOffset
  else .next new

/-- The byte of DST the host reads: a free value where DST is unspecified (R49, U1). -/
def State.dstRead (s : State) (a : Nat) : Byte := (s.dstByte a).getD (Config.freeDst s.dstGen a)

/-- One move of the host; `pass` is none. -/
def hostMove (m : HostMove) (s : State) : Res :=
  match m with
  | .writeReg reg v => writeReg reg v s
  | .readReg reg => readReg reg s
  | .writeSrc a b => bufferAccess a s { s with src := Mem.write .src s.src a b }
  | .writeDst a b => bufferAccess a s { s with dst := Mem.write .dst s.dst a b }
  | .readDst a => bufferAccess a s { s with rdata := (s.dstRead a).setWidth 32 }
  | .reset => .next s.hardReset
  | .pass => .next s

end Sys2Proof.Machine
end

