-- ==== Sys2Proof/Machine/Vertex.lean ====
section
/-! DEFINITION. The byte-plane delta decoder's own work between symbols (spec/43_delta_predictor.md R161 to R165): the head
of the block loop, the start of a run, the reconstruction of a plane, the copy of a block. -/

namespace Sys2Proof.Machine

/-- `v <- Unzigzag8(RAW[i]) + p; TRANS[i*E + k] <- v; p <- v` for `i` from `i` on, `count` times (R162). -/
def planeLoop (raw : Vector Byte 256) (e k : Nat) : (count i : Nat) → (p : Byte) → Vector Byte 8192 →
    Vector Byte 8192
  | 0, _, _, tr => tr
  | c + 1, i, p, tr =>
    let v := unzigzag8 (raw.getD i 0) + p
    planeLoop raw e k c (i + 1) v (tr.setIfInBounds (i * e + k) v)

/-- The block loop enters a block (R163, R165): its planes come in order from 0. -/
def State.beginBlock (s : State) : State := { s with pos := .runTop, w := { s.w with plane := 0 } }

/-- DecodeBytes begins (R108): HCUR is the run's first header byte; the header bytes are read next. -/
def State.beginRun (s : State) : State := { s with pos := .groupHeader, w := { s.w with hcur := s.w.dcur } }

/-- The rest of DecodePlane (R162), then the next plane or the end of the block (R163). -/
def State.endPlane (s : State) : State :=
  { s with
    pos := if s.w.plane + 1 < s.e then .runTop else .blockEnd
    w := { s.w with
      trans := planeLoop s.w.raw s.e s.w.plane s.bc 0 (s.w.pred.getD s.w.plane 0) s.w.trans
      plane := s.w.plane + 1 } }

/-- `PRED[k] <- TRANS[from + k]` for `k` below `count` (R163). -/
def loadPred (tr : Vector Byte 8192) (start : Nat) : (count : Nat) → Vector Byte 256 → Vector Byte 256
  | 0, p => p
  | c + 1, p => (loadPred tr start c p).setIfInBounds c (tr.getD (start + c) 0)

/-- The first `count` bytes of TRANS from index `j` on. -/
def transBytes (tr : Vector Byte 8192) : (count j : Nat) → List Byte
  | 0, _ => []
  | c + 1, j => tr.getD j 0 :: transBytes tr c (j + 1)

/-- The rest of DecodeBlock (R163): the block is copied to DST, PRED becomes its last vertex, IDX and BLK pass it. -/
def endBlock (s : State) : Res :=
  ((memWrite (s.w.blk * s.e) (transBytes s.w.trans (s.bc * s.e) 0) s).bind fun _ s =>
    .val () { s with
      pos := .blockTop
      w := { s.w with
        pred := loadPred s.w.trans ((s.bc - 1) * s.e) s.e s.w.pred
        idx := s.w.idx + s.bc
        blk := s.w.blk + s.bc } }).finish

/-- What the sequencer does at a position where no symbol is read; at any other position, nothing. -/
def between (s : State) : Res :=
  match s.pos with
  | .blockTop => .next s.beginBlock
  | .runTop => .next s.beginRun
  | .planeEnd => .next s.endPlane
  | .blockEnd => endBlock s
  | .idle | .header | .seed | .groupHeader | .group | .triangles | .sequence => .next s

end Sys2Proof.Machine
end

