-- ==== Sys2Proof/Machine/Step.lean ====
section
/-! DEFINITION. The step of the machine, and the placing of one instruction where the next step fetches. -/

namespace Sys2Proof.Machine

/-- One step of the block: at the position of a symbol, the symbol is fetched, decoded and executed (R55). -/
def blockStep (s : State) : Host.Outcome State Fault Refusal :=
  match due s with
  | .rest => .next s
  | .ends st => .next (s.endCall st)
  | .work => between s
  | .symbol c bytes =>
    match decode c bytes with
    | .ok (i, _) => exec i s
    | .error e => .next (s.endCall (statusOf e))

/-- One step of the machine: the host's next move, where it has one; otherwise a step of the block. -/
def step (s : State) : Host.Outcome State Fault Refusal :=
  match s.host with
  | [] => blockStep s
  | .pass :: rest => blockStep { s with host := rest }
  | m :: rest => hostMove m { s with host := rest }

/-- The state in which the very next step runs the instruction of the host's word (log entry 12): a word for CTRL is
the host's next move; a header byte is the stream of a call of its mode; a selector is that of a group; a control
byte is that of a triangle; any other byte sequence is a sequence symbol.  The stream after it is zeros, and the
configuration leaves room for it. -/
def State.withFetchWord (s : State) (nbits w : Nat) : State :=
  match tableCtx nbits w with
  | .command => { s with host := .writeReg 0 (BitVec.ofNat 32 w) :: s.host }
  | .header =>
    { s with
      host := [], busy := true, done := false, cfgerr := false, pos := .header
      cfgMode := if w % 256 = 0xA0 then 0#2 else if w % 256 / 16 = 14 then 1#2 else 2#2
      cfgCount := 0#32, cfgElemsize := 4#9, cfgSrclen := 64#32
      src := Mem.writeBytes .src [] 0 (bytesOf 1 w) }
  | .sel =>
    { s with
      host := [], busy := true, done := false, cfgerr := false, pos := .group
      cfgMode := 0#2, cfgCount := 16#32, cfgElemsize := 4#9, cfgSrclen := 64#32, src := []
      w := { s.w with
        dcur := 2, hcur := 1, blk := 0, plane := 0, grp := 0
        sel := s.w.sel.setIfInBounds 0 (BitVec.ofNat 2 w) } }
  | .ctri _ =>
    { s with
      host := [], busy := true, done := false, cfgerr := false, pos := .triangles
      cfgMode := 1#2, cfgCount := 3#32, cfgElemsize := 4#9, cfgSrclen := 64#32
      src := Mem.writeBytes .src [] 1 (bytesOf 1 w)
      w := { s.w with ver := 1#4, fecmax := Config.fecmaxV1, ccur := 1, dcur := 2, idx := 0 } }
  | _ =>
    { s with
      host := [], busy := true, done := false, cfgerr := false, pos := .sequence
      cfgMode := 2#2, cfgCount := 1#32, cfgElemsize := 4#9, cfgSrclen := 64#32
      src := Mem.writeBytes .src [] 1 (bytesOf 5 w)
      w := { s.w with dcur := 1, idx := 0 } }

end Sys2Proof.Machine
end

