-- ==== Sys2Proof/Safety.lean ====
section
/-! DEFINITION. What a safe run of the block is: the invariants of its registers and memories, of a decode call in progress,
and the bound on the steps that a call still takes. -/

namespace Sys2Proof.Machine

/-- "At most one of BUSY, DONE, CFGERR is 1 at any time" (R11). -/
def State.flagsExclusive (s : State) : Prop :=
  ¬ (s.busy = true ∧ s.done = true) ∧ ¬ (s.busy = true ∧ s.cfgerr = true) ∧ ¬ (s.done = true ∧ s.cfgerr = true)

/-- "No other value of CODE ever occurs" (R12), and it is 0 while a decode runs (R12, R30). -/
def State.statusLegal (s : State) : Prop :=
  (∃ st : Status, s.status = st.code) ∧ (s.busy = true → s.status = 0)

/-- Both memories have the canonical form, and list only offsets that exist (R40). -/
def State.memoriesOk (s : State) : Prop :=
  Mem.wf .src s.src = true ∧ Mem.wf .dst s.dst = true ∧
  (∀ c ∈ s.src, c.1 < Config.lenLimit) ∧ (∀ c ∈ s.dst, c.1 < Config.lenLimit)

/-- The invariant of the host-visible registers and the memories: it holds at reset and every step keeps it. -/
def State.Inv (s : State) : Prop :=
  s.flagsExclusive ∧ s.statusLegal ∧ s.memoriesOk ∧ (s.busy = true ↔ s.pos ≠ .idle) ∧
  (s.busy = true → s.configLegal = true)

/-- An attribute call past its header: the mode, the tail (R160), the block loop's variable (R165), the data cursor (R204). -/
def State.attrOk (s : State) : Prop :=
  s.cfgMode = 0#2 ∧ tailSize s.e ≤ s.l - 1 ∧ s.w.blk ≤ s.n ∧ s.w.idx = s.w.blk ∧ s.w.dcur ≤ s.l

/-- What holds of a decode call at each position: the ranges of its cursors and counters (R14 to R16, R21, R204). -/
def State.callOk (s : State) : Prop :=
  match s.pos with
  | .idle => True
  | .header => True
  | .seed => s.attrOk ∧ s.w.blk = 0 ∧ s.w.lane < s.e
  | .blockTop => s.attrOk
  | .runTop => s.attrOk ∧ s.w.blk < s.n ∧ s.w.plane < s.e
  | .groupHeader =>
    s.attrOk ∧ s.w.blk < s.n ∧ s.w.plane < s.e ∧
    s.w.hcur ≤ s.w.dcur ∧ s.w.dcur < s.w.hcur + s.headers ∧ s.w.hcur + s.headers ≤ s.l
  | .group => s.attrOk ∧ s.w.blk < s.n ∧ s.w.plane < s.e ∧ s.w.grp < s.groups
  | .planeEnd => s.attrOk ∧ s.w.blk < s.n ∧ s.w.plane < s.e
  | .blockEnd => s.attrOk ∧ s.w.blk < s.n
  | .triangles =>
    s.cfgMode = 1#2 ∧ 1 + s.t + Config.auxTable ≤ s.l ∧ 1 ≤ s.w.ccur ∧ s.w.ccur ≤ 1 + s.t ∧
    s.w.idx = 3 * (s.w.ccur - 1) ∧ s.w.dcur ≤ s.l
  | .sequence =>
    s.cfgMode = 2#2 ∧ 1 + s.n + Config.seqTail ≤ s.l ∧ s.w.idx ≤ s.n ∧ s.w.dcur ≤ s.l

/-- Every element already produced stands in DST (R16, R49). -/
def State.produced (s : State) : Prop :=
  s.pos ≠ .idle → s.pos ≠ .header → ∀ a, a < s.w.idx * s.e → (s.dstByte a).isSome = true

/-- The most steps a run of one byte plane takes: its start, at most 4 header bytes, at most 16 groups, its end (R228). -/
def planeSteps : Nat := 22

/-- The most steps a block takes (R228). -/
def blockSteps (e : Nat) : Nat := planeSteps * e + 3

/-- A bound on the steps that the decode call still takes (R228: every loop is bounded by the configuration). -/
def State.stepsLeft (s : State) : Nat :=
  let after := 2 + (s.n - s.w.blk - 1) * blockSteps s.e
  let atPlaneEnd := after + planeSteps * (s.e - s.w.plane - 1) + 1
  match s.pos with
  | .idle => 0
  | .header => 3 + s.n + s.e + s.n * blockSteps s.e
  | .seed => 1 + s.n * blockSteps s.e + (s.e - s.w.lane)
  | .blockTop => 1 + (s.n - s.w.blk) * blockSteps s.e
  | .runTop => atPlaneEnd + 21
  | .groupHeader => atPlaneEnd + s.groups + (s.headers - (s.w.dcur - s.w.hcur))
  | .group => atPlaneEnd + (s.groups - s.w.grp)
  | .planeEnd => atPlaneEnd
  | .blockEnd => after
  | .triangles => 2 + s.t - s.w.ccur
  | .sequence => 1 + (s.n - s.w.idx)

/-- The block and its sequencer are between two steps of a decode call that the host leaves alone. -/
def State.running (s : State) : Prop := s.host = [] ∧ s.busy = true

end Sys2Proof.Machine
end

