-- ==== Sys2Proof/Certificates/Slice0/Obligations.lean ====
section
/-! DEFINITION. The statements for the provers, and before them the words they use: the spec's own formulas, written apart
from the definitions of the machine. -/

namespace Sys2Proof.Claims

open Sys2Proof.Machine

/-! ### The varint of R90, as its pseudocode reads SRC -/

/-- The extra bytes of `VByte()` (R90): at most `k` more, each contributing seven bits at `shift`. -/
def vbyteLoop (s : State) : (k a shift : Nat) → Word → Option (Word × Nat)
  | 0, a, _, r => some (r, a)
  | k + 1, a, shift, r =>
    if a < s.l then
      let g := s.srcByte a
      let r' := r ||| ((bits 0 7 g).setWidth 32 <<< shift)
      if g.msb then vbyteLoop s k (a + 1) (shift + 7) r' else some (r', a + 1)
    else none

/-- `VByte()` at offset `a` (R90): the value and the offset after it; none where the stream ends first (R46). -/
def vbyte (s : State) (a : Nat) : Option (Word × Nat) :=
  if a < s.l then
    let lead := s.srcByte a
    if lead.msb then vbyteLoop s 4 (a + 1) 7 ((bits 0 7 lead).setWidth 32) else some (lead.setWidth 32, a + 1)
  else none

/-- The bytes of SRC from offset `a` up to `d`, in stream order. -/
def streamBytes (s : State) (a d : Nat) : List Byte := (List.range (d - a)).map fun i => s.srcByte (a + i)

/-! ### FIFO pushes and written triangles -/

/-- The values `vs` have been pushed into a 16-slot FIFO at offset `o` (R123, R124): slot `o + k` holds `vs[k]`, every
other slot what it held, and the offset has advanced modulo 16. -/
def Pushed (f f' : Vector Word 16) (o o' : Nibble) (vs : List Word) : Prop :=
  o' = o + BitVec.ofNat 4 vs.length ∧
  ∀ k : Nibble, slot16 f' (o + k) = (vs[k.toNat]?).getD (slot16 f (o + k))

/-- Byte `x` of an array of `E`-byte little-endian elements (R45, R47, R48). -/
def elementByte (e : Nat) (vs : List Word) (x : Nat) : Byte := bits (8 * (x % e)) 8 ((vs[x / e]?).getD 0)

/-- DST holds the elements `vs` from element IDX of `s` on, and elsewhere what it held in `s` (R47, R138). -/
def Written (s t : State) (vs : List Word) : Prop :=
  ∀ x, t.dstByte x =
    if s.w.idx * s.e ≤ x ∧ x < (s.w.idx + vs.length) * s.e then some (elementByte s.e vs (x - s.w.idx * s.e))
    else s.dstByte x

/-- The triangle `(a, b, c)` has been emitted, the vertices `vs` and the edges `es` pushed, and nothing else has
changed but the registers a triangle's symbols may write (R126 to R138). -/
def TriangleDone (s t : State) (a b c : Word) (vs : List Word) (es : List (Word × Word)) : Prop :=
  Written s t [a, b, c] ∧
  Pushed s.w.vf t.w.vf s.w.voff t.w.voff vs ∧
  Pushed s.w.efA t.w.efA s.w.eoff t.w.eoff (es.map Prod.fst) ∧
  Pushed s.w.efB t.w.efB s.w.eoff t.w.eoff (es.map Prod.snd) ∧
  t.w.idx = s.w.idx + 3 ∧
  t = { s with
        dst := t.dst
        w := { s.w with
          dcur := t.w.dcur, ccur := t.w.ccur, idx := t.w.idx, next := t.w.next, last := t.w.last
          eoff := t.w.eoff, voff := t.w.voff, efA := t.w.efA, efB := t.w.efB, vf := t.w.vf
          fea := t.w.fea, auxPay := t.w.auxPay, vres := t.w.vres, vcnt := t.w.vcnt } }

/-- An edge-continue triangle that is none of FREE: no payload is read, the codeAux and varint registers stay. -/
def EdgeDone (s t : State) (fe : Nibble) (c : Word) (hit : Bool) : Prop :=
  let a := slot16 s.w.efA (s.w.eoff - 1#4 - fe)
  let b := slot16 s.w.efB (s.w.eoff - 1#4 - fe)
  TriangleDone s t a b c (if hit then [] else [c]) [(c, b), (a, c)] ∧
  t.w.ccur = s.w.ccur + 1 ∧ t.w.fea = s.w.fea ∧ t.w.auxPay = s.w.auxPay

/-- The element writes of one triangle lie inside DST (R47). -/
def RoomForTriangle (s : State) : Prop := (s.w.idx + 3) * s.e ≤ s.n * s.e

/-! ### ResolveNew as a single pass over a, b, c (R133) -/

/-- What the three vertices of a new triangle update in turn. -/
structure Pass where
  next : Word
  last : Word
  dcur : Nat

/-- One vertex, its `hit` flag, and the updates (R65, R94, R133): 0 takes NEXT, 15 reads a free index, 1..14 looks up
the VertexFifo as it was before the triangle. -/
def passVertex (s : State) (code : Nibble) (p : Pass) : Option ((Word × Bool) × Pass) :=
  if code = 0#4 then some ((p.next, false), { p with next := p.next + 1#32 })
  else if code = 15#4 then
    match vbyte s p.dcur with
    | some (v, d) =>
      let x := p.last + unzigzag32 v
      some ((x, false), { p with last := x, dcur := d })
    | none => none
  else some ((slot16 s.w.vf (s.w.voff - code), true), p)

/-- The three vertices in the order a, b, c. -/
def passAll (s : State) (fea feb fec : Nibble) (p : Pass) :
    Option ((Word × Bool) × (Word × Bool) × (Word × Bool) × Pass) :=
  match passVertex s fea p with
  | none => none
  | some (a, p) =>
    match passVertex s feb p with
    | none => none
    | some (b, p) =>
      match passVertex s fec p with
      | none => none
      | some (c, p) => some (a, b, c, p)

/-- The vertices that are pushed: those that were not FIFO hits (R135). -/
def notHit (xs : List (Word × Bool)) : List Word := (xs.filter fun x => !x.2).map Prod.fst

/-- `o` is the outcome of the new triangle with codes `fea`, `feb`, `fec`, resolved from `p` on (R131 to R135): the
triangle, or Truncated where a free index runs past the stream. -/
def NewTriangle (s : State) (fea feb fec : Nibble) (p : Pass) (o : Res) (q : State → Prop) : Prop :=
  match passAll s fea feb fec p with
  | some (a, b, c, p') =>
    RoomForTriangle s →
    ∃ t, o = .next t ∧
      TriangleDone s t a.1 b.1 c.1 (notHit [a, b, c]) [(b.1, a.1), (c.1, b.1), (a.1, c.1)] ∧
      t.w.next = p'.next ∧ t.w.last = p'.last ∧ t.w.dcur = p'.dcur ∧ q t
  | none => o = .next (s.endCall .truncated)

/-! ### Byte groups: the lane view of R113 -/

/-- How many lanes below `i` satisfy `p`. -/
def countBefore (p : Nat → Bool) : Nat → Nat
  | 0 => 0
  | i + 1 => countBefore p i + (if p i then 1 else 0)

/-- The code of lane `i` of a width-2 group at DCUR (R68). -/
def code2 (s : State) (i : Nat) : BitVec 2 := bits (6 - 2 * (i % 4)) 2 (s.srcByte (s.w.dcur + i / 4))

/-- The code of lane `i` of a width-4 group at DCUR (R69). -/
def code4 (s : State) (i : Nat) : Nibble := bits (4 - 4 * (i % 2)) 4 (s.srcByte (s.w.dcur + i / 2))

/-- Lane `i` takes a sentinel in a width-2 group. -/
def sentinel2 (s : State) (i : Nat) : Bool := code2 s i == 3#2

/-- Lane `i` takes a sentinel in a width-4 group. -/
def sentinel4 (s : State) (i : Nat) : Bool := code4 s i == 15#4

/-- Lane `i` of a width-2 group (R113): its code, or extension byte number "count of sentinel codes in lanes 0..i-1". -/
def lane2 (s : State) (i : Nat) : Byte :=
  if sentinel2 s i then s.srcByte (s.w.dcur + 4 + countBefore (sentinel2 s) i) else (code2 s i).setWidth 8

/-- Lane `i` of a width-4 group (R113). -/
def lane4 (s : State) (i : Nat) : Byte :=
  if sentinel4 s i then s.srcByte (s.w.dcur + 8 + countBefore (sentinel4 s) i) else (code4 s i).setWidth 8

/-- The current group holds `lane`, `len` stream bytes are passed, the next group or the end of the run comes, and
nothing else has changed (R106, R107, R109 to R111). -/
def GroupDone (s t : State) (lane : Nat → Byte) (len : Nat) : Prop :=
  (∀ i, i < 16 → t.w.raw.getD (16 * s.w.grp + i) 0 = lane i) ∧
  (∀ j, j < 16 * s.w.grp ∨ 16 * s.w.grp + 16 ≤ j → t.w.raw.getD j 0 = s.w.raw.getD j 0) ∧
  t = { s with
        pos := if s.w.grp + 1 < s.groups then .group else .planeEnd
        w := { s.w with
          raw := t.w.raw, dcur := s.w.dcur + len, grp := s.w.grp + 1
          lane := t.w.lane, ext := t.w.ext } }

/-- `o` is the outcome of taking `codes` (a value, and whether it is the sentinel) for the next lanes (R113): the lanes
receive the values or the extension bytes from `ext` on, and nothing else changes; or Truncated where an extension byte
that is needed lies at or beyond the end of the stream. -/
def CodesTaken (s : State) (o : Res) (codes : List (Byte × Bool)) : Prop :=
  let sent : Nat → Bool := fun i => (codes.getD i (0#8, false)).2
  let used := countBefore sent codes.length
  let base := 16 * s.w.grp + s.w.lane
  (base + codes.length ≤ 256 → used = 0 ∨ s.w.ext + used ≤ s.l →
    ∃ t, o = .next t ∧
      (∀ i, i < codes.length → t.w.raw.getD (base + i) 0 =
        if sent i then s.srcByte (s.w.ext + countBefore sent i) else (codes.getD i (0#8, false)).1) ∧
      (∀ j, j < base ∨ base + codes.length ≤ j → t.w.raw.getD j 0 = s.w.raw.getD j 0) ∧
      t = { s with w := { s.w with raw := t.w.raw, lane := s.w.lane + codes.length, ext := s.w.ext + used } }) ∧
  (used ≠ 0 → s.l < s.w.ext + used → o = .next (s.endCall .truncated))

/-! ### The vertex decoder -/

/-- The signed delta of RAW[i], by the formula of R95: `(r >> 1) ^ neg_8(zext_8(r[0]))`. -/
def rawDelta (s : State) (i : Nat) : Byte := (s.w.raw.getD i 0 >>> 1) ^^^ (0 - (s.w.raw.getD i 0 &&& 1))

/-- Byte `i` of the current plane (R162): the delta of RAW[i] added to the byte before it, the first to PRED[PLANE]. -/
def planeByte (s : State) : Nat → Byte
  | 0 => rawDelta s 0 + s.w.pred.getD s.w.plane 0
  | i + 1 => rawDelta s (i + 1) + planeByte s i

/-- `sel(g)` of R102. -/
def selector (s : State) (g : Nat) : BitVec 2 := bits (2 * (g % 4)) 2 (s.srcByte (s.w.hcur + g / 4))

/-- The selectors latched so far are those of R102. -/
def selectorsOk (s : State) : Prop :=
  match s.pos with
  | .groupHeader => ∀ g, g < 4 * (s.w.dcur - s.w.hcur) → g < 16 → s.w.sel.getD g 0 = selector s g
  | .group => ∀ g, g < s.groups → s.w.sel.getD g 0 = selector s g
  | _ => True

/-- Symbols run one after another, each decoded at the varint position its number gives (R62). -/
def runVarintBytes : List Byte → Nat → State → Option State
  | [], _, s => some s
  | b :: r, j, s =>
    match decode (.vb (j == 4)) [b] with
    | .ok (i, _) =>
      match exec i s with
      | .next t => runVarintBytes r (j + 1) t
      | _ => none
    | .error _ => none

/-- The CFG registers, SRC and the parameters are those of `s` (R10, R27, R200). -/
def SameInputs (s t : State) : Prop :=
  t.cfgMode = s.cfgMode ∧ t.cfgFilter = s.cfgFilter ∧ t.cfgCount = s.cfgCount ∧ t.cfgElemsize = s.cfgElemsize ∧
  t.cfgSrclen = s.cfgSrclen ∧ t.src = s.src ∧ t.par = s.par ∧ t.host = s.host ∧ t.rdata = s.rdata

/-! ### START's tables -/

/-- The table of R176: the legal filters. -/
def FilterCase (s : State) : Prop :=
  s.cfgFilter = 0#2 ∨ (s.cfgFilter = 1#2 ∧ s.cfgMode = 0#2 ∧ (s.e = 4 ∨ s.e = 8)) ∨
    (s.cfgFilter = 2#2 ∧ s.cfgMode = 0#2 ∧ s.e = 8) ∨ (s.cfgFilter = 3#2 ∧ s.cfgMode = 0#2 ∧ s.e % 4 = 0)

/-- SRC `[0, L)` and DST `[0, N*E)` share a physical address (R223), from the bases of the parameters. -/
def SharedAddress (s : State) : Prop :=
  ∃ p, s.par.srcBase ≤ p ∧ p < s.par.srcBase + s.l ∧ s.par.dstBase ≤ p ∧ p < s.par.dstBase + s.n * s.e

/-! ### The host's view, and DST as the block leaves it -/

/-- The word that a read of host register `reg` returns, by the table of R10: CTRL reads as 0, FLAGS and STATUS as R11 and R12
say, every other register as its own bits with 0 above them. -/
def hostWord (s : State) : Nat → Word
  | 1 => BitVec.ofNat 32 (s.busy.toNat + 2 * s.done.toNat + 4 * s.cfgerr.toNat)
  | 2 => BitVec.ofInt 32 s.status.toInt
  | 3 => BitVec.ofNat 32 s.cfgMode.toNat
  | 4 => BitVec.ofNat 32 s.cfgFilter.toNat
  | 5 => s.cfgCount
  | 6 => BitVec.ofNat 32 s.cfgElemsize.toNat
  | 7 => s.cfgSrclen
  | 8 => BitVec.ofNat 32 s.filterOut.toNat
  | _ => 0

/-- `s` goes to `t` whatever DST holds: with contents `m` instead, `go` answers the same next state but for DST, and each
byte of DST is either left by both as each had it, or the same after both. -/
def BlindToDst (go : State → Res) (s t : State) (m : Mem) : Prop :=
  ∃ m', go { s with dst := m } = .next { t with dst := m' } ∧
    ∀ a, (t.dstByte a = s.dstByte a ∧ Mem.read .dst m' a = Mem.read .dst m a) ∨ t.dstByte a = Mem.read .dst m' a

end Sys2Proof.Claims

open Sys2Proof Sys2Proof.Machine Sys2Proof.Claims

/-! ## Encoding -/

/-- Decode and encode agree: every well-formed symbol at its position, with every operand (R61 to R70, R74). -/
def Obligations.DecodeOfEncodedSymbol : Prop :=
  ∀ (c : Ctx) (i : Instr) (rest : List Byte), i.wellFormed c = true → decode c (encode i ++ rest) = .ok (i, rest)

/-- No bit is dropped the other way round: what is decoded is well-formed at its position and encodes to the bytes it
was read from; of a selector's byte the two bits that are the selector. -/
def Obligations.EncodingOfDecodedSymbol : Prop :=
  (∀ (c : Ctx) (bs : List Byte) (i : Instr) (rest : List Byte), decode c bs = .ok (i, rest) →
    i.wellFormed c = true ∧ (c ≠ .sel → encode i ++ rest = bs)) ∧
  (∀ (b : Byte) (r rest : List Byte) (i : Instr), decode .sel (b :: r) = .ok (i, rest) →
    encode i = [b &&& 3#8] ∧ rest = r)

/-- A few words written out from the spec's encodings and what they stand for (R61, R62, R64, R65, R67, R68, R69, R76). -/
def Obligations.DecodingOfSampleWords : Prop :=
  decode .header [0xD1#8] = .ok (.hdrSeq 1#1, []) ∧
  decode (.ctri false) [0x1E#8] = .ok (.triEdgeInc 1#4, []) ∧
  decode (.ctri true) [0x1E#8] = .ok (.triEdgeFifo 1#4 14#4, []) ∧
  decode (.ctri false) [0xF3#8] = .ok (.triNewTable 3#4, []) ∧
  decode (.caux true) [0xF0#8] = .ok (.caux 15#4 0#4, []) ∧
  decode (.caux true) [0x00#8] = .ok (.cauxRestart, []) ∧
  decode .varint [0xE5#8, 0x8E#8, 0x26#8, 0x07#8] = .ok (.varint [0xE5#8, 0x8E#8, 0x26#8], [0x07#8]) ∧
  decode .ghdr [0xE4#8] = .ok (.ghdr 0#2 1#2 2#2 3#2, []) ∧
  decode .c2 [0x1B#8] = .ok (.c2 0#2 1#2 2#2 3#2, []) ∧
  decode .c4 [0x2F#8] = .ok (.c4 2#4 15#4, []) ∧
  decode .command [0x01#8, 0#8, 0#8, 0#8] = .ok (.start 0#31, [])

/-- R61: the legal header bytes are exactly 0xA0, 0xE0, 0xE1, 0xD0, 0xD1, each legal only under the matching CFG_MODE:
under any other byte or mode the call ends with BadHeader, once the length test of the mode has passed (R178: 1 byte, R179:
`1 + N div 3 + 16`, R180: `1 + N + 4`) (R191, R198). -/
def Obligations.HeaderByteIsChecked : Prop :=
  ∀ s : State, s.running → s.pos = .header →
    (if s.cfgMode = 1#2 then 1 + s.n / 3 + 16 else if s.cfgMode = 2#2 then 1 + s.n + 4 else 1) ≤ s.l →
    let legal := (s.cfgMode = 0#2 ∧ s.srcByte 0 = 0xA0#8) ∨
      (s.cfgMode = 1#2 ∧ (s.srcByte 0 = 0xE0#8 ∨ s.srcByte 0 = 0xE1#8)) ∨
      (s.cfgMode = 2#2 ∧ (s.srcByte 0 = 0xD0#8 ∨ s.srcByte 0 = 0xD1#8))
    (¬ legal → step s = .next (s.endCall .badHeader)) ∧
    (legal → ∃ i, decode .header [s.srcByte 0] = .ok (i, []) ∧ step s = exec i s ∧
      step s ≠ .next (s.endCall .badHeader))

/-- R71: the `codeTri` map, for every control byte, in both versions; and the only effect of the version. -/
def Obligations.ControlByteMap : Prop :=
  (∀ (v0 : Bool) (x : Nibble) (rest : List Byte), x ≠ 15#4 →
    decode (.ctri v0) ((x ++ 0#4) :: rest) = .ok (.triEdgeNext x, rest) ∧
    (∀ lo : Nibble, 1 ≤ lo.toNat → lo.toNat ≤ 12 →
      decode (.ctri v0) ((x ++ lo) :: rest) = .ok (.triEdgeFifo x lo, rest)) ∧
    decode (.ctri v0) ((x ++ 13#4) :: rest) = .ok (if v0 then .triEdgeFifo x 13#4 else .triEdgeDec x, rest) ∧
    decode (.ctri v0) ((x ++ 14#4) :: rest) = .ok (if v0 then .triEdgeFifo x 14#4 else .triEdgeInc x, rest) ∧
    decode (.ctri v0) ((x ++ 15#4) :: rest) = .ok (.triEdgeFree x, rest)) ∧
  (∀ (v0 : Bool) (j : Nibble) (rest : List Byte), j.toNat ≤ 13 →
    decode (.ctri v0) ((15#4 ++ j) :: rest) = .ok (.triNewTable j, rest)) ∧
  (∀ (v0 : Bool) (rest : List Byte),
    decode (.ctri v0) (0xFE#8 :: rest) = .ok (.triNewByte0, rest) ∧
    decode (.ctri v0) (0xFF#8 :: rest) = .ok (.triNewByte15, rest)) ∧
  (∀ (b : Byte) (rest : List Byte), decode (.ctri true) (b :: rest) ≠ decode (.ctri false) (b :: rest) ↔
    (bits 4 4 b).toNat < 15 ∧ (bits 0 4 b = 13#4 ∨ bits 0 4 b = 14#4))

/-- R72: besides the header byte there is no illegal symbol: at any other stream position bytes are refused only when
they end before the symbol does, and then there are fewer than five.  A reserved byte is never examined: whatever it
holds, nothing happens (log entry 16). -/
def Obligations.OnlyHeaderBytesCanBeIllegal : Prop :=
  (∀ (c : Ctx) (bs : List Byte) (err : DecodeError), c ≠ .header → c ≠ .command → decode c bs = .error err →
    err = .endOfBytes ∧ bs.length < 5 ∧ ∀ b ∈ bs, b.msb = true) ∧
  (∀ (b : Byte) (s : State), exec (.rsv b) s = .next s)

/-! ## The step -/

/-- A step of the block whose position is that of a symbol runs the decoded symbol; nothing is added around exec.  What one
step is, is the model's choice (log entry 8). -/
def Obligations.StepRunsDecodedSymbol : Prop :=
  ∀ (s : State) (c : Ctx) (bytes : List Byte) (i : Instr) (rest : List Byte),
    s.host = [] → due s = .symbol c bytes → decode c bytes = .ok (i, rest) → step s = exec i s

/-- `N`, `E`, `L` are CFG_COUNT, CFG_ELEMSIZE, CFG_SRCLEN (R42), and where the symbols stand in SRC (R42 to R44): the control
byte at CCUR, the sequence symbol at DCUR, the seed byte at `L - E + k`, the header byte of a run at DCUR, the latched selector
of the group: each is fetched there, decoded and executed once its lookahead test has passed.  What one step is, is the model's choice (log entry 8); that a control byte
is read by the version 0 map where FECMAX is 15 and by the version 1 map at every other FECMAX, where a call has only 15
and 13, is the model's reading (log entry 17); that the selector is latched and not read again is its reading too (log entry 9). -/
def Obligations.StepFetchesAtTheCursors : Prop :=
  ∀ s : State,
    (s.n = s.cfgCount.toNat ∧ s.e = s.cfgElemsize.toNat ∧ s.l = s.cfgSrclen.toNat) ∧
    (s.host = [] → s.pos = .triangles → s.w.ccur < 1 + s.n / 3 → s.w.dcur ≤ s.l - 16 → s.w.ccur < s.l →
      ∃ i, decode (.ctri (s.w.fecmax == 15#4)) [s.srcByte s.w.ccur] = .ok (i, []) ∧ step s = exec i s) ∧
    (s.host = [] → s.pos = .sequence → s.w.idx < s.n → s.w.dcur < s.l - 4 → ∀ v d, vbyte s s.w.dcur = some (v, d) →
      step s = exec (.seq (streamBytes s s.w.dcur d)) s) ∧
    (s.host = [] → s.pos = .seed → s.l - s.e + s.w.lane < s.l →
      step s = exec (.lit (s.srcByte (s.l - s.e + s.w.lane))) s) ∧
    (s.host = [] → s.pos = .groupHeader → s.w.dcur < s.l →
      ∃ s0 s1 s2 s3, s.srcByte s.w.dcur = s3 ++ s2 ++ s1 ++ s0 ∧ step s = exec (.ghdr s0 s1 s2 s3) s) ∧
    (s.host = [] → s.pos = .group → s.par.groupMargin ≤ s.l - s.w.dcur →
      let sel := s.w.sel.getD s.w.grp 0
      step s = exec (if sel = 0#2 then .grpW0 else if sel = 1#2 then .grpW2 else if sel = 2#2 then .grpW4 else .grpW8) s)

/-- R10, R76: a write to CTRL is START where bit 0 is set, whatever bits 31:1 hold, and nothing where it is not. -/
def Obligations.CtrlWriteIsStart : Prop :=
  ∀ (s : State) (v : Word) (rest : List HostMove), s.host = .writeReg 0 v :: rest →
    (bits 0 1 v = 1#1 → step s = exec (.start (bits 1 31 v)) { s with host := rest }) ∧
    (bits 0 1 v = 0#1 → step s = .next { s with host := rest })

/-- R29: hardware reset puts every register of R10 at its reset value; the working registers are unspecified; a decode in
progress is abandoned, DONE stays 0, and its DST is unspecified.  That an idle block's DST stays is the model's reading (log
entry 14). -/
def Obligations.HardwareResetOfRegisters : Prop :=
  ∀ (s : State) (rest : List HostMove), s.host = .reset :: rest →
    ∃ t, step s = .next t ∧ t.busy = false ∧ t.done = false ∧ t.cfgerr = false ∧ t.status = 0 ∧ t.cfgMode = 0 ∧
      t.cfgFilter = 0 ∧ t.cfgCount = 0 ∧ t.cfgElemsize = 0 ∧ t.cfgSrclen = 0 ∧ t.filterOut = 0 ∧ t.pos = .idle ∧
      t.w = Config.freeWork s.drops ∧ t.src = s.src ∧ t.host = rest ∧
      (s.busy = true → ∀ a, a < s.n * s.e → t.dstByte a = none) ∧ (s.busy = false → t.dst = s.dst)

/-- R10's reset column and R220: after reset every host register reads 0, an idle block does nothing until a START, and
a START before any CFG write is refused with CFGERR (element size 0 in Attributes mode is illegal, R172). -/
def Obligations.ResetBlockIsIdle : Prop :=
  (∀ reg, reg ≤ 8 → State.reset.regWord reg = some 0) ∧
  (∀ s : State, s.pos = .idle → s.host = [] → step s = .next s) ∧
  ∀ x, ∃ t, exec (.start x) State.reset = .next t ∧ t.cfgerr = true ∧ t.busy = false ∧ t.done = false ∧
    t.regWord 1 = some 4#32

/-- R10, R182, R52: while BUSY = 1 a START changes nothing, and neither does a write to CTRL or to a CFG register; that a write
to a read-only register (FLAGS, STATUS, FILTER_OUT) changes nothing is the model's choice (log entry 10); an access to SRC
or DST, for which the spec gives the host no move then (U3), is refused under its name: the model's choice (log entry 19). -/
def Obligations.HostWritesWhileBusy : Prop :=
  (∀ (x : BitVec 31) (s : State), s.busy = true → exec (.start x) s = .next s) ∧
  (∀ (s : State) (reg : Nat) (v : Word) (rest : List HostMove), s.busy = true → reg ≤ 8 →
    s.host = .writeReg reg v :: rest → step s = .next { s with host := rest }) ∧
  ∀ (s : State) (a : Nat) (b : Byte) (rest : List HostMove), s.busy = true →
    (s.host = .writeSrc a b :: rest ∨ s.host = .writeDst a b :: rest ∨ s.host = .readDst a :: rest) →
    step s = .refused .buffersTouchedWhileBusy

/-- R10: an idle block keeps the low bits of a CFG write, reads them back with the unused upper bits 0, and changes nothing
else; CTRL reads as 0. -/
def Obligations.CfgRegistersReadBack : Prop :=
  ∀ (s : State) (reg : Nat) (v : Word) (rest : List HostMove), s.busy = false → 3 ≤ reg → reg ≤ 7 →
    s.host = .writeReg reg v :: rest →
    ∃ t, step s = .next t ∧
      t.regWord reg = some (v &&& (if reg = 3 ∨ reg = 4 then 3#32 else if reg = 6 then 0x1FF#32 else 0xFFFFFFFF#32)) ∧
      (∀ r, r ≤ 8 → r ≠ reg → t.regWord r = s.regWord r) ∧ t.regWord 0 = some 0 ∧
      t = { s with
            host := rest, cfgMode := t.cfgMode, cfgFilter := t.cfgFilter, cfgCount := t.cfgCount
            cfgElemsize := t.cfgElemsize, cfgSrclen := t.cfgSrclen }

/-- R10, R11, R12, R176, R183: what the host reads from each of the nine registers: CTRL 0, FLAGS its three bits, STATUS
`sext_32(CODE)`, the CFG registers and FILTER_OUT their own bits, 0 above them; and a byte of DST.  A read changes nothing but
the word the host receives.  R222: while the block is idle, a byte that the host places in SRC or DST reads as placed there,
and no other byte and no other field changes.  The model's choices: a CFG register reads as its value also while BUSY = 1
(log entry 22); a byte of DST without a value reads as a free value (log entry 2); SRC and DST are reached at every offset
below 2^32 whatever the configuration, and an access beyond faults (log entry 13); a read arrives in `rdata`, a byte widened
with zeros (log entry 7). -/
def Obligations.HostAccesses : Prop :=
  ∀ (s : State) (rest : List HostMove),
    (∀ reg, reg ≤ 8 → s.regWord reg = some (hostWord s reg) ∧
      (s.host = .readReg reg :: rest → step s = .next { s with host := rest, rdata := hostWord s reg })) ∧
    (s.busy = false → ∀ a, a < 2 ^ 32 →
      (s.host = .readDst a :: rest → step s = .next { s with
        host := rest, rdata := BitVec.ofNat 32 ((s.dstByte a).getD (Config.freeDst s.dstGen a)).toNat }) ∧
      (∀ b, s.host = .writeSrc a b :: rest → Mem.wf .src s.src = true →
        ∃ t, step s = .next t ∧ (∀ x, t.srcByte x = if x = a then b else s.srcByte x) ∧
          t = { s with host := rest, src := t.src }) ∧
      (∀ b, s.host = .writeDst a b :: rest →
        ∃ t, step s = .next t ∧ (∀ x, t.dstByte x = if x = a then some b else s.dstByte x) ∧
          t = { s with host := rest, dst := t.dst })) ∧
    (s.busy = false → ∀ a b, 2 ^ 32 ≤ a →
      (s.host = .readDst a :: rest ∨ s.host = .writeSrc a b :: rest ∨ s.host = .writeDst a b :: rest) →
      step s = .fault .noSuchOffset)

/-! ## START -/

/-- R171 to R174: which configurations are legal. -/
def Obligations.ConfigurationLegality : Prop :=
  ∀ s : State, s.configLegal = true ↔
    s.cfgMode ≠ 3#2 ∧ s.n * s.e < 2 ^ 32 ∧
    (s.cfgMode = 0#2 → s.e % 4 = 0 ∧ 4 ≤ s.e ∧ s.e ≤ 256) ∧
    (s.cfgMode = 1#2 → s.n % 3 = 0 ∧ (s.e = 2 ∨ s.e = 4)) ∧
    (s.cfgMode = 2#2 → s.e = 2 ∨ s.e = 4)

/-- R170, R30, R176, R223: an accepted START with a filter of R176's table: BUSY rises, DONE and CFGERR fall, STATUS is 0,
FILTER_OUT latches the filter, the header is read next, nothing else changes; but where the two buffers share a physical
address the launch is refused, under its name.  That the working registers take their values of R30 only with the header byte is the model's reading
(log entry 21); the buffers' bases (log entry 1) and that the refusal of shared addresses comes before the filter test of
R176, whatever the filter (log entry 6), are the model's choices. -/
def Obligations.StartBeginsDecode : Prop :=
  ∀ (x : BitVec 31) (s : State), s.busy = false → s.configLegal = true →
    (¬ SharedAddress s → FilterCase s →
      exec (.start x) s = .next { s with
        busy := true, done := false, cfgerr := false, status := 0, filterOut := s.cfgFilter, pos := .header }) ∧
    (SharedAddress s → exec (.start x) s = .refused .buffersOverlap)

/-- R175: an illegal configuration is refused: CFGERR rises, DONE falls, nothing else changes, SRC is not read. -/
def Obligations.StartRefusesIllegalConfiguration : Prop :=
  ∀ (x : BitVec 31) (s : State), s.busy = false → s.configLegal = false →
    exec (.start x) s = .next { s with done := false, cfgerr := true }

/-- R176, R194: a filter outside the legal combinations ends the accepted call at once with BadFilter (STATUS 0xFC), FILTER_OUT
latched, whatever SRC holds; the call's DST, offsets below `N*E`, has no value then (R49, R200).  That the offsets at and above
`N*E` read as before is the model's reading (log entry 14). -/
def Obligations.StartWithIllegalFilter : Prop :=
  ∀ (x : BitVec 31) (s : State), s.busy = false → s.configLegal = true → ¬ SharedAddress s → ¬ FilterCase s →
    ∃ t, exec (.start x) s = .next t ∧ t.status = 0xFC#8 ∧ t.done = true ∧ t.busy = false ∧ t.cfgerr = false ∧
      t.filterOut = s.cfgFilter ∧ SameInputs s t ∧ (∀ a, a < s.n * s.e → t.dstByte a = none) ∧
      (∀ a, s.n * s.e ≤ a → t.dstByte a = s.dstByte a)

/-! ## Headers -/

/-- R178, R160: HDR.ATTR in its mode: VER 0, cursors at the start, the seed is read next; a stream without room for the tail
ends with Truncated. -/
def Obligations.HdrAttrBeginsDecode : Prop :=
  ∀ s : State, s.cfgMode = 0#2 →
    (max 32 s.e ≤ s.l - 1 → exec .hdrAttr s = .next { s with
      pos := .seed, w := { s.w with ver := 0#4, dcur := 1, idx := 0, blk := 0, lane := 0 } }) ∧
    (s.l - 1 < max 32 s.e → exec .hdrAttr s = .next (s.endCall .truncated))

/-- R121: the initial state of a triangle decode, for version 0 and 1. -/
def Obligations.HdrTriBeginsDecode : Prop :=
  ∀ (v : BitVec 1) (s : State), s.cfgMode = 1#2 →
    ∃ t, exec (.hdrTri v) s = .next t ∧ t.pos = .triangles ∧ t.w.ccur = 1 ∧ t.w.dcur = 1 + s.n / 3 ∧ t.w.idx = 0 ∧
      t.w.next = 0 ∧ t.w.last = 0 ∧ t.w.eoff = 0 ∧ t.w.voff = 0 ∧
      (∀ i, slot16 t.w.efA i = s.par.fifoInit ∧ slot16 t.w.efB i = s.par.fifoInit ∧
        slot16 t.w.vf i = s.par.fifoInit) ∧
      t.w.ver.toNat = v.toNat ∧ t.w.fecmax = (if v = 0#1 then 15#4 else 13#4) ∧
      t = { s with
            pos := .triangles
            w := { s.w with
              ver := t.w.ver, fecmax := t.w.fecmax, ccur := 1, dcur := t.w.dcur, idx := 0, next := 0, last := 0
              eoff := 0, voff := 0, efA := t.w.efA, efB := t.w.efB, vf := t.w.vf } }

/-- R151: the initial state of an index-sequence decode; the version is latched. -/
def Obligations.HdrSeqBeginsDecode : Prop :=
  ∀ (v : BitVec 1) (s : State), s.cfgMode = 2#2 →
    ∃ t, exec (.hdrSeq v) s = .next t ∧ (∀ i, slot2 t.w.seqlast i = 0) ∧ t.w.ver.toNat = v.toNat ∧
      t = { s with
            pos := .sequence
            w := { s.w with ver := t.w.ver, dcur := 1, idx := 0, seqlast := t.w.seqlast } }

/-! ## Varints and zigzag -/

/-- R62, R90, R91: the effect of each varint byte: DCUR passes it, its group enters the result at seven times its number;
of the fifth byte only bits 3:0, at bits 31:28; the varint goes on after VB.CONT only. -/
def Obligations.VarintByteEffects : Prop :=
  ∀ (s : State),
    let before := if s.w.vcnt = 0 then 0 else s.w.vres
    (∀ g : BitVec 7, exec (.vbLast g) s = .next { s with w := { s.w with
      dcur := s.w.dcur + 1, vcnt := 0, vres := before ||| (g.setWidth 32 <<< (7 * s.w.vcnt)) } }) ∧
    (∀ g : BitVec 7, exec (.vbCont g) s = .next { s with w := { s.w with
      dcur := s.w.dcur + 1, vcnt := s.w.vcnt + 1, vres := before ||| (g.setWidth 32 <<< (7 * s.w.vcnt)) } }) ∧
    (∀ (x g : BitVec 4), exec (.vbFifth x g) s = .next { s with w := { s.w with
      dcur := s.w.dcur + 1, vcnt := 0, vres := before ||| (g.setWidth 32 <<< 28) } })

/-- R90: VARINT on the bytes that stand at DCUR: the value of the pseudocode's loop, DCUR after its last byte, and nothing
else changed; those bytes are what is split off the stream there, and none are where the stream ends first. -/
def Obligations.VarintValueAndLength : Prop :=
  ∀ s : State,
    (∀ v d, vbyte s s.w.dcur = some (v, d) →
      let bs := streamBytes s s.w.dcur d
      d = s.w.dcur + bs.length ∧ (∃ rest, splitVarint 4 (s.window s.w.dcur 5) = some (bs, rest)) ∧
      exec (.varint bs) s = .next { s with w := { s.w with dcur := d, vres := v, vcnt := 0 } }) ∧
    (vbyte s s.w.dcur = none → splitVarint 4 (s.window s.w.dcur 5) = none)

/-- The byte symbols run one after another give what VARINT gives (R60: a varint is its bytes). -/
def Obligations.VarintIsItsBytes : Prop :=
  ∀ (s : State) (bs : List Byte), s.w.vcnt = 0 → (Instr.varint bs).wellFormed .varint = true →
    ∃ t, runVarintBytes bs 0 s = some t ∧ exec (.varint bs) s = .next t

/-- R91: the varint never reads a sixth byte, whatever the bytes hold, and five bytes always hold one. -/
def Obligations.VarintReadsAtMostFiveBytes : Prop :=
  (∀ (bs v rest : List Byte), splitVarint 4 bs = some (v, rest) → 1 ≤ v.length ∧ v.length ≤ 5 ∧ v ++ rest = bs) ∧
  (∀ bs : List Byte, 5 ≤ bs.length → ∃ v rest, splitVarint 4 bs = some (v, rest) ∧
    ∀ other : List Byte, splitVarint 4 (bs.take 5 ++ other) = some (v, (bs.take 5).drop v.length ++ other))

/-- R93: Unzigzag32 is the formula of R93, a bijection of the 32-bit values, `v >> 1` for even `v` and `-(v >> 1) - 1` for
odd `v`. -/
def Obligations.ZigzagIsBijective : Prop :=
  Function.Bijective unzigzag32 ∧
  (∀ v : Word, unzigzag32 v = (v >>> 1) ^^^ (0 - (v &&& 1))) ∧
  ∀ v : Word, (unzigzag32 v).toInt = if v.toNat % 2 = 0 then ((v.toNat / 2 : Nat) : Int) else - ((v.toNat / 2 : Nat) : Int) - 1

/-- R94: FREE on the bytes at DCUR: LAST moves by the signed delta, DCUR passes the bytes, nothing else changes but the
varint's own registers. -/
def Obligations.FreeIndexUpdatesLast : Prop :=
  ∀ (s : State) (v : Word) (d : Nat), vbyte s s.w.dcur = some (v, d) →
    exec (.free (streamBytes s s.w.dcur d)) s = .next { s with w := { s.w with
      dcur := d, vres := v, vcnt := 0, last := s.w.last + ((v >>> 1) ^^^ (0 - (v &&& 1))) } }

/-! ## Index sequences -/

/-- R152: SEQ on the bytes at DCUR: the slot that bit 0 of the value selects moves by the zigzag of `v >> 1`, which has 30
magnitude bits at most, the other slot stays, the index is written to element IDX narrowed to `E` bytes, IDX advances by 1. -/
def Obligations.SeqSymbolWritesIndex : Prop :=
  ∀ (s : State) (v : Word) (d : Nat), vbyte s s.w.dcur = some (v, d) → (s.w.idx + 1) * s.e ≤ s.n * s.e →
    let slot := bits 0 1 v
    let x := slot2 s.w.seqlast slot + unzigzag32 (v >>> 1)
    (-(2 ^ 30) ≤ (unzigzag32 (v >>> 1)).toInt ∧ (unzigzag32 (v >>> 1)).toInt < 2 ^ 30) ∧
    ∃ t, exec (.seq (streamBytes s s.w.dcur d)) s = .next t ∧ Written s t [x] ∧
      slot2 t.w.seqlast slot = x ∧ (∀ o, o ≠ slot → slot2 t.w.seqlast o = slot2 s.w.seqlast o) ∧
      t = { s with
            dst := t.dst
            w := { s.w with dcur := d, vres := v, vcnt := 0, seqlast := t.w.seqlast, idx := s.w.idx + 1 } }

/-! ## Triangles -/

/-- R126: fec = 0, the third vertex is NEXT, which is then incremented, and it is pushed; fec from 1 on, the third vertex is
a VertexFifo slot, written or not (R141), and no vertex is pushed.  LAST and DCUR stay. -/
def Obligations.TriEdgeNextAndFifoTriangle : Prop :=
  ∀ (fe : Nibble) (s : State), RoomForTriangle s →
    (∃ t, exec (.triEdgeNext fe) s = .next t ∧ EdgeDone s t fe s.w.next false ∧
      t.w.next = s.w.next + 1#32 ∧ t.w.last = s.w.last ∧ t.w.dcur = s.w.dcur ∧
      t.w.vres = s.w.vres ∧ t.w.vcnt = s.w.vcnt) ∧
    (∀ fec : Nibble, ∃ t, exec (.triEdgeFifo fe fec) s = .next t ∧
      EdgeDone s t fe (slot16 s.w.vf (s.w.voff - 1#4 - fec)) true ∧
      t.w.next = s.w.next ∧ t.w.last = s.w.last ∧ t.w.dcur = s.w.dcur ∧
      t.w.vres = s.w.vres ∧ t.w.vcnt = s.w.vcnt)

/-- R127: fec 13 and 14 of version 1: the third vertex is LAST - 1 or LAST + 1 modulo 2^32, and LAST becomes it. -/
def Obligations.TriEdgeDecIncTriangle : Prop :=
  ∀ (fe : Nibble) (s : State), RoomForTriangle s →
    (∃ t, exec (.triEdgeDec fe) s = .next t ∧ EdgeDone s t fe (s.w.last - 1#32) false ∧
      t.w.last = s.w.last - 1#32 ∧ t.w.next = s.w.next ∧ t.w.dcur = s.w.dcur ∧
      t.w.vres = s.w.vres ∧ t.w.vcnt = s.w.vcnt) ∧
    (∃ t, exec (.triEdgeInc fe) s = .next t ∧ EdgeDone s t fe (s.w.last + 1#32) false ∧
      t.w.last = s.w.last + 1#32 ∧ t.w.next = s.w.next ∧ t.w.dcur = s.w.dcur ∧
      t.w.vres = s.w.vres ∧ t.w.vcnt = s.w.vcnt)

/-- R128: fec = 15: the third vertex is the free index at DCUR; a varint that runs past the stream is Truncated. -/
def Obligations.TriEdgeFreeTriangle : Prop :=
  ∀ (fe : Nibble) (s : State),
    (∀ v d, vbyte s s.w.dcur = some (v, d) → RoomForTriangle s →
      ∃ t, exec (.triEdgeFree fe) s = .next t ∧ EdgeDone s t fe (s.w.last + unzigzag32 v) false ∧
        t.w.last = s.w.last + unzigzag32 v ∧ t.w.next = s.w.next ∧ t.w.dcur = d) ∧
    (vbyte s s.w.dcur = none → exec (.triEdgeFree fe) s = .next (s.endCall .truncated))

/-- R130, R131, R133, R135: the new triangle whose codeAux is table entry `j`: `fea` = 0, no payload byte for the codeAux, no
restart on 0.  A table nibble 15 is a free index read from the payload: R131's corner case, which the spec decides in D24 and
cautions about in U7, which asks a claim for the premise that no such entry is reached; this one has no such premise
(log entry 15). -/
def Obligations.TriNewTableTriangle : Prop :=
  ∀ (j : Nibble) (s : State), s.l - 16 + j.toNat < s.l →
    let aux := s.srcByte (s.l - 16 + j.toNat)
    NewTriangle s 0#4 (bits 4 4 aux) (bits 0 4 aux) ⟨s.w.next, s.w.last, s.w.dcur⟩ (exec (.triNewTable j) s)
      (fun t => t.w.ccur = s.w.ccur + 1)

/-- R132, R133, R135, R136, R137: the new triangles whose codeAux is the next payload byte, with `fea` = 0 for 0xFE and 15
for 0xFF; a byte 0x00 sets NEXT to 0 before any vertex takes a value; past the end of the stream, Truncated. -/
def Obligations.TriNewByteTriangle : Prop :=
  ∀ s : State,
    (s.w.dcur < s.l →
      let aux := s.srcByte s.w.dcur
      let p : Pass := ⟨if aux = 0#8 then 0#32 else s.w.next, s.w.last, s.w.dcur + 1⟩
      NewTriangle s 0#4 (bits 4 4 aux) (bits 0 4 aux) p (exec .triNewByte0 s)
        (fun t => t.w.ccur = s.w.ccur + 1) ∧
      NewTriangle s 15#4 (bits 4 4 aux) (bits 0 4 aux) p (exec .triNewByte15 s)
        (fun t => t.w.ccur = s.w.ccur + 1)) ∧
    (s.l ≤ s.w.dcur → exec .triNewByte0 s = .next (s.endCall .truncated) ∧
      exec .triNewByte15 s = .next (s.endCall .truncated))

/-- R133, R135: CAUX with `fea` as the control byte left it: the two phases equal a single pass over a, b, c; a codeAux byte
of the payload is passed, a table entry costs no payload; CCUR, the codeAux registers stay.  That the two registers stand in the
state, and that a hit code of `a` (which R134 excludes) skips its push, is the model's choice (log entry 11); a nibble 15 is a
free index on the table path too (R131, D24, log entry 15). -/
def Obligations.CauxResolvesInOnePass : Prop :=
  ∀ (feb fec : Nibble) (s : State),
    NewTriangle s s.w.fea feb fec ⟨s.w.next, s.w.last, s.w.dcur + s.w.auxPay.toNat⟩ (exec (.caux feb fec) s)
      (fun t => t.w.ccur = s.w.ccur ∧ t.w.fea = s.w.fea ∧ t.w.auxPay = s.w.auxPay)

/-- R132: CAUX.RESTART: NEXT is 0 before any vertex takes a value, LAST is not touched by the restart; then as a codeAux
byte with feb = fec = 0.  `fea` is the one that stands in the state, at every value: that it stands there, and that a hit code
of `a` (which R134 excludes) skips its push, is the model's choice (log entry 11). -/
def Obligations.RestartResetsNext : Prop :=
  ∀ s : State,
    NewTriangle s s.w.fea 0#4 0#4 ⟨0#32, s.w.last, s.w.dcur + 1⟩ (exec .cauxRestart s)
      (fun t => t.w.ccur = s.w.ccur ∧ t.w.fea = s.w.fea ∧ t.w.auxPay = s.w.auxPay) ∧
    (s.w.fea = 0#4 → RoomForTriangle s → ∃ t, exec .cauxRestart s = .next t ∧ Written s t [0#32, 1#32, 2#32] ∧
      t.w.next = 3#32 ∧ t.w.last = s.w.last)

/-- The control bytes 0xFE and 0xFF run the codeAux symbol that stands at DCUR (R65, R132), 0xF0 to 0xFD that of the table.
That `fea` and the place of the byte stand in the state is the model's choice (log entry 11). -/
def Obligations.NewTriangleRunsItsCodeAux : Prop :=
  ∀ (s : State) (j : Nibble),
    (s.w.dcur < s.l →
      let aux := s.srcByte s.w.dcur
      let symbol : Instr := if aux = 0#8 then .cauxRestart else .caux (bits 4 4 aux) (bits 0 4 aux)
      exec .triNewByte0 s = exec symbol { s with w := { s.w with ccur := s.w.ccur + 1, fea := 0#4, auxPay := true } } ∧
      exec .triNewByte15 s = exec symbol { s with w := { s.w with ccur := s.w.ccur + 1, fea := 15#4, auxPay := true } }) ∧
    (s.l - 16 + j.toNat < s.l →
      let aux := s.srcByte (s.l - 16 + j.toNat)
      exec (.triNewTable j) s = exec (.caux (bits 4 4 aux) (bits 0 4 aux))
        { s with w := { s.w with ccur := s.w.ccur + 1, fea := 0#4, auxPay := false } })

/-- R97: a triangle consumes at most 16 payload bytes and exactly one control byte, whichever control byte it is. -/
def Obligations.TriangleReadsAtMostSixteenBytes : Prop :=
  ∀ (v0 : Bool) (i : Instr) (s t : State), i.wellFormed (.ctri v0) = true → s.busy = true → exec i s = .next t →
    t.busy = true → t.w.ccur = s.w.ccur + 1 ∧ s.w.dcur ≤ t.w.dcur ∧ t.w.dcur ≤ s.w.dcur + 16

/-! ## Byte groups -/

/-- R67, R101, R102: GHDR latches the selectors of groups 4h to 4h + 3, `h` its number in the run's header; DCUR passes it;
after the last header byte the groups begin.  That the selectors are latched is the model's choice (log entry 9). -/
def Obligations.GhdrLatchesSelectors : Prop :=
  ∀ (s0 s1 s2 s3 : BitVec 2) (s : State),
    ∃ t, exec (.ghdr s0 s1 s2 s3) s = .next t ∧
      (∀ g, g < 16 → t.w.sel.getD g 0 =
        if g / 4 = s.w.dcur - s.w.hcur then
          (if g % 4 = 0 then s0 else if g % 4 = 1 then s1 else if g % 4 = 2 then s2 else s3)
        else s.w.sel.getD g 0) ∧
      (s.w.dcur - s.w.hcur + 1 < s.headers →
        t = { s with w := { s.w with sel := t.w.sel, dcur := s.w.dcur + 1 } }) ∧
      (s.headers ≤ s.w.dcur - s.w.hcur + 1 →
        t = { s with pos := .group, w := { s.w with sel := t.w.sel, dcur := s.w.dcur + 1, grp := 0 } })

/-- R102: at every group, the latched selectors are those of the run's header bytes: every step of a run keeps it.  That
they are latched is the model's reading (log entry 9). -/
def Obligations.SelectorsAreTheHeaderBytes : Prop :=
  ∀ s t : State, s.Inv → s.callOk → s.running → selectorsOk s → step s = .next t → selectorsOk t

/-- R106, R107: a width-0 group is sixteen zero bytes and consumes no stream byte; a width-8 group is sixteen stream bytes
verbatim, and where they are not there, Truncated (R46). -/
def Obligations.GroupsW0AndW8 : Prop :=
  ∀ s : State,
    (s.w.grp < 16 → ∃ t, exec .grpW0 s = .next t ∧ GroupDone s t (fun _ => 0#8) 0) ∧
    (s.w.grp < 16 → s.w.dcur + 16 ≤ s.l →
      ∃ t, exec .grpW8 s = .next t ∧ GroupDone s t (fun i => s.srcByte (s.w.dcur + i)) 16) ∧
    (s.l < s.w.dcur + 16 → exec .grpW8 s = .next (s.endCall .truncated))

/-- R109, R110, R111, R113: a width-2 and a width-4 group, lane by lane, and the `4 + e` and `8 + e` bytes they occupy; where
those bytes are not all there, Truncated (R46). -/
def Obligations.GroupsW2AndW4 : Prop :=
  ∀ s : State,
    let len2 := 4 + countBefore (sentinel2 s) 16
    let len4 := 8 + countBefore (sentinel4 s) 16
    (s.w.grp < 16 → s.w.dcur + len2 ≤ s.l → ∃ t, exec .grpW2 s = .next t ∧ GroupDone s t (lane2 s) len2) ∧
    (s.l < s.w.dcur + len2 → exec .grpW2 s = .next (s.endCall .truncated)) ∧
    (s.w.grp < 16 → s.w.dcur + len4 ≤ s.l → ∃ t, exec .grpW4 s = .next t ∧ GroupDone s t (lane4 s) len4) ∧
    (s.l < s.w.dcur + len4 → exec .grpW4 s = .next (s.endCall .truncated))

/-- R68, R69: a control byte C2 fills the next four lanes and C4 the next two, first code first; a sentinel takes the next
extension byte, any other code its own value; where an extension byte is not there, Truncated (R46). -/
def Obligations.ControlByteLanes : Prop :=
  ∀ s : State,
    (∀ c0 c1 c2 c3 : BitVec 2,
      CodesTaken s (exec (.c2 c0 c1 c2 c3) s) [(c0.setWidth 8, c0 == 3#2), (c1.setWidth 8, c1 == 3#2),
        (c2.setWidth 8, c2 == 3#2), (c3.setWidth 8, c3 == 3#2)]) ∧
    (∀ c0 c1 : Nibble,
      CodesTaken s (exec (.c4 c0 c1) s) [(c0.setWidth 8, c0 == 15#4), (c1.setWidth 8, c1 == 15#4)])

/-- R107, R109, R110, R160: LIT is taken verbatim: in a group by the next lane, in the trailer by PRED[k]; after the last of
the `E` seed bytes the block loop begins.  That a literal byte at every position but the seed goes to the next lane, at those
too where no group is read, is the model's choice (log entry 11). -/
def Obligations.LiteralByteIsTakenVerbatim : Prop :=
  ∀ (b : Byte) (s : State),
    (s.pos ≠ .seed → 16 * s.w.grp + s.w.lane < 256 → ∃ t, exec (.lit b) s = .next t ∧
      (∀ j, t.w.raw.getD j 0 = if j = 16 * s.w.grp + s.w.lane then b else s.w.raw.getD j 0) ∧
      t = { s with w := { s.w with raw := t.w.raw, lane := s.w.lane + 1, ext := s.w.ext + 1 } }) ∧
    (s.pos = .seed → s.w.lane < 256 → ∃ t, exec (.lit b) s = .next t ∧
      (∀ k, t.w.pred.getD k 0 = if k = s.w.lane then b else s.w.pred.getD k 0) ∧
      t = { s with
            pos := if s.w.lane + 1 < s.e then .seed else .blockTop
            w := { s.w with pred := t.w.pred, lane := s.w.lane + 1 } })

/-! ## The vertex decoder between symbols -/

/-- R161: `blockSize` is the largest multiple of 16 not exceeding `min(8192/E, 256)`, and a block fits TRANS.  The block at
BLK has `bc = min(blockSize, N - BLK)` vertices (R161), its runs `G = ceil(bc/16)` groups (R100, R162) and `H = ceil(G/4)`
header bytes (R101). -/
def Obligations.BlockSizeFitsScratch : Prop :=
  (∀ e : Nat, e % 4 = 0 → 4 ≤ e → e ≤ 256 →
    blockSize e % 16 = 0 ∧ 16 ≤ blockSize e ∧ blockSize e ≤ min (8192 / e) 256 ∧
    min (8192 / e) 256 < blockSize e + 16 ∧ blockSize e * e ≤ 8192) ∧
  ∀ s : State,
    s.bc = min (blockSize s.e) (s.n - s.w.blk) ∧ s.groups = (s.bc + 15) / 16 ∧ s.headers = (s.groups + 3) / 4

/-- R162: the reconstruction of a plane: TRANS[i*E + k] receives the running sum of the deltas of R95, every other byte of TRANS
stays, PRED is not rewritten, the next plane or the end of the block comes.  R104, R108: the run of a plane, where its `H`
header bytes remain, begins with HCUR at DCUR; the header bytes are read next, nothing else changes. -/
def Obligations.PlaneReconstruction : Prop :=
  (∀ s : State, s.Inv → s.callOk → s.running → s.pos = .planeEnd →
    ∃ t, step s = .next t ∧
      (∀ i, i < s.bc → t.w.trans.getD (i * s.e + s.w.plane) 0 = planeByte s i) ∧
      (∀ j, (∀ i, i < s.bc → j ≠ i * s.e + s.w.plane) → t.w.trans.getD j 0 = s.w.trans.getD j 0) ∧
      t = { s with
            pos := if s.w.plane + 1 < s.e then .runTop else .blockEnd
            w := { s.w with trans := t.w.trans, plane := s.w.plane + 1 } }) ∧
  ∀ s : State, s.host = [] → s.pos = .runTop → (s.groups + 3) / 4 ≤ s.l - s.w.dcur →
    step s = .next { s with pos := .groupHeader, w := { s.w with hcur := s.w.dcur } }

/-- R163, R165: while BLK < N a block begins at plane 0, nothing else changing.  The end of a block: its vertices are copied to
DST, every other byte of DST stays, PRED becomes the block's last vertex, IDX and BLK pass the block. -/
def Obligations.BlockIsCopiedToDst : Prop :=
  (∀ s : State, s.host = [] → s.pos = .blockTop → s.w.blk < s.n →
    step s = .next { s with pos := .runTop, w := { s.w with plane := 0 } }) ∧
  ∀ s : State, s.Inv → s.callOk → s.running → s.pos = .blockEnd →
    ∃ t, step s = .next t ∧
      (∀ x, t.dstByte x = if s.w.blk * s.e ≤ x ∧ x < (s.w.blk + s.bc) * s.e
        then some (s.w.trans.getD (x - s.w.blk * s.e) 0) else s.dstByte x) ∧
      (∀ k, t.w.pred.getD k 0 = if k < s.e then s.w.trans.getD ((s.bc - 1) * s.e + k) 0 else s.w.pred.getD k 0) ∧
      t = { s with
            pos := .blockTop, dst := t.dst
            w := { s.w with pred := t.w.pred, idx := s.w.idx + s.bc, blk := s.w.blk + s.bc } }

/-! ## Statuses -/

/-- The lookahead tests (R104, R105, R120, R122, R150, R153, and of R178 the one-byte test): each, where it fails, ends the call
with Truncated before the symbol is read. -/
def Obligations.LookaheadTestsTruncate : Prop :=
  ∀ s : State, s.host = [] →
    (s.pos = .header → s.cfgMode = 0#2 → s.l < 1 → step s = .next (s.endCall .truncated)) ∧
    (s.pos = .header → s.cfgMode = 1#2 → s.l < 1 + s.n / 3 + 16 → step s = .next (s.endCall .truncated)) ∧
    (s.pos = .header → s.cfgMode = 2#2 → s.l < 1 + s.n + 4 → step s = .next (s.endCall .truncated)) ∧
    (s.pos = .triangles → s.w.ccur < 1 + s.n / 3 → s.l - 16 < s.w.dcur → step s = .next (s.endCall .truncated)) ∧
    (s.pos = .sequence → s.w.idx < s.n → s.l - 4 ≤ s.w.dcur → step s = .next (s.endCall .truncated)) ∧
    (s.pos = .runTop → s.l - s.w.dcur < (s.groups + 3) / 4 → step s = .next (s.endCall .truncated)) ∧
    (s.pos = .group → s.l - s.w.dcur < s.par.groupMargin → step s = .next (s.endCall .truncated))

/-- The final cursor tests (R139, R154, R164): after the last element the call ends with Ok exactly where the data cursor
stands at the trailer, otherwise with TrailingMismatch. -/
def Obligations.FinalCursorTests : Prop :=
  ∀ s : State, s.host = [] →
    (s.pos = .triangles → 1 + s.n / 3 ≤ s.w.ccur →
      step s = .next (s.endCall (if s.w.dcur = s.l - 16 then .ok else .trailingMismatch))) ∧
    (s.pos = .sequence → s.n ≤ s.w.idx →
      step s = .next (s.endCall (if s.w.dcur = s.l - 4 then .ok else .trailingMismatch))) ∧
    (s.pos = .blockTop → s.n ≤ s.w.blk →
      step s = .next (s.endCall (if s.l - s.w.dcur = max 32 s.e then .ok else .trailingMismatch)))

/-- R181, R200, R49: what the end of a call leaves: the code (R12), BUSY 0, DONE 1, CFGERR and the CFG registers as they were;
after Ok all of DST, after any other status no byte of the call's DST has a value.  That bytes outside `[0, N*E)` stay is the
model's reading (log entry 14). -/
def Obligations.EndOfCallEffects : Prop :=
  ∀ (st : Status) (s : State), let t := s.endCall st
    t.status = (match st with
      | .ok => 0x00#8 | .badHeader => 0xFF#8 | .truncated => 0xFE#8 | .trailingMismatch => 0xFD#8
      | .badFilter => 0xFC#8) ∧
    t.busy = false ∧ t.done = true ∧ t.cfgerr = s.cfgerr ∧ t.filterOut = s.filterOut ∧ t.pos = .idle ∧
    t.w = Config.freeWork s.drops ∧ SameInputs s t ∧
    (st = .ok → t.dst = s.dst) ∧
    (st ≠ .ok → (∀ a, a < s.n * s.e → t.dstByte a = none) ∧ ∀ a, s.n * s.e ≤ a → t.dstByte a = s.dstByte a)

/-- R181, R200: every call that a step ends is ended by that one operation, with one of the five codes (R12): whichever symbol
the step ran, nothing else of it is left. -/
def Obligations.EveryCallEndsByOneOperation : Prop :=
  ∀ s t : State, s.Inv → s.callOk → s.running → step s = .next t → t.busy = false →
    ∃ st, t = s.endCall st

/-! ## The whole machine -/

/-- R27, R40: no instruction and no step of the block changes SRC, a CFG register or a parameter. -/
def Obligations.InputsAreNeverWritten : Prop :=
  (∀ (i : Instr) (s t : State), exec i s = .next t → SameInputs s t) ∧
  (∀ s t : State, s.host = [] → step s = .next t → SameInputs s t)

/-- R47: no instruction and no step of the block changes a byte of DST at or above `N*E`.  That it keeps its value also through
the end of a call with a status other than Ok, after which R49 leaves "all of DST" unspecified, is the model's reading (log
entry 14). -/
def Obligations.WritesStayInsideDst : Prop :=
  (∀ (i : Instr) (s t : State), exec i s = .next t → ∀ a, s.n * s.e ≤ a → t.dstByte a = s.dstByte a) ∧
  (∀ s t : State, s.host = [] → step s = .next t → ∀ a, s.n * s.e ≤ a → t.dstByte a = s.dstByte a)

/-- R27: the block never reads DST: with another DST every instruction and every step of the block answers the same next
state but for DST, and each byte of DST is either left as it was in both or the same after both: no byte that is written is
taken from DST. -/
def Obligations.DstIsNeverRead : Prop :=
  (∀ (i : Instr) (s t : State) (m : Mem), exec i s = .next t → BlindToDst (exec i) s t m) ∧
  (∀ (s t : State) (m : Mem), s.host = [] → step s = .next t → BlindToDst step s t m)

/-- R11, R12, R40: the invariant of the registers and memories holds at reset. -/
def Obligations.InvariantAtReset : Prop := State.reset.Inv ∧ State.reset.callOk

/-- R11, R12, R40: every step of the machine, of the host or of the block, keeps the flags exclusive, STATUS one of its codes
and 0 while BUSY, both memories canonical and inside their spaces, and the configuration of a running call legal. -/
def Obligations.EveryStepKeepsInvariant : Prop :=
  ∀ s t : State, s.Inv → step s = .next t → t.Inv

/-- R14 to R16, R204: every step of the machine keeps the ranges of the cursors and counters of a call, DCUR at most
CFG_SRCLEN among them, whatever GROUP_MARGIN is. -/
def Obligations.EveryStepKeepsCursorRanges : Prop :=
  ∀ s t : State, s.Inv → s.callOk → step s = .next t → t.callOk

/-- R228: a running call always takes a step, never a fault or a refusal, and every step brings its end nearer.
What one step is, is the model's choice (log entry 8). -/
def Obligations.RunningCallMakesProgress : Prop :=
  ∀ s : State, s.Inv → s.callOk → s.running → ∃ t, step s = .next t ∧ t.stepsLeft < s.stepsLeft

/-- R183, R228: every accepted START reaches DONE, within the steps that the configuration bounds.  What one
step is, is the model's choice (log entry 8). -/
def Obligations.EveryDecodeEnds : Prop :=
  ∀ s : State, s.Inv → s.callOk → s.running →
    ∃ k t, k ≤ s.stepsLeft ∧ Sys2Proof.core.run k s = .next t ∧ t.busy = false ∧ t.done = true

/-- R204: with GROUP_MARGIN at least 24, no MemRead of a symbol is at or beyond CFG_SRCLEN: once the lookahead test of its
position has passed, every symbol is there and its execution does not end the call. -/
def Obligations.NoReadPassesTheStream : Prop :=
  ∀ (s : State) (c : Ctx) (bytes : List Byte), s.Inv → s.callOk → s.running → 24 ≤ s.par.groupMargin →
    due s = .symbol c bytes → c ≠ .header →
    ∃ i rest t, decode c bytes = .ok (i, rest) ∧ exec i s = .next t ∧ t.busy = true

/-- R49: a decode that ends with status Ok has written every byte of DST: every element produced stands in DST, every step
keeps that, and at the end all `N*E` bytes have a value. -/
def Obligations.OkDecodeCoversDst : Prop :=
  ∀ s t : State, s.Inv → s.callOk → s.running → s.produced → step s = .next t →
    t.produced ∧ (t.busy = false → t.status = 0#8 → ∀ a, a < s.n * s.e → (t.dstByte a).isSome = true)
end

