-- ==== Sys2Proof/Laws/Memory.lean ====
section
/-! SUPPORT. The laws of memory: what a read finds after a write, and that every memory operation keeps the canonical
form. -/

namespace Sys2Proof.Machine

/-! ### The listed bytes -/

/-- Every address of the memory is at or above `k`. -/
def Mem.above (k : Nat) (m : Mem) : Prop := ∀ c ∈ m, k ≤ c.1

theorem Mem.rising_cons (c : Host.Cell) (m : Mem) :
    Mem.rising (c :: m) = true ↔ Mem.above (c.1 + 1) m ∧ Mem.rising m = true := by
  induction m generalizing c with
  | nil => simp [Mem.rising, Mem.above]
  | cons d r ih =>
    constructor
    · intro h
      simp only [Mem.rising, Bool.and_eq_true, decide_eq_true_eq] at h
      refine ⟨?_, h.2⟩
      have hd := (ih d).1 h.2
      intro x hx
      rcases List.mem_cons.1 hx with rfl | hx
      · omega
      · have := hd.1 x hx; omega
    · intro h
      simp only [Mem.rising, Bool.and_eq_true, decide_eq_true_eq]
      have := h.1 d (by simp)
      exact ⟨by omega, h.2⟩

theorem Mem.lookup_none_of_above {k a : Nat} {m : Mem} (h : Mem.above k m) (ha : a < k) :
    Mem.lookup m a = none := by
  induction m with
  | nil => rfl
  | cons c r ih =>
    have hc := h c (by simp)
    have : c.1 ≠ a := by omega
    simp [Mem.lookup, this, ih (fun x hx => h x (by simp [hx]))]

theorem Mem.lookup_insert (m : Mem) (a x : Nat) (b : Byte) :
    Mem.lookup (Mem.insert m a b) x = if a = x then some b else Mem.lookup m x := by
  induction m with
  | nil => simp [Mem.insert, Mem.lookup]
  | cons c r ih =>
    unfold Mem.insert
    split
    · simp [Mem.lookup]
    · split
      · rename_i hlt heq
        by_cases hax : a = x <;> simp [Mem.lookup, heq, hax]
      · rename_i hlt hne
        simp only [Mem.lookup, ih]
        by_cases hax : a = x
        · subst hax; simp [hne]
        · simp [hax]

theorem Mem.lookup_erase (m : Mem) (a x : Nat) (h : Mem.rising m = true) :
    Mem.lookup (Mem.erase m a) x = if a = x then none else Mem.lookup m x := by
  induction m with
  | nil => simp [Mem.erase, Mem.lookup]
  | cons c r ih =>
    obtain ⟨habove, hr⟩ := (Mem.rising_cons c r).1 h
    unfold Mem.erase
    split
    · rename_i heq
      by_cases hax : a = x
      · subst hax; simp [Mem.lookup_none_of_above habove (by omega : a < c.1 + 1)]
      · simp [hax, Mem.lookup, heq]
    · rename_i hne
      simp only [Mem.lookup, ih hr]
      by_cases hax : a = x
      · subst hax; simp [hne]
      · simp [hax]

/-! ### Rising order -/

theorem Mem.above_insert {k a : Nat} {m : Mem} {b : Byte} (h : Mem.above k m) (ha : k ≤ a) :
    Mem.above k (Mem.insert m a b) := by
  induction m with
  | nil => intro c hc; simp [Mem.insert] at hc; subst hc; exact ha
  | cons d r ih =>
    have hd := h d (by simp)
    have hr : Mem.above k r := fun x hx => h x (by simp [hx])
    unfold Mem.insert
    split
    · intro c hc
      rcases List.mem_cons.1 hc with rfl | hc
      · exact ha
      · exact h c hc
    · split
      · intro c hc
        rcases List.mem_cons.1 hc with rfl | hc
        · exact ha
        · exact hr c hc
      · intro c hc
        rcases List.mem_cons.1 hc with rfl | hc
        · exact hd
        · exact ih hr c hc

theorem Mem.erase_subset {a : Nat} {m : Mem} : ∀ c ∈ Mem.erase m a, c ∈ m := by
  induction m with
  | nil => intro c hc; simp [Mem.erase] at hc
  | cons d r ih =>
    intro c hc
    unfold Mem.erase at hc
    split at hc
    · exact List.mem_cons_of_mem _ hc
    · rcases List.mem_cons.1 hc with rfl | hc
      · simp
      · exact List.mem_cons_of_mem _ (ih c hc)

theorem Mem.insert_subset {a : Nat} {b : Byte} {m : Mem} : ∀ c ∈ Mem.insert m a b, c = (a, b) ∨ c ∈ m := by
  induction m with
  | nil => intro c hc; simpa [Mem.insert] using hc
  | cons d r ih =>
    intro c hc
    unfold Mem.insert at hc
    split at hc
    · simpa using hc
    · split at hc
      · rcases List.mem_cons.1 hc with rfl | hc
        · exact .inl rfl
        · exact .inr (List.mem_cons_of_mem _ hc)
      · rcases List.mem_cons.1 hc with rfl | hc
        · simp
        · rcases ih c hc with h | h
          · exact .inl h
          · exact .inr (List.mem_cons_of_mem _ h)

theorem Mem.rising_insert (m : Mem) (a : Nat) (b : Byte) (h : Mem.rising m = true) :
    Mem.rising (Mem.insert m a b) = true := by
  induction m with
  | nil => rfl
  | cons c r ih =>
    obtain ⟨habove, hr⟩ := (Mem.rising_cons c r).1 h
    unfold Mem.insert
    split
    · rename_i hlt
      refine (Mem.rising_cons _ _).2 ⟨?_, h⟩
      intro x hx
      rcases List.mem_cons.1 hx with rfl | hx
      · show a + 1 ≤ x.1; omega
      · have := habove x hx; show a + 1 ≤ x.1; omega
    · split
      · rename_i heq
        refine (Mem.rising_cons _ _).2 ⟨?_, hr⟩
        intro x hx; have := habove x hx; show a + 1 ≤ x.1; omega
      · exact (Mem.rising_cons _ _).2 ⟨Mem.above_insert habove (by omega), ih hr⟩

theorem Mem.rising_erase (m : Mem) (a : Nat) (h : Mem.rising m = true) : Mem.rising (Mem.erase m a) = true := by
  induction m with
  | nil => rfl
  | cons c r ih =>
    obtain ⟨habove, hr⟩ := (Mem.rising_cons c r).1 h
    unfold Mem.erase
    split
    · exact hr
    · exact (Mem.rising_cons _ _).2 ⟨fun x hx => habove x (Mem.erase_subset x hx), ih hr⟩

theorem Mem.rising_filter (m : Mem) (p : Host.Cell → Bool) (h : Mem.rising m = true) :
    Mem.rising (m.filter p) = true := by
  induction m with
  | nil => rfl
  | cons c r ih =>
    obtain ⟨habove, hr⟩ := (Mem.rising_cons c r).1 h
    simp only [List.filter_cons]
    split
    · exact (Mem.rising_cons _ _).2 ⟨fun x hx => habove x (List.mem_filter.1 hx).1, ih hr⟩
    · exact ih hr

/-! ### The canonical form -/

theorem Mem.wf_iff (sp : Space) (m : Mem) :
    Mem.wf sp m = true ↔ Mem.rising m = true ∧ ∀ c ∈ m, sp.unlisted ≠ some c.2 := by
  simp [Mem.wf]

theorem Mem.wf_write (sp : Space) (m : Mem) (a : Nat) (b : Byte) (h : Mem.wf sp m = true) :
    Mem.wf sp (Mem.write sp m a b) = true := by
  obtain ⟨hr, hv⟩ := (Mem.wf_iff sp m).1 h
  unfold Mem.write
  split
  · exact (Mem.wf_iff _ _).2 ⟨Mem.rising_erase m a hr, fun c hc => hv c (Mem.erase_subset c hc)⟩
  · rename_i hne
    refine (Mem.wf_iff _ _).2 ⟨Mem.rising_insert m a b hr, fun c hc => ?_⟩
    rcases Mem.insert_subset c hc with rfl | hc
    · exact hne
    · exact hv c hc

theorem Mem.wf_writeBytes (sp : Space) (m : Mem) (a : Nat) (bs : List Byte) (h : Mem.wf sp m = true) :
    Mem.wf sp (Mem.writeBytes sp m a bs) = true := by
  induction bs generalizing m a with
  | nil => exact h
  | cons b r ih => exact ih _ _ (Mem.wf_write sp m a b h)

theorem Mem.wf_dropBelow (sp : Space) (m : Mem) (k : Nat) (h : Mem.wf sp m = true) :
    Mem.wf sp (Mem.dropBelow m k) = true := by
  obtain ⟨hr, hv⟩ := (Mem.wf_iff sp m).1 h
  exact (Mem.wf_iff _ _).2 ⟨Mem.rising_filter m _ hr, fun c hc => hv c (List.mem_filter.1 hc).1⟩

theorem Mem.wf_nil (sp : Space) : Mem.wf sp [] = true := rfl

/-- The memories of the reset state have the canonical form. -/
theorem State.reset_mem_wf : Mem.wf .src State.reset.src = true ∧ Mem.wf .dst State.reset.dst = true := ⟨rfl, rfl⟩

/-! ### Reads after writes -/

/-- A read of DST after a write: the byte written there, what was there elsewhere. -/
theorem Mem.read_write_dst (m : Mem) (a x : Nat) (b : Byte) :
    Mem.read .dst (Mem.write .dst m a b) x = if a = x then some b else Mem.read .dst m x := by
  simp only [Mem.read, Mem.write, Space.unlisted, reduceCtorEq, if_false, Mem.lookup_insert]
  by_cases hax : a = x <;> simp [hax]

/-- A read after a write to a memory in canonical form. -/
theorem Mem.read_write (sp : Space) (m : Mem) (a x : Nat) (b : Byte) (h : Mem.wf sp m = true) :
    Mem.read sp (Mem.write sp m a b) x = if a = x then some b else Mem.read sp m x := by
  obtain ⟨hr, -⟩ := (Mem.wf_iff sp m).1 h
  unfold Mem.write
  split
  · rename_i hu
    simp only [Mem.read, Mem.lookup_erase m a x hr]
    by_cases hax : a = x <;> simp [hax, hu]
  · simp only [Mem.read, Mem.lookup_insert m a x b]
    by_cases hax : a = x <;> simp [hax]

/-- A read of DST after a run of bytes was written. -/
theorem Mem.read_writeBytes_dst (m : Mem) (a x : Nat) (bs : List Byte) :
    Mem.read .dst (Mem.writeBytes .dst m a bs) x =
      if a ≤ x ∧ x < a + bs.length then bs[x - a]? else Mem.read .dst m x := by
  induction bs generalizing m a with
  | nil =>
    rw [if_neg (by simp)]
    rfl
  | cons b r ih =>
    simp only [Mem.writeBytes]
    rw [ih, Mem.read_write_dst]
    by_cases h1 : a = x
    · subst h1; simp
    · by_cases h2 : a + 1 ≤ x ∧ x < a + 1 + r.length
      · have h3 : a ≤ x ∧ x < a + (b :: r).length := by simp; omega
        obtain ⟨k, hk⟩ : ∃ k, x - a = k + 1 := ⟨x - a - 1, by omega⟩
        have hk' : x - (a + 1) = k := by omega
        rw [if_pos h2, if_pos h3, hk, hk', List.getElem?_cons_succ]
      · have h3 : ¬ (a ≤ x ∧ x < a + (b :: r).length) := by simp; omega
        rw [if_neg h2, if_neg h3, if_neg h1]

/-- After the cells below `k` are dropped, no byte of DST below `k` has a value. -/
theorem Mem.read_dropBelow_dst (m : Mem) (k x : Nat) :
    Mem.read .dst (Mem.dropBelow m k) x = if x < k then none else Mem.read .dst m x := by
  induction m with
  | nil => simp [Mem.dropBelow, Mem.read, Mem.lookup, Space.unlisted]
  | cons c r ih =>
    simp only [Mem.read, Mem.dropBelow, Space.unlisted] at ih ⊢
    by_cases hk : k ≤ c.1
    · rw [List.filter_cons_of_pos (by simpa using hk)]
      by_cases hx : c.1 = x
      · have : ¬ x < k := by omega
        simp [Mem.lookup, hx, this]
      · simpa [Mem.lookup, hx] using ih
    · rw [List.filter_cons_of_neg (by simpa using hk), ih]
      by_cases hx : c.1 = x
      · have : x < k := by omega
        simp [this]
      · simp [Mem.lookup, hx]

end Sys2Proof.Machine
end

