-- ==== Sys2Proof/Laws/State.lean ====
section
/-! SUPPORT. One lemma per field per update, so that no later proof unfolds a record update. -/

namespace Sys2Proof.Machine

/-! ### `State.withW` -/

@[simp] theorem State.withW_busy (s : State) (w : Work) : (State.withW s w).busy = s.busy := rfl
@[simp] theorem State.withW_done (s : State) (w : Work) : (State.withW s w).done = s.done := rfl
@[simp] theorem State.withW_cfgerr (s : State) (w : Work) : (State.withW s w).cfgerr = s.cfgerr := rfl
@[simp] theorem State.withW_status (s : State) (w : Work) : (State.withW s w).status = s.status := rfl
@[simp] theorem State.withW_cfgMode (s : State) (w : Work) : (State.withW s w).cfgMode = s.cfgMode := rfl
@[simp] theorem State.withW_cfgFilter (s : State) (w : Work) : (State.withW s w).cfgFilter = s.cfgFilter := rfl
@[simp] theorem State.withW_cfgCount (s : State) (w : Work) : (State.withW s w).cfgCount = s.cfgCount := rfl
@[simp] theorem State.withW_cfgElemsize (s : State) (w : Work) : (State.withW s w).cfgElemsize = s.cfgElemsize := rfl
@[simp] theorem State.withW_cfgSrclen (s : State) (w : Work) : (State.withW s w).cfgSrclen = s.cfgSrclen := rfl
@[simp] theorem State.withW_filterOut (s : State) (w : Work) : (State.withW s w).filterOut = s.filterOut := rfl
@[simp] theorem State.withW_pos (s : State) (w : Work) : (State.withW s w).pos = s.pos := rfl
@[simp] theorem State.withW_w (s : State) (w : Work) : (State.withW s w).w = w := rfl
@[simp] theorem State.withW_src (s : State) (w : Work) : (State.withW s w).src = s.src := rfl
@[simp] theorem State.withW_dst (s : State) (w : Work) : (State.withW s w).dst = s.dst := rfl
@[simp] theorem State.withW_par (s : State) (w : Work) : (State.withW s w).par = s.par := rfl
@[simp] theorem State.withW_host (s : State) (w : Work) : (State.withW s w).host = s.host := rfl
@[simp] theorem State.withW_rdata (s : State) (w : Work) : (State.withW s w).rdata = s.rdata := rfl
@[simp] theorem State.withW_dstGen (s : State) (w : Work) : (State.withW s w).dstGen = s.dstGen := rfl
@[simp] theorem State.withW_drops (s : State) (w : Work) : (State.withW s w).drops = s.drops := rfl

/-! ### `State.endCall` -/

@[simp] theorem State.endCall_busy (st : Status) (s : State) : (State.endCall st s).busy = false := rfl
@[simp] theorem State.endCall_done (st : Status) (s : State) : (State.endCall st s).done = true := rfl
@[simp] theorem State.endCall_cfgerr (st : Status) (s : State) : (State.endCall st s).cfgerr = s.cfgerr := rfl
@[simp] theorem State.endCall_status (st : Status) (s : State) : (State.endCall st s).status = st.code := rfl
@[simp] theorem State.endCall_cfgMode (st : Status) (s : State) : (State.endCall st s).cfgMode = s.cfgMode := rfl
@[simp] theorem State.endCall_cfgFilter (st : Status) (s : State) : (State.endCall st s).cfgFilter = s.cfgFilter := rfl
@[simp] theorem State.endCall_cfgCount (st : Status) (s : State) : (State.endCall st s).cfgCount = s.cfgCount := rfl
@[simp] theorem State.endCall_cfgElemsize (st : Status) (s : State) : (State.endCall st s).cfgElemsize = s.cfgElemsize := rfl
@[simp] theorem State.endCall_cfgSrclen (st : Status) (s : State) : (State.endCall st s).cfgSrclen = s.cfgSrclen := rfl
@[simp] theorem State.endCall_filterOut (st : Status) (s : State) : (State.endCall st s).filterOut = s.filterOut := rfl
@[simp] theorem State.endCall_pos (st : Status) (s : State) : (State.endCall st s).pos = .idle := rfl
@[simp] theorem State.endCall_w (st : Status) (s : State) : (State.endCall st s).w = Config.freeWork s.drops := rfl
@[simp] theorem State.endCall_src (st : Status) (s : State) : (State.endCall st s).src = s.src := rfl
@[simp] theorem State.endCall_dst (st : Status) (s : State) : (State.endCall st s).dst = if st = .ok then s.dst else Mem.dropBelow s.dst (s.n * s.e) := rfl
@[simp] theorem State.endCall_par (st : Status) (s : State) : (State.endCall st s).par = s.par := rfl
@[simp] theorem State.endCall_host (st : Status) (s : State) : (State.endCall st s).host = s.host := rfl
@[simp] theorem State.endCall_rdata (st : Status) (s : State) : (State.endCall st s).rdata = s.rdata := rfl
@[simp] theorem State.endCall_dstGen (st : Status) (s : State) : (State.endCall st s).dstGen = if st = .ok then s.dstGen else s.dstGen + 1 := rfl
@[simp] theorem State.endCall_drops (st : Status) (s : State) : (State.endCall st s).drops = s.drops + 1 := rfl

/-! ### `State.accept` -/

@[simp] theorem State.accept_busy (s : State) : (State.accept s).busy = true := rfl
@[simp] theorem State.accept_done (s : State) : (State.accept s).done = false := rfl
@[simp] theorem State.accept_cfgerr (s : State) : (State.accept s).cfgerr = false := rfl
@[simp] theorem State.accept_status (s : State) : (State.accept s).status = 0 := rfl
@[simp] theorem State.accept_cfgMode (s : State) : (State.accept s).cfgMode = s.cfgMode := rfl
@[simp] theorem State.accept_cfgFilter (s : State) : (State.accept s).cfgFilter = s.cfgFilter := rfl
@[simp] theorem State.accept_cfgCount (s : State) : (State.accept s).cfgCount = s.cfgCount := rfl
@[simp] theorem State.accept_cfgElemsize (s : State) : (State.accept s).cfgElemsize = s.cfgElemsize := rfl
@[simp] theorem State.accept_cfgSrclen (s : State) : (State.accept s).cfgSrclen = s.cfgSrclen := rfl
@[simp] theorem State.accept_filterOut (s : State) : (State.accept s).filterOut = s.cfgFilter := rfl
@[simp] theorem State.accept_pos (s : State) : (State.accept s).pos = .header := rfl
@[simp] theorem State.accept_w (s : State) : (State.accept s).w = s.w := rfl
@[simp] theorem State.accept_src (s : State) : (State.accept s).src = s.src := rfl
@[simp] theorem State.accept_dst (s : State) : (State.accept s).dst = s.dst := rfl
@[simp] theorem State.accept_par (s : State) : (State.accept s).par = s.par := rfl
@[simp] theorem State.accept_host (s : State) : (State.accept s).host = s.host := rfl
@[simp] theorem State.accept_rdata (s : State) : (State.accept s).rdata = s.rdata := rfl
@[simp] theorem State.accept_dstGen (s : State) : (State.accept s).dstGen = s.dstGen := rfl
@[simp] theorem State.accept_drops (s : State) : (State.accept s).drops = s.drops := rfl

/-! ### `State.refuseConfig` -/

@[simp] theorem State.refuseConfig_busy (s : State) : (State.refuseConfig s).busy = s.busy := rfl
@[simp] theorem State.refuseConfig_done (s : State) : (State.refuseConfig s).done = false := rfl
@[simp] theorem State.refuseConfig_cfgerr (s : State) : (State.refuseConfig s).cfgerr = true := rfl
@[simp] theorem State.refuseConfig_status (s : State) : (State.refuseConfig s).status = s.status := rfl
@[simp] theorem State.refuseConfig_cfgMode (s : State) : (State.refuseConfig s).cfgMode = s.cfgMode := rfl
@[simp] theorem State.refuseConfig_cfgFilter (s : State) : (State.refuseConfig s).cfgFilter = s.cfgFilter := rfl
@[simp] theorem State.refuseConfig_cfgCount (s : State) : (State.refuseConfig s).cfgCount = s.cfgCount := rfl
@[simp] theorem State.refuseConfig_cfgElemsize (s : State) : (State.refuseConfig s).cfgElemsize = s.cfgElemsize := rfl
@[simp] theorem State.refuseConfig_cfgSrclen (s : State) : (State.refuseConfig s).cfgSrclen = s.cfgSrclen := rfl
@[simp] theorem State.refuseConfig_filterOut (s : State) : (State.refuseConfig s).filterOut = s.filterOut := rfl
@[simp] theorem State.refuseConfig_pos (s : State) : (State.refuseConfig s).pos = s.pos := rfl
@[simp] theorem State.refuseConfig_w (s : State) : (State.refuseConfig s).w = s.w := rfl
@[simp] theorem State.refuseConfig_src (s : State) : (State.refuseConfig s).src = s.src := rfl
@[simp] theorem State.refuseConfig_dst (s : State) : (State.refuseConfig s).dst = s.dst := rfl
@[simp] theorem State.refuseConfig_par (s : State) : (State.refuseConfig s).par = s.par := rfl
@[simp] theorem State.refuseConfig_host (s : State) : (State.refuseConfig s).host = s.host := rfl
@[simp] theorem State.refuseConfig_rdata (s : State) : (State.refuseConfig s).rdata = s.rdata := rfl
@[simp] theorem State.refuseConfig_dstGen (s : State) : (State.refuseConfig s).dstGen = s.dstGen := rfl
@[simp] theorem State.refuseConfig_drops (s : State) : (State.refuseConfig s).drops = s.drops := rfl

/-! ### `Work.pushVertex` -/

@[simp] theorem Work.pushVertex_dcur (v : Word) (w : Work) : (Work.pushVertex v w).dcur = w.dcur := rfl
@[simp] theorem Work.pushVertex_ccur (v : Word) (w : Work) : (Work.pushVertex v w).ccur = w.ccur := rfl
@[simp] theorem Work.pushVertex_idx (v : Word) (w : Work) : (Work.pushVertex v w).idx = w.idx := rfl
@[simp] theorem Work.pushVertex_ver (v : Word) (w : Work) : (Work.pushVertex v w).ver = w.ver := rfl
@[simp] theorem Work.pushVertex_fecmax (v : Word) (w : Work) : (Work.pushVertex v w).fecmax = w.fecmax := rfl
@[simp] theorem Work.pushVertex_next (v : Word) (w : Work) : (Work.pushVertex v w).next = w.next := rfl
@[simp] theorem Work.pushVertex_last (v : Word) (w : Work) : (Work.pushVertex v w).last = w.last := rfl
@[simp] theorem Work.pushVertex_eoff (v : Word) (w : Work) : (Work.pushVertex v w).eoff = w.eoff := rfl
@[simp] theorem Work.pushVertex_voff (v : Word) (w : Work) : (Work.pushVertex v w).voff = w.voff + 1#4 := rfl
@[simp] theorem Work.pushVertex_hcur (v : Word) (w : Work) : (Work.pushVertex v w).hcur = w.hcur := rfl
@[simp] theorem Work.pushVertex_blk (v : Word) (w : Work) : (Work.pushVertex v w).blk = w.blk := rfl
@[simp] theorem Work.pushVertex_plane (v : Word) (w : Work) : (Work.pushVertex v w).plane = w.plane := rfl
@[simp] theorem Work.pushVertex_grp (v : Word) (w : Work) : (Work.pushVertex v w).grp = w.grp := rfl
@[simp] theorem Work.pushVertex_efA (v : Word) (w : Work) : (Work.pushVertex v w).efA = w.efA := rfl
@[simp] theorem Work.pushVertex_efB (v : Word) (w : Work) : (Work.pushVertex v w).efB = w.efB := rfl
@[simp] theorem Work.pushVertex_vf (v : Word) (w : Work) : (Work.pushVertex v w).vf = setSlot16 w.vf w.voff v := rfl
@[simp] theorem Work.pushVertex_seqlast (v : Word) (w : Work) : (Work.pushVertex v w).seqlast = w.seqlast := rfl
@[simp] theorem Work.pushVertex_pred (v : Word) (w : Work) : (Work.pushVertex v w).pred = w.pred := rfl
@[simp] theorem Work.pushVertex_raw (v : Word) (w : Work) : (Work.pushVertex v w).raw = w.raw := rfl
@[simp] theorem Work.pushVertex_trans (v : Word) (w : Work) : (Work.pushVertex v w).trans = w.trans := rfl
@[simp] theorem Work.pushVertex_sel (v : Word) (w : Work) : (Work.pushVertex v w).sel = w.sel := rfl
@[simp] theorem Work.pushVertex_lane (v : Word) (w : Work) : (Work.pushVertex v w).lane = w.lane := rfl
@[simp] theorem Work.pushVertex_ext (v : Word) (w : Work) : (Work.pushVertex v w).ext = w.ext := rfl
@[simp] theorem Work.pushVertex_fea (v : Word) (w : Work) : (Work.pushVertex v w).fea = w.fea := rfl
@[simp] theorem Work.pushVertex_auxPay (v : Word) (w : Work) : (Work.pushVertex v w).auxPay = w.auxPay := rfl
@[simp] theorem Work.pushVertex_vres (v : Word) (w : Work) : (Work.pushVertex v w).vres = w.vres := rfl
@[simp] theorem Work.pushVertex_vcnt (v : Word) (w : Work) : (Work.pushVertex v w).vcnt = w.vcnt := rfl

/-! ### `Work.pushEdge` -/

@[simp] theorem Work.pushEdge_dcur (x y : Word) (w : Work) : (Work.pushEdge x y w).dcur = w.dcur := rfl
@[simp] theorem Work.pushEdge_ccur (x y : Word) (w : Work) : (Work.pushEdge x y w).ccur = w.ccur := rfl
@[simp] theorem Work.pushEdge_idx (x y : Word) (w : Work) : (Work.pushEdge x y w).idx = w.idx := rfl
@[simp] theorem Work.pushEdge_ver (x y : Word) (w : Work) : (Work.pushEdge x y w).ver = w.ver := rfl
@[simp] theorem Work.pushEdge_fecmax (x y : Word) (w : Work) : (Work.pushEdge x y w).fecmax = w.fecmax := rfl
@[simp] theorem Work.pushEdge_next (x y : Word) (w : Work) : (Work.pushEdge x y w).next = w.next := rfl
@[simp] theorem Work.pushEdge_last (x y : Word) (w : Work) : (Work.pushEdge x y w).last = w.last := rfl
@[simp] theorem Work.pushEdge_eoff (x y : Word) (w : Work) : (Work.pushEdge x y w).eoff = w.eoff + 1#4 := rfl
@[simp] theorem Work.pushEdge_voff (x y : Word) (w : Work) : (Work.pushEdge x y w).voff = w.voff := rfl
@[simp] theorem Work.pushEdge_hcur (x y : Word) (w : Work) : (Work.pushEdge x y w).hcur = w.hcur := rfl
@[simp] theorem Work.pushEdge_blk (x y : Word) (w : Work) : (Work.pushEdge x y w).blk = w.blk := rfl
@[simp] theorem Work.pushEdge_plane (x y : Word) (w : Work) : (Work.pushEdge x y w).plane = w.plane := rfl
@[simp] theorem Work.pushEdge_grp (x y : Word) (w : Work) : (Work.pushEdge x y w).grp = w.grp := rfl
@[simp] theorem Work.pushEdge_efA (x y : Word) (w : Work) : (Work.pushEdge x y w).efA = setSlot16 w.efA w.eoff x := rfl
@[simp] theorem Work.pushEdge_efB (x y : Word) (w : Work) : (Work.pushEdge x y w).efB = setSlot16 w.efB w.eoff y := rfl
@[simp] theorem Work.pushEdge_vf (x y : Word) (w : Work) : (Work.pushEdge x y w).vf = w.vf := rfl
@[simp] theorem Work.pushEdge_seqlast (x y : Word) (w : Work) : (Work.pushEdge x y w).seqlast = w.seqlast := rfl
@[simp] theorem Work.pushEdge_pred (x y : Word) (w : Work) : (Work.pushEdge x y w).pred = w.pred := rfl
@[simp] theorem Work.pushEdge_raw (x y : Word) (w : Work) : (Work.pushEdge x y w).raw = w.raw := rfl
@[simp] theorem Work.pushEdge_trans (x y : Word) (w : Work) : (Work.pushEdge x y w).trans = w.trans := rfl
@[simp] theorem Work.pushEdge_sel (x y : Word) (w : Work) : (Work.pushEdge x y w).sel = w.sel := rfl
@[simp] theorem Work.pushEdge_lane (x y : Word) (w : Work) : (Work.pushEdge x y w).lane = w.lane := rfl
@[simp] theorem Work.pushEdge_ext (x y : Word) (w : Work) : (Work.pushEdge x y w).ext = w.ext := rfl
@[simp] theorem Work.pushEdge_fea (x y : Word) (w : Work) : (Work.pushEdge x y w).fea = w.fea := rfl
@[simp] theorem Work.pushEdge_auxPay (x y : Word) (w : Work) : (Work.pushEdge x y w).auxPay = w.auxPay := rfl
@[simp] theorem Work.pushEdge_vres (x y : Word) (w : Work) : (Work.pushEdge x y w).vres = w.vres := rfl
@[simp] theorem Work.pushEdge_vcnt (x y : Word) (w : Work) : (Work.pushEdge x y w).vcnt = w.vcnt := rfl
/-! ### `Work.passControl` -/

@[simp] theorem Work.passControl_dcur (w : Work) : (Work.passControl w).dcur = w.dcur := rfl
@[simp] theorem Work.passControl_ccur (w : Work) : (Work.passControl w).ccur = w.ccur + 1 := rfl
@[simp] theorem Work.passControl_idx (w : Work) : (Work.passControl w).idx = w.idx := rfl
@[simp] theorem Work.passControl_ver (w : Work) : (Work.passControl w).ver = w.ver := rfl
@[simp] theorem Work.passControl_fecmax (w : Work) : (Work.passControl w).fecmax = w.fecmax := rfl
@[simp] theorem Work.passControl_next (w : Work) : (Work.passControl w).next = w.next := rfl
@[simp] theorem Work.passControl_last (w : Work) : (Work.passControl w).last = w.last := rfl
@[simp] theorem Work.passControl_eoff (w : Work) : (Work.passControl w).eoff = w.eoff := rfl
@[simp] theorem Work.passControl_voff (w : Work) : (Work.passControl w).voff = w.voff := rfl
@[simp] theorem Work.passControl_hcur (w : Work) : (Work.passControl w).hcur = w.hcur := rfl
@[simp] theorem Work.passControl_blk (w : Work) : (Work.passControl w).blk = w.blk := rfl
@[simp] theorem Work.passControl_plane (w : Work) : (Work.passControl w).plane = w.plane := rfl
@[simp] theorem Work.passControl_grp (w : Work) : (Work.passControl w).grp = w.grp := rfl
@[simp] theorem Work.passControl_efA (w : Work) : (Work.passControl w).efA = w.efA := rfl
@[simp] theorem Work.passControl_efB (w : Work) : (Work.passControl w).efB = w.efB := rfl
@[simp] theorem Work.passControl_vf (w : Work) : (Work.passControl w).vf = w.vf := rfl
@[simp] theorem Work.passControl_seqlast (w : Work) : (Work.passControl w).seqlast = w.seqlast := rfl
@[simp] theorem Work.passControl_pred (w : Work) : (Work.passControl w).pred = w.pred := rfl
@[simp] theorem Work.passControl_raw (w : Work) : (Work.passControl w).raw = w.raw := rfl
@[simp] theorem Work.passControl_trans (w : Work) : (Work.passControl w).trans = w.trans := rfl
@[simp] theorem Work.passControl_sel (w : Work) : (Work.passControl w).sel = w.sel := rfl
@[simp] theorem Work.passControl_lane (w : Work) : (Work.passControl w).lane = w.lane := rfl
@[simp] theorem Work.passControl_ext (w : Work) : (Work.passControl w).ext = w.ext := rfl
@[simp] theorem Work.passControl_fea (w : Work) : (Work.passControl w).fea = w.fea := rfl
@[simp] theorem Work.passControl_auxPay (w : Work) : (Work.passControl w).auxPay = w.auxPay := rfl
@[simp] theorem Work.passControl_vres (w : Work) : (Work.passControl w).vres = w.vres := rfl
@[simp] theorem Work.passControl_vcnt (w : Work) : (Work.passControl w).vcnt = w.vcnt := rfl

/-! ### `Work.vbGroup` -/

@[simp] theorem Work.vbGroup_dcur (g : Word) (sh : Nat) (e : Bool) (w : Work) : (Work.vbGroup g sh e w).dcur = w.dcur + 1 := rfl
@[simp] theorem Work.vbGroup_ccur (g : Word) (sh : Nat) (e : Bool) (w : Work) : (Work.vbGroup g sh e w).ccur = w.ccur := rfl
@[simp] theorem Work.vbGroup_idx (g : Word) (sh : Nat) (e : Bool) (w : Work) : (Work.vbGroup g sh e w).idx = w.idx := rfl
@[simp] theorem Work.vbGroup_ver (g : Word) (sh : Nat) (e : Bool) (w : Work) : (Work.vbGroup g sh e w).ver = w.ver := rfl
@[simp] theorem Work.vbGroup_fecmax (g : Word) (sh : Nat) (e : Bool) (w : Work) : (Work.vbGroup g sh e w).fecmax = w.fecmax := rfl
@[simp] theorem Work.vbGroup_next (g : Word) (sh : Nat) (e : Bool) (w : Work) : (Work.vbGroup g sh e w).next = w.next := rfl
@[simp] theorem Work.vbGroup_last (g : Word) (sh : Nat) (e : Bool) (w : Work) : (Work.vbGroup g sh e w).last = w.last := rfl
@[simp] theorem Work.vbGroup_eoff (g : Word) (sh : Nat) (e : Bool) (w : Work) : (Work.vbGroup g sh e w).eoff = w.eoff := rfl
@[simp] theorem Work.vbGroup_voff (g : Word) (sh : Nat) (e : Bool) (w : Work) : (Work.vbGroup g sh e w).voff = w.voff := rfl
@[simp] theorem Work.vbGroup_hcur (g : Word) (sh : Nat) (e : Bool) (w : Work) : (Work.vbGroup g sh e w).hcur = w.hcur := rfl
@[simp] theorem Work.vbGroup_blk (g : Word) (sh : Nat) (e : Bool) (w : Work) : (Work.vbGroup g sh e w).blk = w.blk := rfl
@[simp] theorem Work.vbGroup_plane (g : Word) (sh : Nat) (e : Bool) (w : Work) : (Work.vbGroup g sh e w).plane = w.plane := rfl
@[simp] theorem Work.vbGroup_grp (g : Word) (sh : Nat) (e : Bool) (w : Work) : (Work.vbGroup g sh e w).grp = w.grp := rfl
@[simp] theorem Work.vbGroup_efA (g : Word) (sh : Nat) (e : Bool) (w : Work) : (Work.vbGroup g sh e w).efA = w.efA := rfl
@[simp] theorem Work.vbGroup_efB (g : Word) (sh : Nat) (e : Bool) (w : Work) : (Work.vbGroup g sh e w).efB = w.efB := rfl
@[simp] theorem Work.vbGroup_vf (g : Word) (sh : Nat) (e : Bool) (w : Work) : (Work.vbGroup g sh e w).vf = w.vf := rfl
@[simp] theorem Work.vbGroup_seqlast (g : Word) (sh : Nat) (e : Bool) (w : Work) : (Work.vbGroup g sh e w).seqlast = w.seqlast := rfl
@[simp] theorem Work.vbGroup_pred (g : Word) (sh : Nat) (e : Bool) (w : Work) : (Work.vbGroup g sh e w).pred = w.pred := rfl
@[simp] theorem Work.vbGroup_raw (g : Word) (sh : Nat) (e : Bool) (w : Work) : (Work.vbGroup g sh e w).raw = w.raw := rfl
@[simp] theorem Work.vbGroup_trans (g : Word) (sh : Nat) (e : Bool) (w : Work) : (Work.vbGroup g sh e w).trans = w.trans := rfl
@[simp] theorem Work.vbGroup_sel (g : Word) (sh : Nat) (e : Bool) (w : Work) : (Work.vbGroup g sh e w).sel = w.sel := rfl
@[simp] theorem Work.vbGroup_lane (g : Word) (sh : Nat) (e : Bool) (w : Work) : (Work.vbGroup g sh e w).lane = w.lane := rfl
@[simp] theorem Work.vbGroup_ext (g : Word) (sh : Nat) (e : Bool) (w : Work) : (Work.vbGroup g sh e w).ext = w.ext := rfl
@[simp] theorem Work.vbGroup_fea (g : Word) (sh : Nat) (e : Bool) (w : Work) : (Work.vbGroup g sh e w).fea = w.fea := rfl
@[simp] theorem Work.vbGroup_auxPay (g : Word) (sh : Nat) (e : Bool) (w : Work) : (Work.vbGroup g sh e w).auxPay = w.auxPay := rfl
@[simp] theorem Work.vbGroup_vres (g : Word) (sh : Nat) (e : Bool) (w : Work) : (Work.vbGroup g sh e w).vres = (if w.vcnt = 0 then 0 else w.vres) ||| (g <<< sh) := rfl
@[simp] theorem Work.vbGroup_vcnt (g : Word) (sh : Nat) (e : Bool) (w : Work) : (Work.vbGroup g sh e w).vcnt = if e then 0 else w.vcnt + 1 := rfl

/-! ### `Work.putLane` -/

@[simp] theorem Work.putLane_dcur (b : Byte) (w : Work) : (Work.putLane b w).dcur = w.dcur := rfl
@[simp] theorem Work.putLane_ccur (b : Byte) (w : Work) : (Work.putLane b w).ccur = w.ccur := rfl
@[simp] theorem Work.putLane_idx (b : Byte) (w : Work) : (Work.putLane b w).idx = w.idx := rfl
@[simp] theorem Work.putLane_ver (b : Byte) (w : Work) : (Work.putLane b w).ver = w.ver := rfl
@[simp] theorem Work.putLane_fecmax (b : Byte) (w : Work) : (Work.putLane b w).fecmax = w.fecmax := rfl
@[simp] theorem Work.putLane_next (b : Byte) (w : Work) : (Work.putLane b w).next = w.next := rfl
@[simp] theorem Work.putLane_last (b : Byte) (w : Work) : (Work.putLane b w).last = w.last := rfl
@[simp] theorem Work.putLane_eoff (b : Byte) (w : Work) : (Work.putLane b w).eoff = w.eoff := rfl
@[simp] theorem Work.putLane_voff (b : Byte) (w : Work) : (Work.putLane b w).voff = w.voff := rfl
@[simp] theorem Work.putLane_hcur (b : Byte) (w : Work) : (Work.putLane b w).hcur = w.hcur := rfl
@[simp] theorem Work.putLane_blk (b : Byte) (w : Work) : (Work.putLane b w).blk = w.blk := rfl
@[simp] theorem Work.putLane_plane (b : Byte) (w : Work) : (Work.putLane b w).plane = w.plane := rfl
@[simp] theorem Work.putLane_grp (b : Byte) (w : Work) : (Work.putLane b w).grp = w.grp := rfl
@[simp] theorem Work.putLane_efA (b : Byte) (w : Work) : (Work.putLane b w).efA = w.efA := rfl
@[simp] theorem Work.putLane_efB (b : Byte) (w : Work) : (Work.putLane b w).efB = w.efB := rfl
@[simp] theorem Work.putLane_vf (b : Byte) (w : Work) : (Work.putLane b w).vf = w.vf := rfl
@[simp] theorem Work.putLane_seqlast (b : Byte) (w : Work) : (Work.putLane b w).seqlast = w.seqlast := rfl
@[simp] theorem Work.putLane_pred (b : Byte) (w : Work) : (Work.putLane b w).pred = w.pred := rfl
@[simp] theorem Work.putLane_raw (b : Byte) (w : Work) : (Work.putLane b w).raw = w.raw.setIfInBounds (16 * w.grp + w.lane) b := rfl
@[simp] theorem Work.putLane_trans (b : Byte) (w : Work) : (Work.putLane b w).trans = w.trans := rfl
@[simp] theorem Work.putLane_sel (b : Byte) (w : Work) : (Work.putLane b w).sel = w.sel := rfl
@[simp] theorem Work.putLane_lane (b : Byte) (w : Work) : (Work.putLane b w).lane = w.lane + 1 := rfl
@[simp] theorem Work.putLane_ext (b : Byte) (w : Work) : (Work.putLane b w).ext = w.ext := rfl
@[simp] theorem Work.putLane_fea (b : Byte) (w : Work) : (Work.putLane b w).fea = w.fea := rfl
@[simp] theorem Work.putLane_auxPay (b : Byte) (w : Work) : (Work.putLane b w).auxPay = w.auxPay := rfl
@[simp] theorem Work.putLane_vres (b : Byte) (w : Work) : (Work.putLane b w).vres = w.vres := rfl
@[simp] theorem Work.putLane_vcnt (b : Byte) (w : Work) : (Work.putLane b w).vcnt = w.vcnt := rfl

/-! ### `Work.literal` -/

@[simp] theorem Work.literal_dcur (b : Byte) (w : Work) : (Work.literal b w).dcur = w.dcur := rfl
@[simp] theorem Work.literal_ccur (b : Byte) (w : Work) : (Work.literal b w).ccur = w.ccur := rfl
@[simp] theorem Work.literal_idx (b : Byte) (w : Work) : (Work.literal b w).idx = w.idx := rfl
@[simp] theorem Work.literal_ver (b : Byte) (w : Work) : (Work.literal b w).ver = w.ver := rfl
@[simp] theorem Work.literal_fecmax (b : Byte) (w : Work) : (Work.literal b w).fecmax = w.fecmax := rfl
@[simp] theorem Work.literal_next (b : Byte) (w : Work) : (Work.literal b w).next = w.next := rfl
@[simp] theorem Work.literal_last (b : Byte) (w : Work) : (Work.literal b w).last = w.last := rfl
@[simp] theorem Work.literal_eoff (b : Byte) (w : Work) : (Work.literal b w).eoff = w.eoff := rfl
@[simp] theorem Work.literal_voff (b : Byte) (w : Work) : (Work.literal b w).voff = w.voff := rfl
@[simp] theorem Work.literal_hcur (b : Byte) (w : Work) : (Work.literal b w).hcur = w.hcur := rfl
@[simp] theorem Work.literal_blk (b : Byte) (w : Work) : (Work.literal b w).blk = w.blk := rfl
@[simp] theorem Work.literal_plane (b : Byte) (w : Work) : (Work.literal b w).plane = w.plane := rfl
@[simp] theorem Work.literal_grp (b : Byte) (w : Work) : (Work.literal b w).grp = w.grp := rfl
@[simp] theorem Work.literal_efA (b : Byte) (w : Work) : (Work.literal b w).efA = w.efA := rfl
@[simp] theorem Work.literal_efB (b : Byte) (w : Work) : (Work.literal b w).efB = w.efB := rfl
@[simp] theorem Work.literal_vf (b : Byte) (w : Work) : (Work.literal b w).vf = w.vf := rfl
@[simp] theorem Work.literal_seqlast (b : Byte) (w : Work) : (Work.literal b w).seqlast = w.seqlast := rfl
@[simp] theorem Work.literal_pred (b : Byte) (w : Work) : (Work.literal b w).pred = w.pred := rfl
@[simp] theorem Work.literal_raw (b : Byte) (w : Work) : (Work.literal b w).raw = w.raw.setIfInBounds (16 * w.grp + w.lane) b := rfl
@[simp] theorem Work.literal_trans (b : Byte) (w : Work) : (Work.literal b w).trans = w.trans := rfl
@[simp] theorem Work.literal_sel (b : Byte) (w : Work) : (Work.literal b w).sel = w.sel := rfl
@[simp] theorem Work.literal_lane (b : Byte) (w : Work) : (Work.literal b w).lane = w.lane + 1 := rfl
@[simp] theorem Work.literal_ext (b : Byte) (w : Work) : (Work.literal b w).ext = w.ext + 1 := rfl
@[simp] theorem Work.literal_fea (b : Byte) (w : Work) : (Work.literal b w).fea = w.fea := rfl
@[simp] theorem Work.literal_auxPay (b : Byte) (w : Work) : (Work.literal b w).auxPay = w.auxPay := rfl
@[simp] theorem Work.literal_vres (b : Byte) (w : Work) : (Work.literal b w).vres = w.vres := rfl
@[simp] theorem Work.literal_vcnt (b : Byte) (w : Work) : (Work.literal b w).vcnt = w.vcnt := rfl

/-! ### `Work.beginGroup` -/

@[simp] theorem Work.beginGroup_dcur (ctl : Nat) (w : Work) : (Work.beginGroup ctl w).dcur = w.dcur := rfl
@[simp] theorem Work.beginGroup_ccur (ctl : Nat) (w : Work) : (Work.beginGroup ctl w).ccur = w.ccur := rfl
@[simp] theorem Work.beginGroup_idx (ctl : Nat) (w : Work) : (Work.beginGroup ctl w).idx = w.idx := rfl
@[simp] theorem Work.beginGroup_ver (ctl : Nat) (w : Work) : (Work.beginGroup ctl w).ver = w.ver := rfl
@[simp] theorem Work.beginGroup_fecmax (ctl : Nat) (w : Work) : (Work.beginGroup ctl w).fecmax = w.fecmax := rfl
@[simp] theorem Work.beginGroup_next (ctl : Nat) (w : Work) : (Work.beginGroup ctl w).next = w.next := rfl
@[simp] theorem Work.beginGroup_last (ctl : Nat) (w : Work) : (Work.beginGroup ctl w).last = w.last := rfl
@[simp] theorem Work.beginGroup_eoff (ctl : Nat) (w : Work) : (Work.beginGroup ctl w).eoff = w.eoff := rfl
@[simp] theorem Work.beginGroup_voff (ctl : Nat) (w : Work) : (Work.beginGroup ctl w).voff = w.voff := rfl
@[simp] theorem Work.beginGroup_hcur (ctl : Nat) (w : Work) : (Work.beginGroup ctl w).hcur = w.hcur := rfl
@[simp] theorem Work.beginGroup_blk (ctl : Nat) (w : Work) : (Work.beginGroup ctl w).blk = w.blk := rfl
@[simp] theorem Work.beginGroup_plane (ctl : Nat) (w : Work) : (Work.beginGroup ctl w).plane = w.plane := rfl
@[simp] theorem Work.beginGroup_grp (ctl : Nat) (w : Work) : (Work.beginGroup ctl w).grp = w.grp := rfl
@[simp] theorem Work.beginGroup_efA (ctl : Nat) (w : Work) : (Work.beginGroup ctl w).efA = w.efA := rfl
@[simp] theorem Work.beginGroup_efB (ctl : Nat) (w : Work) : (Work.beginGroup ctl w).efB = w.efB := rfl
@[simp] theorem Work.beginGroup_vf (ctl : Nat) (w : Work) : (Work.beginGroup ctl w).vf = w.vf := rfl
@[simp] theorem Work.beginGroup_seqlast (ctl : Nat) (w : Work) : (Work.beginGroup ctl w).seqlast = w.seqlast := rfl
@[simp] theorem Work.beginGroup_pred (ctl : Nat) (w : Work) : (Work.beginGroup ctl w).pred = w.pred := rfl
@[simp] theorem Work.beginGroup_raw (ctl : Nat) (w : Work) : (Work.beginGroup ctl w).raw = w.raw := rfl
@[simp] theorem Work.beginGroup_trans (ctl : Nat) (w : Work) : (Work.beginGroup ctl w).trans = w.trans := rfl
@[simp] theorem Work.beginGroup_sel (ctl : Nat) (w : Work) : (Work.beginGroup ctl w).sel = w.sel := rfl
@[simp] theorem Work.beginGroup_lane (ctl : Nat) (w : Work) : (Work.beginGroup ctl w).lane = 0 := rfl
@[simp] theorem Work.beginGroup_ext (ctl : Nat) (w : Work) : (Work.beginGroup ctl w).ext = w.dcur + ctl := rfl
@[simp] theorem Work.beginGroup_fea (ctl : Nat) (w : Work) : (Work.beginGroup ctl w).fea = w.fea := rfl
@[simp] theorem Work.beginGroup_auxPay (ctl : Nat) (w : Work) : (Work.beginGroup ctl w).auxPay = w.auxPay := rfl
@[simp] theorem Work.beginGroup_vres (ctl : Nat) (w : Work) : (Work.beginGroup ctl w).vres = w.vres := rfl
@[simp] theorem Work.beginGroup_vcnt (ctl : Nat) (w : Work) : (Work.beginGroup ctl w).vcnt = w.vcnt := rfl

/-! ### `Work.seqIndex` -/

@[simp] theorem Work.seqIndex_dcur (w : Work) : (Work.seqIndex w).dcur = w.dcur := rfl
@[simp] theorem Work.seqIndex_ccur (w : Work) : (Work.seqIndex w).ccur = w.ccur := rfl
@[simp] theorem Work.seqIndex_idx (w : Work) : (Work.seqIndex w).idx = w.idx := rfl
@[simp] theorem Work.seqIndex_ver (w : Work) : (Work.seqIndex w).ver = w.ver := rfl
@[simp] theorem Work.seqIndex_fecmax (w : Work) : (Work.seqIndex w).fecmax = w.fecmax := rfl
@[simp] theorem Work.seqIndex_next (w : Work) : (Work.seqIndex w).next = w.next := rfl
@[simp] theorem Work.seqIndex_last (w : Work) : (Work.seqIndex w).last = w.last := rfl
@[simp] theorem Work.seqIndex_eoff (w : Work) : (Work.seqIndex w).eoff = w.eoff := rfl
@[simp] theorem Work.seqIndex_voff (w : Work) : (Work.seqIndex w).voff = w.voff := rfl
@[simp] theorem Work.seqIndex_hcur (w : Work) : (Work.seqIndex w).hcur = w.hcur := rfl
@[simp] theorem Work.seqIndex_blk (w : Work) : (Work.seqIndex w).blk = w.blk := rfl
@[simp] theorem Work.seqIndex_plane (w : Work) : (Work.seqIndex w).plane = w.plane := rfl
@[simp] theorem Work.seqIndex_grp (w : Work) : (Work.seqIndex w).grp = w.grp := rfl
@[simp] theorem Work.seqIndex_efA (w : Work) : (Work.seqIndex w).efA = w.efA := rfl
@[simp] theorem Work.seqIndex_efB (w : Work) : (Work.seqIndex w).efB = w.efB := rfl
@[simp] theorem Work.seqIndex_vf (w : Work) : (Work.seqIndex w).vf = w.vf := rfl
@[simp] theorem Work.seqIndex_seqlast (w : Work) : (Work.seqIndex w).seqlast = setSlot2 w.seqlast (seqSlot w.vres) (slot2 w.seqlast (seqSlot w.vres) + seqDelta w.vres) := rfl
@[simp] theorem Work.seqIndex_pred (w : Work) : (Work.seqIndex w).pred = w.pred := rfl
@[simp] theorem Work.seqIndex_raw (w : Work) : (Work.seqIndex w).raw = w.raw := rfl
@[simp] theorem Work.seqIndex_trans (w : Work) : (Work.seqIndex w).trans = w.trans := rfl
@[simp] theorem Work.seqIndex_sel (w : Work) : (Work.seqIndex w).sel = w.sel := rfl
@[simp] theorem Work.seqIndex_lane (w : Work) : (Work.seqIndex w).lane = w.lane := rfl
@[simp] theorem Work.seqIndex_ext (w : Work) : (Work.seqIndex w).ext = w.ext := rfl
@[simp] theorem Work.seqIndex_fea (w : Work) : (Work.seqIndex w).fea = w.fea := rfl
@[simp] theorem Work.seqIndex_auxPay (w : Work) : (Work.seqIndex w).auxPay = w.auxPay := rfl
@[simp] theorem Work.seqIndex_vres (w : Work) : (Work.seqIndex w).vres = w.vres := rfl
@[simp] theorem Work.seqIndex_vcnt (w : Work) : (Work.seqIndex w).vcnt = w.vcnt := rfl

/-! ### The configuration numbers -/

@[simp] theorem State.withW_n (s : State) (w : Work) : (s.withW w).n = s.n := rfl
@[simp] theorem State.withW_e (s : State) (w : Work) : (s.withW w).e = s.e := rfl
@[simp] theorem State.withW_l (s : State) (w : Work) : (s.withW w).l = s.l := rfl
@[simp] theorem State.withW_t (s : State) (w : Work) : (s.withW w).t = s.t := rfl
@[simp] theorem State.withW_tableStart (s : State) (w : Work) : (s.withW w).tableStart = s.tableStart := rfl
@[simp] theorem State.withW_safeEnd (s : State) (w : Work) : (s.withW w).safeEnd = s.safeEnd := rfl
@[simp] theorem State.withW_srcByte (s : State) (w : Work) (a : Nat) : (s.withW w).srcByte a = s.srcByte a := rfl
@[simp] theorem State.withW_dstByte (s : State) (w : Work) (a : Nat) : (s.withW w).dstByte a = s.dstByte a := rfl
@[simp] theorem State.withW_withW (s : State) (w v : Work) : (s.withW w).withW v = s.withW v := rfl
@[simp] theorem State.withW_self (s : State) : s.withW s.w = s := rfl

/-! ### Slots of the 16-slot and 2-slot files -/

@[simp] theorem slot16_setSlot16 {α : Type} (f : Vector α 16) (i : Nibble) (x : α) :
    slot16 (setSlot16 f i x) i = x := by simp [slot16, setSlot16]

theorem slot16_setSlot16_ne {α : Type} (f : Vector α 16) {i j : Nibble} (x : α) (h : i ≠ j) :
    slot16 (setSlot16 f i x) j = slot16 f j := by
  have : i.toNat ≠ j.toNat := fun e => h (BitVec.eq_of_toNat_eq e)
  simp [slot16, setSlot16, this]

@[simp] theorem slot2_setSlot2 (f : Vector Word 2) (i : BitVec 1) (x : Word) : slot2 (setSlot2 f i x) i = x := by
  simp [slot2, setSlot2]

theorem slot2_setSlot2_ne (f : Vector Word 2) {i j : BitVec 1} (x : Word) (h : i ≠ j) :
    slot2 (setSlot2 f i x) j = slot2 f j := by
  have : i.toNat ≠ j.toNat := fun e => h (BitVec.eq_of_toNat_eq e)
  simp [slot2, setSlot2, this]

end Sys2Proof.Machine
end

