-- ==== Sys2Proof/Laws/Ops.lean ====
section
/-! SUPPORT. For each shared operation, one lemma that says once all it can do. -/

namespace Sys2Proof.Machine

/-! ### Runs -/

@[simp] theorem Run.bind_val {α β : Type} (a : α) (s : State) (f : α → State → Run β) :
    (Run.val a s).bind f = f a s := rfl
@[simp] theorem Run.bind_stop {α β : Type} (o : Res) (f : α → State → Run β) : (Run.stop o : Run α).bind f = .stop o := rfl
@[simp] theorem Run.finish_val {α : Type} (a : α) (s : State) : (Run.val a s).finish = .next s := rfl
@[simp] theorem Run.finish_stop {α : Type} (o : Res) : (Run.stop o : Run α).finish = o := rfl
@[simp] theorem raise_eq {α : Type} (st : Status) (s : State) : (raise st s : Run α) = .stop (.next (s.endCall st)) := rfl

/-- A sequence yields a value where both parts do. -/
theorem Run.bind_eq_val {α β : Type} {r : Run α} {f : α → State → Run β} {b : β} {t : State} :
    r.bind f = .val b t ↔ ∃ a s, r = .val a s ∧ f a s = .val b t := by
  cases r <;> simp [Run.bind]

/-- A sequence stops where its first part stops, or the second after it. -/
theorem Run.bind_eq_stop {α β : Type} {r : Run α} {f : α → State → Run β} {o : Res} :
    r.bind f = .stop o ↔ r = .stop o ∨ ∃ a s, r = .val a s ∧ f a s = .stop o := by
  cases r <;> simp [Run.bind]

/-- A meaning answers a next state where its parts are done, or where one of them raised a status. -/
theorem Run.finish_eq_next {α : Type} {r : Run α} {t : State} :
    r.finish = .next t ↔ (∃ a, r = .val a t) ∨ r = .stop (.next t) := by
  cases r <;> simp [Run.finish]

/-! ### The end of a call does not see the working registers -/

@[simp] theorem State.endCall_withW (st : Status) (s : State) (w : Work) : (s.withW w).endCall st = s.endCall st := rfl
@[simp] theorem State.endCall_pos_w (st : Status) (s : State) (p : Pos) (w : Work) :
    State.endCall st { s with pos := p, w := w } = s.endCall st := rfl

/-! ### Access primitives -/

/-- MemRead either yields the byte and changes nothing, or ends the call with Truncated. -/
theorem memRead_cases (a : Nat) (s : State) :
    (a < s.l ∧ memRead a s = .val (s.srcByte a) s) ∨ (s.l ≤ a ∧ memRead a s = .stop (.next (s.endCall .truncated))) := by
  unfold memRead; split
  · exact .inl ⟨‹_›, rfl⟩
  · exact .inr ⟨by omega, rfl⟩

theorem memRead_of_lt {a : Nat} {s : State} (h : a < s.l) : memRead a s = .val (s.srcByte a) s := by simp [memRead, h]

theorem memRead_of_le {a : Nat} {s : State} (h : s.l ≤ a) : memRead a s = .stop (.next (s.endCall .truncated)) := by
  simp [memRead, Nat.not_lt.2 h]

/-- MemWrite either changes DST alone, or faults. -/
theorem memWrite_cases (a : Nat) (bs : List Byte) (s : State) :
    (a + bs.length ≤ s.n * s.e ∧ memWrite a bs s = .val () { s with dst := Mem.writeBytes .dst s.dst a bs }) ∨
    (s.n * s.e < a + bs.length ∧ memWrite a bs s = .stop (.fault .dstOutOfRange)) := by
  unfold memWrite; split
  · exact .inl ⟨‹_›, rfl⟩
  · exact .inr ⟨by omega, rfl⟩

theorem memWrite_of_le {a : Nat} {bs : List Byte} {s : State} (h : a + bs.length ≤ s.n * s.e) :
    memWrite a bs s = .val () { s with dst := Mem.writeBytes .dst s.dst a bs } := by simp [memWrite, h]

/-- What a byte of DST reads as after bytes have been written. -/
theorem dstByte_writeBytes (s : State) (a x : Nat) (bs : List Byte) :
    State.dstByte { s with dst := Mem.writeBytes .dst s.dst a bs } x =
      if a ≤ x ∧ x < a + bs.length then bs[x - a]? else s.dstByte x :=
  Mem.read_writeBytes_dst s.dst a x bs

@[simp] theorem State.window_length (s : State) (a k : Nat) : (s.window a k).length = min k (s.l - a) := by
  induction k generalizing a with
  | zero => simp [State.window]
  | succ k ih =>
    unfold State.window; split
    · simp [ih]; omega
    · simp; omega

/-- The bytes of a window are the stream's. -/
theorem State.window_getElem? (s : State) (a k i : Nat) :
    (s.window a k)[i]? = if i < k ∧ a + i < s.l then some (s.srcByte (a + i)) else none := by
  induction k generalizing a i with
  | zero => simp [State.window]
  | succ k ih =>
    unfold State.window
    by_cases h : a < s.l
    · cases i with
      | zero => simp [h]
      | succ i => simp [h, ih, Nat.add_assoc, Nat.add_comm 1 i]
    · have hai : ¬ a + i < s.l := by omega
      simp [h, hai]

/-! ### Bytes of a value -/

@[simp] theorem leBytes_length (n : Nat) (v : Word) : (leBytes n v).length = n := by
  induction n generalizing v with
  | zero => rfl
  | succ n ih => simp [leBytes, ih]

/-- Byte `i` of a value. -/
theorem leBytes_getElem? (n : Nat) (v : Word) (i : Nat) :
    (leBytes n v)[i]? = if i < n then some (bits (8 * i) 8 v) else none := by
  induction n generalizing v i with
  | zero => simp [leBytes]
  | succ n ih =>
    cases i with
    | zero => simp [leBytes]
    | succ i =>
      simp only [leBytes, List.getElem?_cons_succ, ih, Nat.add_lt_add_iff_right]
      split
      · congr 1
        apply BitVec.eq_of_getLsbD_eq
        intro j hj
        simp only [bits, BitVec.getLsbD_extractLsb', BitVec.getLsbD_ushiftRight, hj, decide_true, Bool.true_and]
        congr 1; omega
      · rfl

/-! ### Varints -/

/-- The bytes of a varint and the rest are the bytes it was split from; it has one to `k + 1` bytes. -/
theorem splitVarint_append {k : Nat} {bs v rest : List Byte} (h : splitVarint k bs = some (v, rest)) :
    v ++ rest = bs ∧ v ≠ [] ∧ v.length ≤ k + 1 := by
  induction k generalizing bs v rest with
  | zero =>
    cases bs with
    | nil => simp [splitVarint] at h
    | cons b r => simp [splitVarint] at h; obtain ⟨rfl, rfl⟩ := h; simp
  | succ k ih =>
    cases bs with
    | nil => simp [splitVarint] at h
    | cons b r =>
      simp only [splitVarint] at h
      split at h
      · split at h
        · rename_i v' r' hs
          obtain ⟨rfl, rfl⟩ : b :: v' = v ∧ r' = rest := by simpa using h
          obtain ⟨rfl, -, hl⟩ := ih hs
          simp; omega
        · simp at h
      · obtain ⟨rfl, rfl⟩ : [b] = v ∧ r = rest := by simpa using h
        simp

/-- A varint's bytes change DCUR, the varint registers and nothing else. -/
theorem Work.vbBytes_frame (bs : List Byte) (w : Work) :
    ∃ r c, Work.vbBytes bs w = { w with dcur := w.dcur + bs.length, vres := r, vcnt := c } := by
  induction bs generalizing w with
  | nil => exact ⟨w.vres, w.vcnt, rfl⟩
  | cons b r ih =>
    obtain ⟨x, c, h⟩ := ih (w.vbByte b)
    refine ⟨x, c, ?_⟩
    rw [Work.vbBytes, h]
    simp only [Work.vbByte, Work.vbFifth, Work.vbCont, Work.vbLast, Work.vbGroup]
    split
    · simp [Nat.add_assoc, Nat.add_comm 1]
    · split <;> simp [Nat.add_assoc, Nat.add_comm 1]

/-- FREE changes DCUR, the varint registers and LAST. -/
theorem Work.freeIndex_frame (bs : List Byte) (w : Work) :
    ∃ r c, w.freeIndex bs = { w with dcur := w.dcur + bs.length, vres := r, vcnt := c, last := w.last + unzigzag32 r } := by
  obtain ⟨r, c, h⟩ := Work.vbBytes_frame bs { w with vcnt := 0 }
  exact ⟨r, c, by simp [Work.freeIndex, Work.varint, h]⟩

/-- DecodeIndex either reads one to five bytes below CFG_SRCLEN and moves LAST, which is the index; or ends the call with
Truncated. -/
theorem decodeIndex_cases (s : State) :
    (∃ r c k, 1 ≤ k ∧ k ≤ 5 ∧ s.w.dcur + k ≤ s.l ∧
      decodeIndex s = .val (s.w.last + unzigzag32 r)
        (s.withW { s.w with dcur := s.w.dcur + k, vres := r, vcnt := c, last := s.w.last + unzigzag32 r })) ∨
    (splitVarint 4 (s.window s.w.dcur 5) = none ∧ decodeIndex s = .stop (.next (s.endCall .truncated))) := by
  unfold decodeIndex fetchVarint
  cases h : splitVarint 4 (s.window s.w.dcur 5) with
  | none => right; exact ⟨rfl, by simp⟩
  | some p =>
    obtain ⟨bs, rest⟩ := p
    obtain ⟨r, c, hf⟩ := Work.freeIndex_frame bs s.w
    obtain ⟨happ, hne, hlen⟩ := splitVarint_append h
    have hw := congrArg List.length happ
    rw [List.length_append, State.window_length] at hw
    have hpos : 0 < bs.length := List.length_pos_iff.2 hne
    left
    exact ⟨r, c, bs.length, by omega, by omega, by omega, by simp [hf]⟩

/-- Where five bytes are left, a varint is there. -/
theorem splitVarint_some_of_length {k : Nat} {bs : List Byte} (h : k + 1 ≤ bs.length) : ∃ p, splitVarint k bs = some p := by
  induction k generalizing bs with
  | zero => cases bs with
    | nil => simp at h
    | cons b r => exact ⟨_, rfl⟩
  | succ k ih => cases bs with
    | nil => simp at h
    | cons b r =>
      obtain ⟨⟨v, r'⟩, hp⟩ := ih (bs := r) (by simp at h; omega)
      simp only [splitVarint, hp]
      split <;> exact ⟨_, rfl⟩

/-! ### Emit and the triangles -/

/-- Emit writes three elements and advances IDX, or faults; nothing else changes. -/
theorem emit_cases (a b c : Word) (s : State) :
    ((s.w.idx + 3) * s.e ≤ s.n * s.e ∧
      emit a b c s = .val () { s with
        dst := Mem.writeBytes .dst (Mem.writeBytes .dst (Mem.writeBytes .dst s.dst (s.w.idx * s.e) (leBytes s.e a))
          ((s.w.idx + 1) * s.e) (leBytes s.e b)) ((s.w.idx + 2) * s.e) (leBytes s.e c)
        w := { s.w with idx := s.w.idx + 3 } }) ∨
    (s.n * s.e < (s.w.idx + 3) * s.e ∧ emit a b c s = .stop (.fault .dstOutOfRange)) := by
  have h1 : (s.w.idx + 1) * s.e = s.w.idx * s.e + s.e := by ring
  have h2 : (s.w.idx + 2) * s.e = s.w.idx * s.e + s.e + s.e := by ring
  have h3 : (s.w.idx + 3) * s.e = s.w.idx * s.e + s.e + s.e + s.e := by ring
  unfold emit
  by_cases h : (s.w.idx + 3) * s.e ≤ s.n * s.e
  · left
    refine ⟨h, ?_⟩
    rw [memWrite_of_le (by simp; omega), Run.bind_val, memWrite_of_le (by simp [State.n, State.e] at *; omega),
      Run.bind_val, memWrite_of_le (by simp [State.n, State.e] at *; omega), Run.bind_val]
    rfl
  · right
    refine ⟨by omega, ?_⟩
    rcases memWrite_cases (s.w.idx * s.e) (leBytes s.e a) s with ⟨-, e1⟩ | ⟨-, e1⟩ <;> rw [e1]
    swap; · rfl
    rw [Run.bind_val]
    rcases memWrite_cases ((s.w.idx + 1) * s.e) (leBytes s.e b)
      { s with dst := Mem.writeBytes .dst s.dst (s.w.idx * s.e) (leBytes s.e a) } with ⟨-, e2⟩ | ⟨-, e2⟩
    · erw [e2]
      rcases memWrite_cases ((s.w.idx + 2) * s.e) (leBytes s.e c)
        { s with dst := Mem.writeBytes .dst (Mem.writeBytes .dst s.dst (s.w.idx * s.e) (leBytes s.e a))
                  ((s.w.idx + 1) * s.e) (leBytes s.e b) } with ⟨h4, -⟩ | ⟨-, e3⟩
      · simp [State.n, State.e] at *; omega
      · erw [Run.bind_val, e3]; rfl
    · erw [e2]; rfl

/-- The end of an edge triangle: Emit's writes, a vertex push unless a hit, two edge pushes; or Emit's fault. -/
theorem finishEdge_cases (a b c : Word) (hit : Bool) (s : State) :
    ((s.w.idx + 3) * s.e ≤ s.n * s.e ∧ ∃ t, emit a b c s = .val () t ∧
      finishEdge a b c hit s = .val () (t.withW (((t.w.pushVertexUnless hit c).pushEdge c b).pushEdge a c))) ∨
    (s.n * s.e < (s.w.idx + 3) * s.e ∧ finishEdge a b c hit s = .stop (.fault .dstOutOfRange)) := by
  rcases emit_cases a b c s with ⟨h, e⟩ | ⟨h, e⟩
  · exact .inl ⟨h, _, e, by simp [finishEdge, e]⟩
  · exact .inr ⟨h, by simp [finishEdge, e]⟩

/-- Phase 1 of ResolveNew moves NEXT and nothing else. -/
theorem vertexPhase1_frame (code : Nibble) (s : State) :
    ∃ n, (vertexPhase1 code s).2 = s.withW { s.w with next := n } := by
  unfold vertexPhase1
  split
  · exact ⟨_, rfl⟩
  · split <;> exact ⟨s.w.next, rfl⟩

/-- What the payload reads of a triangle may change: DCUR moves up by `k` bytes, none at or beyond CFG_SRCLEN; LAST and the
varint registers take some values. -/
def PayloadRead (k : Nat) (s t : State) : Prop :=
  (k = 0 ∨ s.w.dcur + k ≤ s.l) ∧
  ∃ r c l, t = s.withW { s.w with dcur := s.w.dcur + k, vres := r, vcnt := c, last := l }

theorem PayloadRead.refl (s : State) : PayloadRead 0 s s := ⟨.inl rfl, s.w.vres, s.w.vcnt, s.w.last, rfl⟩

theorem PayloadRead.trans {j k : Nat} {s t u : State} (h : PayloadRead j s t) (h' : PayloadRead k t u) :
    PayloadRead (j + k) s u := by
  obtain ⟨hk, r, c, l, rfl⟩ := h
  obtain ⟨hk', r', c', l', rfl⟩ := h'
  refine ⟨?_, r', c', l', by simp [State.withW, Nat.add_assoc]⟩
  simp only [State.withW_w, State.withW_l] at hk'; omega

theorem PayloadRead.endCall {k : Nat} {s t : State} (h : PayloadRead k s t) (st : Status) : t.endCall st = s.endCall st := by
  obtain ⟨-, r, c, l, rfl⟩ := h; rfl

/-- Phase 2 of ResolveNew, for one vertex: at most five payload bytes, or Truncated. -/
theorem vertexPhase2_cases (x : Vertex) (s : State) :
    (∃ v t k, k ≤ 5 ∧ PayloadRead k s t ∧ vertexPhase2 x s = .val v t) ∨
    vertexPhase2 x s = .stop (.next (s.endCall .truncated)) := by
  cases x with
  | known v hit => exact .inl ⟨_, _, 0, by omega, .refl s, rfl⟩
  | pending =>
    rcases decodeIndex_cases s with ⟨r, c, k, -, h5, hl, e⟩ | ⟨-, e⟩
    · exact .inl ⟨_, _, k, h5, ⟨.inr hl, r, c, _, rfl⟩, by rw [vertexPhase2, e, Run.bind_val]⟩
    · exact .inr (by rw [vertexPhase2, e, Run.bind_stop])

/-- ResolveNew moves NEXT and reads at most fifteen payload bytes; or ends the call with Truncated. -/
theorem resolveNew_cases (fea feb fec : Nibble) (s : State) :
    (∃ x n t k, k ≤ 15 ∧ PayloadRead k (s.withW { s.w with next := n }) t ∧ resolveNew fea feb fec s = .val x t) ∨
    resolveNew fea feb fec s = .stop (.next (s.endCall .truncated)) := by
  obtain ⟨n1, h1⟩ := vertexPhase1_frame fea s
  obtain ⟨n2, h2⟩ := vertexPhase1_frame feb (vertexPhase1 fea s).2
  obtain ⟨n, h3⟩ := vertexPhase1_frame fec (vertexPhase1 feb (vertexPhase1 fea s).2).2
  have h : (vertexPhase1 fec (vertexPhase1 feb (vertexPhase1 fea s).2).2).2 = s.withW { s.w with next := n } := by
    rw [h3, h2, h1]; rfl
  unfold resolveNew
  simp only [h]
  rcases vertexPhase2_cases (vertexPhase1 fea s).1 (s.withW { s.w with next := n }) with ⟨v1, t1, k1, l1, p1, e1⟩ | e1
  swap; · right; simp [e1]
  rcases vertexPhase2_cases (vertexPhase1 feb (vertexPhase1 fea s).2).1 t1 with ⟨v2, t2, k2, l2, p2, e2⟩ | e2
  swap; · right; simp [e1, e2, p1.endCall]
  rcases vertexPhase2_cases (vertexPhase1 fec (vertexPhase1 feb (vertexPhase1 fea s).2).2).1 t2
    with ⟨v3, t3, k3, l3, p3, e3⟩ | e3
  swap; · right; simp [e1, e2, e3, p2.endCall, p1.endCall]
  exact .inl ⟨(v1, v2, v3), n, t3, k1 + k2 + k3, by omega, (p1.trans p2).trans p3, by simp [e1, e2, e3]⟩

/-! ### Byte groups -/

/-- A lane either takes its value, or the byte at `ext`, or the call ends with Truncated. -/
theorem codeLane_cases (sent : Bool) (v : Byte) (s : State) :
    (sent = false ∧ codeLane sent v s = .val () (s.withW (s.w.putLane v))) ∨
    (sent = true ∧ s.w.ext < s.l ∧ codeLane sent v s = .val () (s.withW (s.w.literal (s.srcByte s.w.ext)))) ∨
    (sent = true ∧ s.l ≤ s.w.ext ∧ codeLane sent v s = .stop (.next (s.endCall .truncated))) := by
  cases sent with
  | false => exact .inl ⟨rfl, rfl⟩
  | true =>
    rcases memRead_cases s.w.ext s with ⟨h, e⟩ | ⟨h, e⟩
    · exact .inr (.inl ⟨rfl, h, by simp [codeLane, literalLane, e]⟩)
    · exact .inr (.inr ⟨rfl, h, by simp [codeLane, literalLane, e]⟩)

/-- Parts of a group: from `s` they change RAW, the lane and `ext`, with `ext` moving up below CFG_SRCLEN; or they end the call
with Truncated. -/
def LanePart (r : Run Unit) (s : State) : Prop :=
  (∃ raw k x, s.w.ext ≤ x ∧ (x = s.w.ext ∨ x ≤ s.l) ∧
    r = .val () (s.withW { s.w with raw := raw, lane := s.w.lane + k, ext := x })) ∨
  r = .stop (.next (s.endCall .truncated))

theorem codeLane_part (sent : Bool) (v : Byte) (s : State) : LanePart (codeLane sent v s) s := by
  rcases codeLane_cases sent v s with ⟨-, e⟩ | ⟨-, h, e⟩ | ⟨-, -, e⟩
  · exact .inl ⟨_, 1, s.w.ext, Nat.le_refl _, .inl rfl, e⟩
  · exact .inl ⟨_, 1, s.w.ext + 1, by omega, .inr (by omega), e⟩
  · exact .inr e

theorem literalLane_part (s : State) : LanePart (literalLane s) s := codeLane_part true 0#8 s

/-- One part of a group after another is a part of a group. -/
theorem LanePart.bind {r : Run Unit} {f : State → Run Unit} {s : State} (h : LanePart r s) (hf : ∀ t, LanePart (f t) t) :
    LanePart (r.bind fun _ t => f t) s := by
  rcases h with ⟨raw, k, x, h1, h2, rfl⟩ | rfl
  · rcases hf (s.withW { s.w with raw := raw, lane := s.w.lane + k, ext := x }) with ⟨raw', k', x', h3, h4, e⟩ | e
    · refine .inl ⟨raw', k + k', x', ?_, ?_, ?_⟩
      · simp only [State.withW_w] at h3; omega
      · simp only [State.withW_w, State.withW_l] at h4; omega
      · simp only [Run.bind_val, e]; simp [State.withW, Nat.add_assoc]
    · exact .inr (by simp only [Run.bind_val, e]; simp)
  · exact .inr rfl

theorem c2Lanes_part (c0 c1 c2 c3 : BitVec 2) (s : State) : LanePart (c2Lanes c0 c1 c2 c3 s) s :=
  (codeLane_part _ _ s).bind fun t => (codeLane_part _ _ t).bind fun t => (codeLane_part _ _ t).bind fun t =>
    codeLane_part _ _ t

theorem c4Lanes_part (c0 c1 : Nibble) (s : State) : LanePart (c4Lanes c0 c1 s) s :=
  (codeLane_part _ _ s).bind fun t => codeLane_part _ _ t

theorem repeatRun_part {f : State → Run Unit} (hf : ∀ t, LanePart (f t) t) (k : Nat) (s : State) :
    LanePart (repeatRun f k s) s := by
  induction k generalizing s with
  | zero => exact .inl ⟨s.w.raw, 0, s.w.ext, Nat.le_refl _, .inl rfl, rfl⟩
  | succ k ih => exact (hf s).bind ih

theorem controlBytes_part {f : Byte → State → Run Unit} (hf : ∀ b t, LanePart (f b t) t) (k a : Nat) (s : State) :
    LanePart (controlBytes f k a s) s := by
  induction k generalizing s a with
  | zero => exact .inl ⟨s.w.raw, 0, s.w.ext, Nat.le_refl _, .inl rfl, rfl⟩
  | succ k ih =>
    unfold controlBytes
    rcases memRead_cases a s with ⟨-, e⟩ | ⟨-, e⟩
    · rw [e]; exact (hf _ s).bind fun t => ih (a + 1) t
    · rw [e]; exact .inr rfl

/-- The control bytes of a group, where they all go through, lie below CFG_SRCLEN. -/
theorem controlBytes_bound {f : Byte → State → Run Unit} (hf : ∀ b t, LanePart (f b t) t) {k a : Nat} {s t : State}
    (h : controlBytes f k a s = .val () t) : k = 0 ∨ a + k ≤ s.l := by
  induction k generalizing s a with
  | zero => exact .inl rfl
  | succ k ih =>
    right
    unfold controlBytes at h
    rcases memRead_cases a s with ⟨hl, e⟩ | ⟨-, e⟩
    · rw [e, Run.bind_val] at h
      obtain ⟨_, u, h1, h2⟩ := Run.bind_eq_val.1 h
      rcases hf (s.srcByte a) s with ⟨raw, m, x, -, -, e'⟩ | e'
      · rw [e'] at h1
        simp only [Run.val.injEq, true_and] at h1
        subst h1
        rcases ih h2 with rfl | h3
        · omega
        · simp only [State.withW_l] at h3; omega
      · rw [e'] at h1; simp at h1
    · rw [e] at h; simp at h

/-- A group changes RAW, the lane, `ext`, DCUR, GRP and the position; or it ends the call with Truncated. -/
theorem groupOf_cases (ctl : Nat) {lanes : State → Run Unit} (hl : ∀ t, LanePart (lanes t) t) (s : State) :
    (∃ raw k x, s.w.dcur + ctl ≤ x ∧ (x = s.w.dcur + ctl ∨ x ≤ s.l) ∧
      groupOf ctl lanes s = .next { s with
        pos := if s.w.grp + 1 < s.groups then .group else .planeEnd
        w := { s.w with raw := raw, lane := k, ext := x, dcur := x, grp := s.w.grp + 1 } }) ∨
    groupOf ctl lanes s = .next (s.endCall .truncated) := by
  unfold groupOf
  rcases hl (s.withW (s.w.beginGroup ctl)) with ⟨raw, k, x, h1, h2, e⟩ | e
  · exact .inl ⟨raw, 0 + k, x, h1, h2, by rw [e]; rfl⟩
  · exact .inr (by rw [e]; rfl)

/-! ### The vertex decoder -/

@[simp] theorem transBytes_length (tr : Vector Byte 8192) (count j : Nat) : (transBytes tr count j).length = count := by
  induction count generalizing j with
  | zero => rfl
  | succ c ih => simp [transBytes, ih]

/-- Byte `i` of a part of TRANS. -/
theorem transBytes_getElem? (tr : Vector Byte 8192) (count j i : Nat) :
    (transBytes tr count j)[i]? = if i < count then some (tr.getD (j + i) 0) else none := by
  induction count generalizing j i with
  | zero => simp [transBytes]
  | succ c ih => cases i with
    | zero => simp [transBytes]
    | succ i => simp [transBytes, ih, Nat.add_assoc, Nat.add_comm 1 i]

/-- A vector read after one slot is written. -/
theorem getD_setIfInBounds {n : Nat} (v : Vector Byte n) (i j : Nat) (b : Byte) :
    (v.setIfInBounds i b).getD j 0 = if i = j ∧ j < n then b else v.getD j 0 := by
  by_cases hj : j < n
  · by_cases hij : i = j
    · subst hij; simp [Vector.getD, hj]
    · simp [Vector.getD, hj, hij]
  · simp [Vector.getD, hj]

/-- PRED after a block (R163). -/
theorem loadPred_getD (tr : Vector Byte 8192) (start count : Nat) (p : Vector Byte 256) (k : Nat) :
    (loadPred tr start count p).getD k 0 = if k < count ∧ k < 256 then tr.getD (start + k) 0 else p.getD k 0 := by
  induction count with
  | zero => simp [loadPred]
  | succ c ih =>
    simp only [loadPred, getD_setIfInBounds, ih]
    by_cases h : c = k
    · subst h; by_cases h2 : c < 256 <;> simp [h2]
    · have h' : (k < c + 1) = (k < c) := by simp; omega
      simp [h, h']

/-- The block's bounds: at most 256 vertices, which fit TRANS (R161). -/
theorem bc_le (s : State) : s.bc ≤ 256 ∧ s.groups ≤ 16 ∧ s.headers ≤ 4 := by
  have h : s.bc ≤ 256 := by
    unfold State.bc blockCount blockSize
    exact le_trans (Nat.min_le_left _ _) (Nat.min_le_right _ _)
  refine ⟨h, ?_, ?_⟩ <;> simp only [State.headers, State.groups, runHeaders, runGroups, Config.groupsPerHdr] <;> omega

/-- The end of a block changes DST, PRED, IDX, BLK and the position, or faults. -/
theorem endBlock_cases (s : State) :
    (s.w.blk * s.e + s.bc * s.e ≤ s.n * s.e ∧ endBlock s = .next { s with
      dst := Mem.writeBytes .dst s.dst (s.w.blk * s.e) (transBytes s.w.trans (s.bc * s.e) 0)
      pos := .blockTop
      w := { s.w with
        pred := loadPred s.w.trans ((s.bc - 1) * s.e) s.e s.w.pred, idx := s.w.idx + s.bc, blk := s.w.blk + s.bc } }) ∨
    (s.n * s.e < s.w.blk * s.e + s.bc * s.e ∧ endBlock s = .fault .dstOutOfRange) := by
  unfold endBlock
  rcases memWrite_cases (s.w.blk * s.e) (transBytes s.w.trans (s.bc * s.e) 0) s with ⟨h, e⟩ | ⟨h, e⟩
  · rw [transBytes_length] at h; exact .inl ⟨h, by rw [e]; rfl⟩
  · rw [transBytes_length] at h; exact .inr ⟨h, by rw [e]; rfl⟩

end Sys2Proof.Machine
end

