-- ==== Sys2Proof/Laws/PerInstr.lean ====
section
/-! SUPPORT. Statements about every instruction, one lemma per constructor. -/

namespace Sys2Proof.Laws.EncodeWidth

/-- A symbol with legal operands is encoded in at least one byte and at most five (R5 VARINT_MAX, R62, R76). -/
def Statement (i : Instr) : Prop := i.operandsOk = true → 1 ≤ (encode i).length ∧ (encode i).length ≤ 5

/-- A legal varint has one to `k + 1` bytes (R62). -/
theorem varintShape_length {k : Nat} {bs : List Byte} (h : varintShape k bs = true) : 1 ≤ bs.length ∧ bs.length ≤ k + 1 := by
  induction k generalizing bs with
  | zero =>
    match bs, h with
    | [_], _ => simp
  | succ k ih =>
    match bs, h with
    | [_], _ => simp
    | b :: c :: r, h =>
      simp only [varintShape, Bool.and_eq_true] at h
      have := ih h.2
      simp at this ⊢; omega

theorem hdrAttr : Statement (.hdrAttr) := fun _ => by simp [encode]
theorem hdrTri (ver : BitVec 1) : Statement (.hdrTri ver) := fun _ => by simp [encode]
theorem hdrSeq (ver : BitVec 1) : Statement (.hdrSeq ver) := fun _ => by simp [encode]
theorem vbLast (group : BitVec 7) : Statement (.vbLast group) := fun _ => by simp [encode]
theorem vbCont (group : BitVec 7) : Statement (.vbCont group) := fun _ => by simp [encode]
theorem vbFifth (ignored groupLo : BitVec 4) : Statement (.vbFifth ignored groupLo) := fun _ => by simp [encode]
theorem varint (bytes : List Byte) : Statement (.varint bytes) := fun h => varintShape_length h
theorem free (bytes : List Byte) : Statement (.free bytes) := fun h => varintShape_length h
theorem seq (bytes : List Byte) : Statement (.seq bytes) := fun h => varintShape_length h
theorem triNewByte15 : Statement (.triNewByte15) := fun _ => by simp [encode]
theorem triNewByte0 : Statement (.triNewByte0) := fun _ => by simp [encode]
theorem triNewTable (j : Nibble) : Statement (.triNewTable j) := fun _ => by simp [encode]
theorem triEdgeFree (fe : Nibble) : Statement (.triEdgeFree fe) := fun _ => by simp [encode]
theorem triEdgeNext (fe : Nibble) : Statement (.triEdgeNext fe) := fun _ => by simp [encode]
theorem triEdgeDec (fe : Nibble) : Statement (.triEdgeDec fe) := fun _ => by simp [encode]
theorem triEdgeInc (fe : Nibble) : Statement (.triEdgeInc fe) := fun _ => by simp [encode]
theorem triEdgeFifo (fe fec : Nibble) : Statement (.triEdgeFifo fe fec) := fun _ => by simp [encode]
theorem caux (feb fec : Nibble) : Statement (.caux feb fec) := fun _ => by simp [encode]
theorem cauxRestart : Statement (.cauxRestart) := fun _ => by simp [encode]
theorem ghdr (s0 s1 s2 s3 : BitVec 2) : Statement (.ghdr s0 s1 s2 s3) := fun _ => by simp [encode]
theorem grpW0 : Statement (.grpW0) := fun _ => by simp [encode]
theorem grpW2 : Statement (.grpW2) := fun _ => by simp [encode]
theorem grpW4 : Statement (.grpW4) := fun _ => by simp [encode]
theorem grpW8 : Statement (.grpW8) := fun _ => by simp [encode]
theorem c2 (c0 c1 c2 c3 : BitVec 2) : Statement (.c2 c0 c1 c2 c3) := fun _ => by simp [encode]
theorem c4 (c0 c1 : Nibble) : Statement (.c4 c0 c1) := fun _ => by simp [encode]
theorem lit (v : Byte) : Statement (.lit v) := fun _ => by simp [encode]
theorem rsv (v : Byte) : Statement (.rsv v) := fun _ => by simp [encode]
theorem start (x : BitVec 31) : Statement (.start x) := fun _ => by simp [encode]

end Sys2Proof.Laws.EncodeWidth
end

