-- ==== Sys2Proof/Tests/Slice0.lean ====
section
/-! SUPPORT. Tests: ill-formed terms that WellFormed refuses; words written out from the spec's encodings; one step of each
instruction against spec/95_test_vectors.md (the vector's name stands in each docstring); and, for every obligation that has
hypotheses, a state and operands that meet them. -/

namespace Sys2Proof.Tests

-- The kernel evaluations below run one after another: each in its own thread, with a large stack, can exhaust memory.
set_option Elab.async false

open Sys2Proof.Machine Sys2Proof.Claims

/-! ### Helpers -/

/-- The bytes of a stream. -/
def bytes (ns : List Nat) : List Byte := ns.map (BitVec.ofNat 8)

/-- SRC with a stream at offset 0. -/
def srcOf (ns : List Nat) : Mem := Mem.writeBytes .src [] 0 (bytes ns)

/-- The bytes at position `c` decode to `i` and nothing is left. -/
def decodesTo (c : Ctx) (ns : List Nat) (i : Instr) : Bool :=
  match decode c (bytes ns) with
  | .ok (j, r) => j == i && r == []
  | .error _ => false

/-- The outcome is a next state that passes `p`. -/
def nextIs (o : Res) (p : State → Bool) : Bool :=
  match o with
  | .next t => p t
  | .fault _ => false
  | .refused _ => false

/-- The outcome is the end of the call with a status. -/
def endsWith (o : Res) (st : Status) : Bool :=
  nextIs o fun t => t.status == st.code && !t.busy && t.done && t.pos == .idle

/-- The bytes of DST from `a` on are those given. -/
def dstIs (t : State) (a : Nat) (ns : List Nat) : Bool :=
  (List.range ns.length).all fun i => t.dstByte (a + i) == some (BitVec.ofNat 8 (ns.getD i 0))

/-- A running call: mode, position, `N`, `E`, `L`, the stream. -/
def call (mode : Nat) (pos : Pos) (n e l : Nat) (ns : List Nat) (w : Work) : State :=
  { State.reset with
    busy := true, pos := pos, cfgMode := BitVec.ofNat 2 mode, cfgCount := BitVec.ofNat 32 n
    cfgElemsize := BitVec.ofNat 9 e, cfgSrclen := BitVec.ofNat 32 l, src := srcOf ns, w := w }

/-- The working registers after the triangle (0,1,2) of S1 (spec/95_test_vectors.md 2.5), with a given control byte next
and the payload from offset 3 on. -/
def w012 : Work :=
  { Work.reset with
    ver := 1, fecmax := 13, ccur := 2, dcur := 3, idx := 3, next := 3, last := 0, eoff := 3, voff := 3
    efA := #v[1, 2, 0, -1, -1, -1, -1, -1, -1, -1, -1, -1, -1, -1, -1, -1]
    efB := #v[0, 1, 2, -1, -1, -1, -1, -1, -1, -1, -1, -1, -1, -1, -1, -1]
    vf := #v[0, 1, 2, -1, -1, -1, -1, -1, -1, -1, -1, -1, -1, -1, -1, -1] }

/-- Two triangles, the second one due: payload at offset 3, a table whose entries 1, 2, 3 are 0x01, 0x0F, 0x12. -/
def tri (payload : List Nat) (w : Work := w012) (e : Nat := 4) : State :=
  call 1 .triangles 6 e (19 + payload.length)
    ([0xE1, 0xF0, 0x10] ++ payload ++ [0, 0x01, 0x0F, 0x12, 0, 0, 0, 0, 0, 0, 0, 0, 0, 0, 0, 0]) w

/-- A sequence call at its first index, the varint at offset 1. -/
def seqCall (ns : List Nat) (last0 last1 : Word) (e : Nat := 4) : State :=
  call 2 .sequence 1 e (5 + ns.length) (0xD1 :: ns) { Work.reset with dcur := 1, seqlast := #v[last0, last1] }

/-- An attribute call before a group, the group's bytes at offset 2. -/
def grp (ns : List Nat) : State :=
  call 0 .group 16 4 (2 + ns.length) ([0xA0, 0x00] ++ ns) { Work.reset with dcur := 2, hcur := 1 }

/-- The first bytes of RAW are those given. -/
def rawIs (t : State) (ns : List Nat) : Bool :=
  (List.range ns.length).all fun i => t.w.raw.getD i 0 == BitVec.ofNat 8 (ns.getD i 0)

/-! ### WellFormed refuses -/

theorem test_illformed_varint_empty : Instr.wellFormed .varint (.varint []) = false := by decide
theorem test_illformed_varint_unfinished : Instr.wellFormed .varint (.varint [0x80]) = false := by decide
theorem test_illformed_varint_goes_on : Instr.wellFormed .varint (.varint [0x00, 0x00]) = false := by decide
theorem test_illformed_free_six_bytes :
    Instr.wellFormed .free (.free [0x80, 0x80, 0x80, 0x80, 0x80, 0x00]) = false := by decide
theorem test_illformed_seq_unfinished : Instr.wellFormed .seq (.seq [0xFF, 0xFF]) = false := by decide
theorem test_illformed_table_index : Instr.wellFormed (.ctri false) (.triNewTable 14) = false := by decide
theorem test_illformed_edge_selector :
    Instr.wellFormed (.ctri false) (.triEdgeNext 15) = false ∧ Instr.wellFormed (.ctri false) (.triEdgeFree 15) = false ∧
    Instr.wellFormed (.ctri false) (.triEdgeDec 15) = false ∧ Instr.wellFormed (.ctri false) (.triEdgeInc 15) = false ∧
    Instr.wellFormed (.ctri true) (.triEdgeFifo 15 1) = false := by decide
theorem test_illformed_fifo_code :
    Instr.wellFormed (.ctri true) (.triEdgeFifo 0 0) = false ∧ Instr.wellFormed (.ctri true) (.triEdgeFifo 0 15) = false ∧
    Instr.wellFormed (.ctri false) (.triEdgeFifo 0 13) = false := by decide
theorem test_illformed_short_delta_in_v0 :
    Instr.wellFormed (.ctri true) (.triEdgeDec 0) = false ∧ Instr.wellFormed (.ctri true) (.triEdgeInc 0) = false := by decide
theorem test_illformed_restart :
    Instr.wellFormed (.caux true) (.caux 0 0) = false ∧ Instr.wellFormed (.caux false) .cauxRestart = false := by decide
theorem test_illformed_position :
    Instr.wellFormed (.ctri true) .hdrAttr = false ∧ Instr.wellFormed .header .triNewByte0 = false ∧
    Instr.wellFormed (.vb true) (.vbLast 0) = false ∧ Instr.wellFormed (.vb false) (.vbFifth 0 0) = false ∧
    Instr.wellFormed .ghdr .grpW0 = false ∧ Instr.wellFormed .sel (.ghdr 0 0 0 0) = false ∧
    Instr.wellFormed .c4 (.c2 0 0 0 0) = false ∧ Instr.wellFormed .c2 (.c4 0 0) = false ∧
    Instr.wellFormed .rsv (.lit 0) = false ∧ Instr.wellFormed .lit (.rsv 0) = false ∧
    Instr.wellFormed .lit (.start 0) = false ∧ Instr.wellFormed .free (.varint [0]) = false ∧
    Instr.wellFormed .varint (.free [0]) = false ∧ Instr.wellFormed .free (.seq [0]) = false := by decide

/-! ### Words written out from the encodings of spec/30_encoding.md -/

theorem test_word_hdrAttr : decodesTo .header [0xA0] .hdrAttr = true := by decide
theorem test_word_hdrTri : decodesTo .header [0xE0] (.hdrTri 0) = true ∧ decodesTo .header [0xE1] (.hdrTri 1) = true := by
  decide
theorem test_word_hdrSeq : decodesTo .header [0xD0] (.hdrSeq 0) = true ∧ decodesTo .header [0xD1] (.hdrSeq 1) = true := by
  decide
theorem test_word_bad_version : decode .header (bytes [0xA1]) = .error .badHeader ∧
    decode .header (bytes [0xE2]) = .error .badHeader ∧ decode .header (bytes [0xD2]) = .error .badHeader := ⟨rfl, rfl, rfl⟩
theorem test_word_vb : decodesTo (.vb false) [0x26] (.vbLast 0x26) = true ∧
    decodesTo (.vb false) [0xE5] (.vbCont 0x65) = true ∧ decodesTo (.vb true) [0x8F] (.vbFifth 8 15) = true := by decide
theorem test_word_varint : decodesTo .varint [0xE5, 0x8E, 0x26] (.varint [0xE5, 0x8E, 0x26]) = true ∧
    decodesTo .varint [0xFF, 0xFF, 0xFF, 0xFF, 0xFF] (.varint [0xFF, 0xFF, 0xFF, 0xFF, 0xFF]) = true := by decide
theorem test_word_free : decodesTo .free [0xC8, 0x01] (.free [0xC8, 0x01]) = true := by decide
theorem test_word_seq : decodesTo .seq [0xC1, 0x8B, 0x11] (.seq [0xC1, 0x8B, 0x11]) = true := by decide
theorem test_word_triNew : decodesTo (.ctri false) [0xFF] .triNewByte15 = true ∧
    decodesTo (.ctri true) [0xFE] .triNewByte0 = true ∧ decodesTo (.ctri false) [0xFD] (.triNewTable 13) = true ∧
    decodesTo (.ctri true) [0xF0] (.triNewTable 0) = true := by decide
theorem test_word_triEdge : decodesTo (.ctri false) [0x0F] (.triEdgeFree 0) = true ∧
    decodesTo (.ctri false) [0x10] (.triEdgeNext 1) = true ∧ decodesTo (.ctri false) [0xED] (.triEdgeDec 14) = true ∧
    decodesTo (.ctri false) [0x1E] (.triEdgeInc 1) = true ∧ decodesTo (.ctri false) [0x23] (.triEdgeFifo 2 3) = true ∧
    decodesTo (.ctri true) [0x1E] (.triEdgeFifo 1 14) = true := by decide
theorem test_word_caux : decodesTo (.caux true) [0xF0] (.caux 15 0) = true ∧ decodesTo (.caux true) [0x00] .cauxRestart = true ∧
    decodesTo (.caux false) [0x00] (.caux 0 0) = true := by decide
theorem test_word_ghdr : decodesTo .ghdr [0xE4] (.ghdr 0 1 2 3) = true := by decide
theorem test_word_sel : decodesTo .sel [0] .grpW0 = true ∧ decodesTo .sel [1] .grpW2 = true ∧
    decodesTo .sel [2] .grpW4 = true ∧ decodesTo .sel [3] .grpW8 = true := by decide
theorem test_word_codes : decodesTo .c2 [0x1B] (.c2 0 1 2 3) = true ∧ decodesTo .c4 [0x2F] (.c4 2 15) = true := by decide
theorem test_word_bytes : decodesTo .lit [0xA5] (.lit 0xA5) = true ∧ decodesTo .rsv [0xEE] (.rsv 0xEE) = true := by decide
theorem test_word_start : decodesTo .command [0x01, 0, 0, 0] (.start 0) = true ∧
    decodesTo .command [0xFF, 0xFF, 0xFF, 0xFF] (.start 0x7FFFFFFF) = true ∧
    decode .command (bytes [0xFE, 0xFF, 0xFF, 0xFF]) = .error .notStart := by refine ⟨by decide, by decide, rfl⟩

/-- The host's words: a command, a selector, a header byte, a control byte, a sequence symbol. -/
theorem test_table_words : decodeTableWord 32 1 = some (.start 0) ∧ decodeTableWord 2 2 = some .grpW4 ∧
    decodeTableWord 8 0xE1 = some (.hdrTri 1) ∧ decodeTableWord 8 0x10 = some (.triEdgeNext 1) ∧
    decodeTableWord 16 0x01C8 = some (.seq [0xC8, 0x01]) := by decide

/-- In the state of withFetchWord the next step runs the word's instruction: START, HDR.TRI, a group, a control byte, a
sequence symbol. -/
theorem test_withFetchWord :
    nextIs (step (State.reset.withFetchWord 32 1)) (fun t => t.cfgerr) = true ∧
    nextIs (step (State.reset.withFetchWord 8 0xE1)) (fun t => t.pos == .triangles && t.w.fecmax == 13) = true ∧
    nextIs (step (State.reset.withFetchWord 2 3)) (fun t => t.w.dcur == 18 && t.pos == .planeEnd) = true ∧
    nextIs (step (State.reset.withFetchWord 8 0x10)) (fun t => t.w.next == 1 && t.w.ccur == 2) = true ∧
    nextIs (step (State.reset.withFetchWord 8 0x14)) (fun t => t.w.ccur == 2) = true ∧
    nextIs (step (State.reset.withFetchWord 16 0x1FA1)) (fun t => slot2 t.w.seqlast 1 == 1000 && t.w.dcur == 3) = true := by
  decide +kernel

/-! ### One step of each instruction -/

/-- The header test of R178 and the tail-length test after it (K-vectors: `A0` with 32 more bytes begins, with 31 ends). -/
theorem test_hdrAttr :
    nextIs (step (call 0 .header 0 4 33 [0xA0] Work.reset)) (fun t => t.pos == .seed && t.w.dcur == 1) = true ∧
    endsWith (step (call 0 .header 0 4 32 [0xA0] Work.reset)) .truncated = true := by decide +kernel
/-- P1's header, and BadHeader for version 2 (X4). -/
theorem test_hdrTri :
    nextIs (step (call 1 .header 6 2 19 [0xE1, 0xF0, 0x10] Work.reset))
      (fun t => t.w.dcur == 3 && t.w.ccur == 1 && t.w.fecmax == 13 && slot16 t.w.vf 5 == 0xFFFFFFFF#32) = true ∧
    endsWith (step (call 1 .header 6 2 19 [0xE2, 0xF0, 0x10] Work.reset)) .badHeader = true := by decide +kernel
/-- P3's header, and P1 in Indices mode: BadHeader (P6). -/
theorem test_hdrSeq :
    nextIs (step (call 2 .header 6 2 14 [0xD1, 0x14] Work.reset)) (fun t => t.pos == .sequence && t.w.dcur == 1) = true ∧
    endsWith (step (call 2 .header 6 2 19 [0xE1, 0xF0] Work.reset)) .badHeader = true := by decide +kernel

/-- V8's last two bytes: 0x8E then 0x26 after 0x65. -/
theorem test_vbCont : nextIs (exec (.vbCont 0x0E) (call 1 .triangles 0 4 0 [] { Work.reset with vres := 0x65, vcnt := 1 }))
    (fun t => t.w.vres == 0x765#32 && t.w.vcnt == 2 && t.w.dcur == 1) = true := by decide +kernel
theorem test_vbLast : nextIs (exec (.vbLast 0x26) (call 1 .triangles 0 4 0 [] { Work.reset with vres := 0x765, vcnt := 2 }))
    (fun t => t.w.vres == 0x98765#32 && t.w.vcnt == 0) = true := by decide +kernel
/-- V15: the fifth byte `8F`. -/
theorem test_vbFifth : nextIs (exec (.vbFifth 8 15) (call 1 .triangles 0 4 0 [] { Work.reset with vres := 0, vcnt := 4 }))
    (fun t => t.w.vres == 0xF0000000#32 && t.w.vcnt == 0) = true := by decide +kernel
/-- V8, and V14: bit 4 of the fifth byte is dropped. -/
theorem test_varint :
    nextIs (exec (.varint (bytes [0xE5, 0x8E, 0x26])) (tri [])) (fun t => t.w.vres == 0x98765#32 && t.w.dcur == 6) = true ∧
    nextIs (exec (.varint (bytes [0x80, 0x80, 0x80, 0x80, 0x10])) (tri []))
      (fun t => t.w.vres == 0#32 && t.w.dcur == 8) = true := by decide +kernel
/-- Z9 and Z12. -/
theorem test_free :
    nextIs (exec (.free (bytes [0x0B])) (tri [] { w012 with last := 101 })) (fun t => t.w.last == 95#32) = true ∧
    nextIs (exec (.free (bytes [0xFF, 0xFF, 0xFF, 0xFF, 0x0F])) (tri [] { w012 with last := 0x80000000 }))
      (fun t => t.w.last == 0#32) = true := by decide +kernel
/-- Q7 and Q8. -/
theorem test_seq :
    nextIs (step (seqCall [0xFF, 0xFF, 0xFF, 0xFF, 0xFF] 0 0))
      (fun t => slot2 t.w.seqlast 1 == 0xC0000000#32 && slot2 t.w.seqlast 0 == 0#32 && dstIs t 0 [0, 0, 0, 0xC0]) = true ∧
    nextIs (step (seqCall [0xC1, 0x8B, 0x11] 0 998 2))
      (fun t => slot2 t.w.seqlast 1 == 70998#32 && dstIs t 0 [0x56, 0x15] && t.dstByte 2 == none) = true := by decide +kernel

/-- T18 and T17. -/
theorem test_triNewByte15 :
    nextIs (exec .triNewByte15 (tri [0xFF, 0x14, 0x02, 0x01]))
      (fun t => dstIs t 12 [10, 0, 0, 0, 11, 0, 0, 0, 10, 0, 0, 0] && t.w.last == 10#32 && t.w.next == 3#32 &&
        t.w.dcur == 7) = true ∧
    nextIs (exec .triNewByte15 (tri [0x00, 0x0E]))
      (fun t => dstIs t 12 [7, 0, 0, 0, 0, 0, 0, 0, 1, 0, 0, 0] && t.w.next == 2#32 && t.w.last == 7#32) = true := by
  decide +kernel
/-- T15 and T16. -/
theorem test_triNewByte0 :
    nextIs (exec .triNewByte0 (tri [0x00]))
      (fun t => dstIs t 12 [0, 0, 0, 0, 1, 0, 0, 0, 2, 0, 0, 0] && t.w.next == 3#32 && t.w.voff == 6) = true ∧
    nextIs (exec .triNewByte0 (tri [0x0F, 0x0A]))
      (fun t => dstIs t 12 [3, 0, 0, 0, 4, 0, 0, 0, 5, 0, 0, 0] && t.w.next == 5#32 && t.w.dcur == 5) = true := by
  decide +kernel
/-- T13 and T14. -/
theorem test_triNewTable :
    nextIs (exec (.triNewTable 1) (tri []))
      (fun t => dstIs t 12 [3, 0, 0, 0, 4, 0, 0, 0, 2, 0, 0, 0] && t.w.voff == 5 && slot16 t.w.efA 4 == 2#32 &&
        slot16 t.w.efB 4 == 4#32) = true ∧
    nextIs (exec (.triNewTable 3) (tri []))
      (fun t => dstIs t 12 [3, 0, 0, 0, 2, 0, 0, 0, 1, 0, 0, 0] && t.w.voff == 4 && t.w.next == 4#32) = true := by
  decide +kernel
/-- T10. -/
theorem test_triEdgeFree :
    nextIs (exec (.triEdgeFree 0) (tri [0xC8, 0x01]))
      (fun t => dstIs t 12 [0, 0, 0, 0, 2, 0, 0, 0, 100, 0, 0, 0] && t.w.last == 100#32 && t.w.dcur == 5 &&
        slot16 t.w.vf 3 == 100#32) = true := by decide +kernel
/-- T1 and T12. -/
theorem test_triEdgeNext :
    nextIs (exec (.triEdgeNext 1) (tri []))
      (fun t => dstIs t 12 [2, 0, 0, 0, 1, 0, 0, 0, 3, 0, 0, 0] && t.w.next == 4#32 && slot16 t.w.efA 3 == 3#32 &&
        slot16 t.w.efB 3 == 1#32 && slot16 t.w.efA 4 == 2#32 && t.w.eoff == 5) = true ∧
    nextIs (exec (.triEdgeNext 14) (tri []))
      (fun t => dstIs t 12 [255, 255, 255, 255, 255, 255, 255, 255, 3, 0, 0, 0]) = true := by decide +kernel
/-- T6: LAST - 1 wraps, and the value is narrowed at width 2. -/
theorem test_triEdgeDec :
    nextIs (exec (.triEdgeDec 0) (tri [] w012 2))
      (fun t => dstIs t 6 [0, 0, 2, 0, 0xFF, 0xFF] && t.w.last == 0xFFFFFFFF#32 && slot16 t.w.vf 3 == 0xFFFFFFFF#32) = true := by
  decide +kernel
/-- T7. -/
theorem test_triEdgeInc :
    nextIs (exec (.triEdgeInc 0) (tri []))
      (fun t => dstIs t 12 [0, 0, 0, 0, 2, 0, 0, 0, 1, 0, 0, 0] && t.w.last == 1#32 && t.w.voff == 4) = true := by
  decide +kernel
/-- T3 and T8. -/
theorem test_triEdgeFifo :
    nextIs (exec (.triEdgeFifo 0 1) (tri []))
      (fun t => dstIs t 12 [0, 0, 0, 0, 2, 0, 0, 0, 1, 0, 0, 0] && t.w.voff == 3 && t.w.next == 3#32) = true ∧
    nextIs (step { (tri [] { w012 with fecmax := 15 }) with src := srcOf [0xE0, 0xF0, 0x0D] })
      (fun t => dstIs t 12 [0, 0, 0, 0, 2, 0, 0, 0, 255, 255, 255, 255] && t.w.last == 0#32) = true := by decide +kernel
/-- T20's codeAux: from the table, a free `c`. -/
theorem test_caux :
    nextIs (exec (.caux 0 15) (tri [0x0A] { w012 with auxPay := false }))
      (fun t => dstIs t 12 [3, 0, 0, 0, 4, 0, 0, 0, 5, 0, 0, 0] && t.w.dcur == 4 && t.w.last == 5#32) = true := by
  decide +kernel
/-- T15's codeAux. -/
theorem test_cauxRestart :
    nextIs (exec .cauxRestart (tri [0x00] { w012 with next := 7 }))
      (fun t => dstIs t 12 [0, 0, 0, 0, 1, 0, 0, 0, 2, 0, 0, 0] && t.w.next == 3#32 && t.w.dcur == 4) = true := by
  decide +kernel

/-- G9's two header bytes. -/
theorem test_ghdr :
    nextIs (step (call 0 .groupHeader 80 4 60 [0xA0, 0xE4, 0x01] { Work.reset with dcur := 1, hcur := 1 }))
      (fun t => t.w.sel.getD 3 0 == 3 && t.w.sel.getD 2 0 == 2 && t.w.sel.getD 1 0 == 1 && t.pos == .groupHeader) = true ∧
    nextIs (step (call 0 .groupHeader 80 4 60 [0xA0, 0xE4, 0x01] { Work.reset with dcur := 2, hcur := 1 }))
      (fun t => t.w.sel.getD 4 0 == 1 && t.w.dcur == 3 && t.pos == .group) = true := by decide +kernel
/-- G1. -/
theorem test_grpW0 :
    nextIs (exec .grpW0 (grp [])) (fun t => rawIs t [0, 0, 0, 0, 0, 0, 0, 0, 0, 0, 0, 0, 0, 0, 0, 0] && t.w.dcur == 2) = true := by
  decide +kernel
/-- G3, and the largest width-2 group G4 in exactly its 20 bytes. -/
theorem test_grpW2 :
    nextIs (exec .grpW2 (grp [0x00, 0xC0, 0x03, 0x24, 0x55, 0x66]))
      (fun t => rawIs t [0, 0, 0, 0, 0x55, 0, 0, 0, 0, 0, 0, 0x66, 0, 2, 1, 0] && t.w.dcur == 8) = true ∧
    nextIs (exec .grpW2 (grp ([0xFF, 0xFF, 0xFF, 0xFF] ++ List.range 16)))
      (fun t => rawIs t (List.range 16) && t.w.dcur == 22) = true := by decide +kernel
/-- G6, and the largest group of all G7, one byte short: Truncated (R46). -/
theorem test_grpW4 :
    nextIs (exec .grpW4 (grp [0x01, 0x23, 0x45, 0x67, 0x89, 0xAB, 0xCD, 0xEF, 0x77]))
      (fun t => rawIs t [0, 1, 2, 3, 4, 5, 6, 7, 8, 9, 10, 11, 12, 13, 14, 0x77] && t.w.dcur == 11) = true ∧
    endsWith (exec .grpW4 (grp (List.replicate 8 0xFF ++ List.range 15))) .truncated = true := by decide +kernel
/-- G8. -/
theorem test_grpW8 :
    nextIs (exec .grpW8 (grp (List.range 16))) (fun t => rawIs t (List.range 16) && t.w.dcur == 18) = true := by decide +kernel
/-- G2's first control byte `1B`, and the byte `C0` of R109's example. -/
theorem test_c2 :
    nextIs (exec (.c2 0 1 2 3) { grp [0x1B, 0, 0, 0, 7] with w := { Work.reset with ext := 6 } })
      (fun t => rawIs t [0, 1, 2, 7] && t.w.lane == 4 && t.w.ext == 7) = true ∧
    endsWith (exec (.c2 3 0 0 0) { grp [0xC0] with w := { Work.reset with ext := 3 } }) .truncated = true := by decide +kernel
/-- G5's first control byte `2F`. -/
theorem test_c4 :
    nextIs (exec (.c4 2 15) { grp [0x2F, 0xFF] with w := { Work.reset with ext := 3 } })
      (fun t => rawIs t [2, 0xFF] && t.w.lane == 2) = true := by decide +kernel
/-- P4's seed byte `30`, third of four; and a literal byte of a group. -/
theorem test_lit :
    nextIs (exec (.lit 0x30) (call 0 .seed 3 4 67 [] { Work.reset with lane := 2 }))
      (fun t => t.w.pred.getD 2 0 == 0x30#8 && t.w.lane == 3 && t.pos == .seed) = true ∧
    nextIs (exec (.lit 0x77) (grp [])) (fun t => t.w.raw.getD 0 0 == 0x77#8 && t.w.lane == 1) = true := by decide +kernel
/-- A reserved byte changes nothing. -/
theorem test_rsv : exec (.rsv 0xEE) State.reset = .next State.reset := rfl

/-- An idle block with a configuration. -/
def idleCfg (mode filter n e l : Nat) : State :=
  { State.reset with
    cfgMode := BitVec.ofNat 2 mode, cfgFilter := BitVec.ofNat 2 filter, cfgCount := BitVec.ofNat 32 n
    cfgElemsize := BitVec.ofNat 9 e, cfgSrclen := BitVec.ofNat 32 l }

/-- K8 refused, K9 refused before the filter test, K10 BadFilter. -/
theorem test_start_refused :
    nextIs (exec (.start 0) (idleCfg 0 0 0x40000000 4 0)) (fun t => t.cfgerr && !t.busy && !t.done) = true ∧
    nextIs (exec (.start 0) (idleCfg 1 1 4 2 0)) (fun t => t.cfgerr && !t.busy && !t.done) = true ∧
    endsWith (exec (.start 0) (idleCfg 1 1 3 2 0)) .badFilter = true := by decide +kernel
/-- P1's START. -/
theorem test_start_accepted :
    nextIs (exec (.start 0) (idleCfg 1 0 6 2 19)) (fun t => t.busy && t.pos == .header && !t.cfgerr) = true := by decide +kernel

/-- B2: the plane bytes of six raw bytes. -/
theorem test_plane :
    nextIs (step (call 0 .planeEnd 6 4 40 [] { Work.reset with
        raw := (((((Work.reset.raw.setIfInBounds 0 2).setIfInBounds 1 0xFF).setIfInBounds 2 1).setIfInBounds 4
          4).setIfInBounds 5 3)
        pred := Work.reset.pred.setIfInBounds 0 0x30 }))
      (fun t => t.w.trans.getD 0 0 == 0x31#8 && t.w.trans.getD 4 0 == 0xB1#8 && t.w.trans.getD 8 0 == 0xB0#8 &&
        t.w.trans.getD 16 0 == 0xB2#8 && t.w.trans.getD 20 0 == 0xB0#8 && t.w.plane == 1) = true := by decide +kernel

/-! ### Witnesses: for every obligation with hypotheses, a state and operands that meet them, clause by clause -/

/-- Two buffers that share one physical address, and the same with the destination one address further. -/
def overlapping (base : Nat) : State :=
  { idleCfg 1 0 6 2 19 with par := { Config.defaults with dstBase := base } }

/-- The first triangle of P1, its control byte due. -/
def p1 : State :=
  call 1 .triangles 6 2 19 [0xE1, 0xF0, 0x10, 0, 1, 0x10, 0x12]
    { Work.reset with ver := 1, fecmax := 13, ccur := 1, dcur := 3 }

/-- P1 after its last triangle. -/
def p1End : State :=
  { p1 with
    w := { p1.w with ccur := 3, idx := 6 }
    dst := Mem.writeBytes .dst [] 0 (bytes [0, 0, 1, 0, 2, 0, 2, 0, 1, 0, 3, 0]) }

/-- An attribute call of one vertex of four bytes at a position. -/
def attr1 (pos : Pos) (w : Work) : State := call 0 pos 1 4 67 [0xA0, 1] w

theorem inv_intro {s : State} (hf : (s.busy, s.done, s.cfgerr) = (true, false, false)) (hs : s.status = 0)
    (hm : Mem.wf .src s.src = true ∧ Mem.wf .dst s.dst = true ∧ (∀ c ∈ s.src, c.1 < Config.lenLimit) ∧
      (∀ c ∈ s.dst, c.1 < Config.lenLimit)) (hp : s.pos ≠ .idle) (hc : s.configLegal = true) : s.Inv := by
  simp only [Prod.mk.injEq] at hf
  obtain ⟨hb, hd, he⟩ := hf
  exact ⟨by simp [State.flagsExclusive, hb, hd, he], ⟨⟨.ok, hs⟩, fun _ => hs⟩, hm, by simp [hb, hp], fun _ => hc⟩

/-- P1 meets the invariants that the statements about a running call assume. -/
theorem p1_ok : p1.Inv ∧ p1.callOk ∧ p1.running ∧ 24 ≤ p1.par.groupMargin ∧ p1.produced :=
  ⟨inv_intro rfl rfl (by decide +kernel) (by decide) (by decide +kernel),
    (by decide +kernel : p1.cfgMode = 1#2 ∧ 1 + p1.t + Config.auxTable ≤ p1.l ∧ 1 ≤ p1.w.ccur ∧ p1.w.ccur ≤ 1 + p1.t ∧
      p1.w.idx = 3 * (p1.w.ccur - 1) ∧ p1.w.dcur ≤ p1.l),
    ⟨rfl, rfl⟩, by decide, fun _ _ a ha => absurd ha (by simp [p1, call, State.e, Work.reset])⟩

theorem p1End_ok : p1End.Inv ∧ p1End.callOk ∧ p1End.running :=
  ⟨inv_intro rfl rfl (by decide +kernel) (by decide) (by decide +kernel),
    (by decide +kernel : p1End.cfgMode = 1#2 ∧ 1 + p1End.t + Config.auxTable ≤ p1End.l ∧ 1 ≤ p1End.w.ccur ∧
      p1End.w.ccur ≤ 1 + p1End.t ∧ p1End.w.idx = 3 * (p1End.w.ccur - 1) ∧ p1End.w.dcur ≤ p1End.l),
    ⟨rfl, rfl⟩⟩

theorem attrOk_intro {s : State} (h : s.cfgMode = 0#2 ∧ tailSize s.e ≤ s.l - 1 ∧ s.w.blk ≤ s.n ∧ s.w.idx = s.w.blk ∧
    s.w.dcur ≤ s.l) : s.attrOk := h

/-- DecodeOfEncodedSymbol: the longest varint, the last table index, the largest FIFO code of each version. -/
theorem witness_DecodeOfEncodedSymbol :
    Instr.wellFormed .varint (.varint [0x80, 0x80, 0x80, 0x80, 0xFF]) = true ∧
    Instr.wellFormed (.ctri false) (.triNewTable 13) = true ∧ Instr.wellFormed (.ctri false) (.triEdgeFifo 14 12) = true ∧
    Instr.wellFormed (.ctri true) (.triEdgeFifo 14 14) = true ∧ Instr.wellFormed .command (.start 0) = true := by decide

/-- EncodingOfDecodedSymbol: a header byte, and a selector's byte with its upper bits set. -/
theorem witness_EncodingOfDecodedSymbol :
    decode .header [0xA0#8] = .ok (.hdrAttr, []) ∧ decode .sel [0xFE#8] = .ok (.grpW4, []) := ⟨rfl, rfl⟩

/-- HeaderByteIsChecked: a stream of exactly the least length, with a legal and an illegal header byte. -/
theorem witness_HeaderByteIsChecked :
    let s := call 1 .header 0 2 17 [0xE1] Work.reset
    let u := call 0 .header 0 4 1 [0xA1] Work.reset
    let v := call 2 .header 1 2 6 [0xD1] Work.reset
    s.running ∧ s.pos = .header ∧ s.cfgMode = 1#2 ∧ 1 + s.n / 3 + 16 = s.l ∧ s.srcByte 0 = 0xE1#8 ∧
    u.running ∧ u.pos = .header ∧ u.cfgMode = 0#2 ∧ 1 = u.l ∧ u.srcByte 0 = 0xA1#8 ∧
    v.running ∧ v.pos = .header ∧ v.cfgMode = 2#2 ∧ 1 + v.n + 4 = v.l ∧ v.srcByte 0 = 0xD1#8 :=
  ⟨⟨rfl, rfl⟩, rfl, rfl, by decide +kernel, by decide +kernel, ⟨rfl, rfl⟩, rfl, rfl, by decide +kernel, by decide +kernel,
    ⟨rfl, rfl⟩, rfl, rfl, by decide +kernel, by decide +kernel⟩

/-- ControlByteMap: the bounds of its ranges. -/
theorem witness_ControlByteMap :
    (14#4 : Nibble) ≠ 15#4 ∧ 1 ≤ (1#4).toNat ∧ (12#4).toNat ≤ 12 ∧ (13#4).toNat ≤ 13 := by decide

/-- OnlyHeaderBytesCanBeIllegal: no byte at all, and four bytes of an unfinished varint. -/
theorem witness_OnlyHeaderBytesCanBeIllegal :
    decode .lit [] = .error .endOfBytes ∧ decode .seq (bytes [0x80, 0x80, 0x80, 0xFF]) = .error .endOfBytes := ⟨rfl, rfl⟩

/-- StepRunsDecodedSymbol. -/
theorem witness_StepRunsDecodedSymbol :
    p1.host = [] ∧ due p1 = .symbol (.ctri false) [0xF0#8] ∧ decode (.ctri false) [0xF0#8] = .ok (.triNewTable 0, []) :=
  ⟨rfl, by decide +kernel, rfl⟩

/-- StepFetchesAtTheCursors, clause by clause, each at the last byte its test admits. -/
theorem witness_StepFetchesAtTheCursors :
    (p1.host = [] ∧ p1.pos = .triangles ∧ p1.w.ccur < 1 + p1.n / 3 ∧ p1.w.dcur = p1.l - 16 ∧ p1.w.ccur < p1.l) ∧
    (let s := seqCall [0x14] 0 0
     s.pos = .sequence ∧ s.w.idx < s.n ∧ s.w.dcur + 1 = s.l - 4 ∧ vbyte s s.w.dcur = some (0x14#32, s.w.dcur + 1)) ∧
    (let s := call 0 .seed 1 4 33 [0xA0] { Work.reset with lane := 3 }
     s.pos = .seed ∧ s.l - s.e + s.w.lane + 1 = s.l) ∧
    (let s := call 0 .groupHeader 1 4 34 [0xA0] { Work.reset with dcur := 33 }
     s.pos = .groupHeader ∧ s.w.dcur + 1 = s.l) ∧
    (let s := call 0 .group 1 4 34 [0xA0] { Work.reset with dcur := 10 }
     s.pos = .group ∧ s.l - s.w.dcur = s.par.groupMargin) := by decide +kernel

/-- CtrlWriteIsStart: a word with bit 0 set and one without. -/
theorem witness_CtrlWriteIsStart :
    ({ State.reset with host := [.writeReg 0 0xFFFFFFFF] }).host = .writeReg 0 0xFFFFFFFF#32 :: [] ∧
    bits 0 1 (0xFFFFFFFF#32) = 1#1 ∧ bits 0 1 (0xFFFFFFFE#32) = 0#1 := by decide

/-- HardwareResetOfRegisters: a reset during a decode and one of an idle block. -/
theorem witness_HardwareResetOfRegisters :
    ({ p1 with host := [.reset] }).host = .reset :: [] ∧ ({ p1 with host := [.reset] }).busy = true ∧
    ({ State.reset with host := [.reset] }).busy = false := by decide +kernel

/-- ResetBlockIsIdle. -/
theorem witness_ResetBlockIsIdle : State.reset.pos = .idle ∧ State.reset.host = [] ∧ 8 ≤ 8 := by decide

/-- HostWritesWhileBusy: the first and the last register, and each access to a buffer. -/
theorem witness_HostWritesWhileBusy :
    p1.busy = true ∧ ({ p1 with host := [.writeReg 0 1] }).host = .writeReg 0 1 :: [] ∧
    ({ p1 with host := [.writeReg 8 1] }).host = .writeReg 8 1 :: [] ∧
    ({ p1 with host := [.writeSrc 0 0] }).host = .writeSrc 0 0 :: [] ∧
    ({ p1 with host := [.writeDst 0 0] }).host = .writeDst 0 0 :: [] ∧
    ({ p1 with host := [.readDst 0] }).host = .readDst 0 :: [] := by decide +kernel

/-- CfgRegistersReadBack: the first and the last CFG register. -/
theorem witness_CfgRegistersReadBack :
    State.reset.busy = false ∧ ({ State.reset with host := [.writeReg 3 7] }).host = .writeReg 3 7 :: [] ∧
    ({ State.reset with host := [.writeReg 7 7] }).host = .writeReg 7 7 :: [] ∧ 3 ≤ 3 ∧ 7 ≤ 7 := by decide

/-- HostAccesses: the first and the last register, of an idle and of a running block; the last offset of SRC and DST there can
be, and the first that does not exist. -/
theorem witness_HostAccesses :
    ({ State.reset with host := [.readReg 0] }).host = .readReg 0 :: [] ∧
    ({ State.reset with host := [.readReg 8], busy := true }).host = .readReg 8 :: [] ∧ 0 ≤ 8 ∧ 8 ≤ 8 ∧
    (let s := { State.reset with host := [.readDst 4294967295], dst := [(4294967295, 7#8)] }
     s.host = .readDst 4294967295 :: [] ∧ s.busy = false ∧ 4294967295 < 2 ^ 32) ∧
    (let s := { State.reset with host := [.writeSrc 4294967295 0], src := [(4294967295, 7#8)] }
     s.host = .writeSrc 4294967295 0 :: [] ∧ s.busy = false ∧ Mem.wf .src s.src = true) ∧
    ({ State.reset with host := [.writeDst 0 9] }).host = .writeDst 0 9 :: [] ∧
    ({ State.reset with host := [.writeDst 4294967296 9] }).host = .writeDst 4294967296 9 :: [] ∧ 2 ^ 32 ≤ 4294967296 := by
  decide

/-- R10, R176: FILTER_OUT reads as what an accepted START has latched. -/
theorem test_filter_out_reads_the_latched_filter :
    nextIs (step { State.reset with host := [.readReg 8], filterOut := 3#2 }) (fun t => t.rdata == 3#32) = true := by decide

theorem overlapping_19_apart : ¬ SharedAddress (overlapping 19) := by
  rintro ⟨p, -, h1, h2, -⟩
  have e1 : (overlapping 19).par.srcBase + (overlapping 19).l = 19 := by decide +kernel
  have e2 : (overlapping 19).par.dstBase = 19 := rfl
  omega

/-- StartBeginsDecode: a destination right after the stream's last byte, and one that starts on it; the other filters of
R176's table. -/
theorem witness_StartBeginsDecode :
    (let s := overlapping 19
     s.busy = false ∧ s.configLegal = true ∧ FilterCase s ∧ ¬ SharedAddress s) ∧
    (let s := overlapping 18; s.busy = false ∧ s.configLegal = true ∧ SharedAddress s) ∧
    (idleCfg 0 1 1 8 0).configLegal = true ∧ FilterCase (idleCfg 0 1 1 8 0) ∧ FilterCase (idleCfg 0 2 1 8 0) ∧
    FilterCase (idleCfg 0 3 1 12 0) :=
  ⟨⟨rfl, by decide +kernel, .inl rfl, overlapping_19_apart⟩, ⟨rfl, by decide +kernel, 18, by decide +kernel⟩,
    by decide +kernel, .inr (.inl (by decide +kernel)), .inr (.inr (.inl (by decide +kernel))),
    .inr (.inr (.inr (by decide +kernel)))⟩

/-- StartRefusesIllegalConfiguration: the reset state; element size 260 (K7). -/
theorem witness_StartRefusesIllegalConfiguration :
    State.reset.busy = false ∧ State.reset.configLegal = false ∧ (idleCfg 0 0 1 260 0).configLegal = false := by decide +kernel

/-- StartWithIllegalFilter: K12, Octahedral with twelve bytes, and an empty stream, which shares no address. -/
theorem witness_StartWithIllegalFilter :
    let s := idleCfg 0 1 1 12 0
    s.busy = false ∧ s.configLegal = true ∧ ¬ SharedAddress s ∧ ¬ FilterCase s := by
  refine ⟨rfl, by decide +kernel, ?_, by unfold FilterCase; decide +kernel⟩
  rintro ⟨p, h0, h1, -⟩
  have e1 : (idleCfg 0 1 1 12 0).par.srcBase + (idleCfg 0 1 1 12 0).l = (idleCfg 0 1 1 12 0).par.srcBase := by decide +kernel
  omega

/-- HdrAttrBeginsDecode: a stream with exactly the tail after its header, and one byte less. -/
theorem witness_HdrAttrBeginsDecode :
    (let s := call 0 .header 0 4 33 [0xA0] Work.reset; s.cfgMode = 0#2 ∧ max 32 s.e = s.l - 1) ∧
    (let s := call 0 .header 0 4 32 [0xA0] Work.reset; s.cfgMode = 0#2 ∧ s.l - 1 < max 32 s.e) := by decide +kernel

/-- HdrTriBeginsDecode and HdrSeqBeginsDecode. -/
theorem witness_HdrTriBeginsDecode_HdrSeqBeginsDecode :
    p1.cfgMode = 1#2 ∧ (seqCall [0x14] 0 0).cfgMode = 2#2 := by decide +kernel

/-- VarintValueAndLength, FreeIndexUpdatesLast, SeqSymbolWritesIndex: a five-byte varint that ends on the last byte of the
stream, and the last index of a call. -/
theorem witness_VarintValueAndLength_FreeIndexUpdatesLast_SeqSymbolWritesIndex :
    let s := call 2 .sequence 1 4 6 [0xD1, 0xFF, 0xFF, 0xFF, 0xFF, 0xFF] { Work.reset with dcur := 1 }
    vbyte s s.w.dcur = some (0xFFFFFFFF#32, 6) ∧ (s.w.idx + 1) * s.e = s.n * s.e ∧
    vbyte { s with cfgSrclen := 5 } s.w.dcur = none := by decide +kernel

/-- VarintIsItsBytes. -/
theorem witness_VarintIsItsBytes :
    p1.w.vcnt = 0 ∧ (Instr.varint [0x80, 0x80, 0x80, 0x80, 0x8F]).wellFormed .varint = true := by decide +kernel

/-- VarintReadsAtMostFiveBytes: one byte, and exactly five. -/
theorem witness_VarintReadsAtMostFiveBytes :
    splitVarint 4 (bytes [0x00]) = some (bytes [0x00], []) ∧ 5 ≤ (bytes [0xFF, 0xFF, 0xFF, 0xFF, 0xFF]).length := by decide

/-- The triangle statements: the last triangle of a call has room; a free index that ends on the last byte of the stream, and
one that does not end. -/
theorem witness_Triangles :
    (RoomForTriangle (tri []) ∧ ((tri []).w.idx + 3) * (tri []).e = (tri []).n * (tri []).e) ∧
    (let s := call 1 .triangles 6 4 5 [0xE1, 0, 0, 0x80, 0x01] w012
     vbyte s s.w.dcur = some (0x80#32, s.l) ∧ RoomForTriangle s) ∧
    (let s := call 1 .triangles 6 4 5 [0xE1, 0, 0, 0x80, 0x80] w012; vbyte s s.w.dcur = none) := by
  unfold RoomForTriangle; decide +kernel

/-- TriNewTableTriangle: the last byte of a stream as table entry; the three vertices resolve. -/
theorem witness_TriNewTableTriangle :
    (tri []).l - 16 + (15#4).toNat + 1 = (tri []).l ∧
    (passAll (tri []) 0 1 2 ⟨3, 0, 3⟩).isSome = true ∧ RoomForTriangle (tri []) := by unfold RoomForTriangle; decide +kernel

/-- TriNewByteTriangle: the codeAux is the last byte of the stream (vertices resolve; a free one does not), or past it. -/
theorem witness_TriNewByteTriangle :
    (let s := call 1 .triangles 6 4 4 [0xE1, 0, 0, 0x00] w012
     s.w.dcur + 1 = s.l ∧ (passAll s 0 0 0 ⟨0, 0, 4⟩).isSome = true ∧ passAll s 15 0 0 ⟨0, 0, 4⟩ = none ∧
       RoomForTriangle s) ∧
    (let s := call 1 .triangles 6 4 3 [0xE1, 0, 0] w012; s.l = s.w.dcur) := by unfold RoomForTriangle; decide +kernel

/-- CauxResolvesInOnePass and RestartResetsNext. -/
theorem witness_CauxResolvesInOnePass_RestartResetsNext :
    (tri [0]).w.fea = 0#4 ∧ RoomForTriangle (tri [0]) ∧ (passAll (tri [0]) 0 15 15 ⟨3, 0, 3⟩).isSome = true ∧
    (passAll (tri [0]) 0 0 0 ⟨0, 0, 4⟩).isSome = true := by unfold RoomForTriangle; decide +kernel

/-- NewTriangleRunsItsCodeAux: the codeAux is the last byte of the stream, in the payload and in the table. -/
theorem witness_NewTriangleRunsItsCodeAux :
    (let s := call 1 .triangles 6 4 4 [0xE1, 0, 0, 0x00] w012; s.w.dcur + 1 = s.l) ∧
    (tri []).l - 16 + (15#4).toNat + 1 = (tri []).l := by decide +kernel

/-- TriangleReadsAtMostSixteenBytes: T19, which takes all sixteen. -/
theorem witness_TriangleReadsAtMostSixteenBytes :
    let s := tri [0xFF, 0xFF, 0xFF, 0xFF, 0xFF, 0x0F, 0x80, 0x80, 0x80, 0x80, 0x00, 0x81, 0x80, 0x80, 0x80, 0x00]
    Instr.triNewByte15.wellFormed (.ctri false) = true ∧ s.busy = true ∧
    nextIs (exec .triNewByte15 s) (fun t => t.busy && t.w.dcur == s.w.dcur + 16 && t.w.last == 0x7FFFFFFF#32) = true := by
  decide +kernel

/-- GhdrLatchesSelectors: a header byte before the last, and the last. -/
theorem witness_GhdrLatchesSelectors :
    (let s := call 0 .groupHeader 80 4 60 [0xA0] { Work.reset with dcur := 1, hcur := 1 }
     s.w.dcur - s.w.hcur + 1 < s.headers) ∧
    (let s := call 0 .groupHeader 80 4 60 [0xA0] { Work.reset with dcur := 2, hcur := 1 }
     s.headers = s.w.dcur - s.w.hcur + 1) := by decide +kernel

/-- SelectorsAreTheHeaderBytes: a run at its last header byte. -/
theorem witness_SelectorsAreTheHeaderBytes :
    let s := attr1 .groupHeader { Work.reset with dcur := 1, hcur := 1 }
    s.Inv ∧ s.callOk ∧ s.running ∧ selectorsOk s ∧ nextIs (step s) (fun t => t.pos == .group) = true :=
  ⟨inv_intro rfl rfl (by decide +kernel) (by decide) (by decide +kernel),
    ⟨attrOk_intro (by decide +kernel), by decide +kernel, by decide +kernel, by decide +kernel, by decide +kernel,
      by decide +kernel⟩,
    ⟨rfl, rfl⟩, fun g hg => absurd hg (by simp [attr1, call]), by decide +kernel⟩

/-- GroupsW0AndW8 and GroupsW2AndW4: the last group of a run, its bytes the last of the stream, and one byte short. -/
theorem witness_Groups :
    (let s := { grp (List.range 16) with w := { Work.reset with dcur := 2, grp := 15 } }
     s.w.grp < 16 ∧ s.w.dcur + 16 = s.l) ∧
    (grp (List.range 15)).l < (grp (List.range 15)).w.dcur + 16 ∧
    (let s := grp ([0xFF, 0xFF, 0xFF, 0xFF] ++ List.range 16)
     s.w.dcur + (4 + countBefore (sentinel2 s) 16) = s.l) ∧
    (let s := grp ([0xFF, 0xFF, 0xFF, 0xFF] ++ List.range 15)
     s.l < s.w.dcur + (4 + countBefore (sentinel2 s) 16)) ∧
    (let s := grp (List.replicate 8 0xFF ++ List.range 16)
     s.w.dcur + (8 + countBefore (sentinel4 s) 16) = s.l) ∧
    (let s := grp (List.replicate 8 0xFF ++ List.range 15)
     s.l < s.w.dcur + (8 + countBefore (sentinel4 s) 16)) := by decide +kernel

/-- ControlByteLanes: the last lanes of RAW; no sentinel; sentinels up to the last byte of the stream, and past it. -/
theorem witness_ControlByteLanes :
    (let s := { grp [1, 2] with w := { Work.reset with grp := 15, lane := 12, ext := 2 } }
     16 * s.w.grp + s.w.lane + 4 = 256 ∧ s.w.ext + 2 = s.l ∧ s.l < s.w.ext + 3) ∧
    countBefore (fun i => ([false, false].getD i false)) 2 = 0 ∧ countBefore (fun i => ([true, true].getD i false)) 2 = 2 := by
  decide +kernel

/-- LiteralByteIsTakenVerbatim: the last byte of RAW, the last seed byte. -/
theorem witness_LiteralByteIsTakenVerbatim :
    (let s := { grp [] with w := { Work.reset with grp := 15, lane := 15 } }
     s.pos ≠ .seed ∧ 16 * s.w.grp + s.w.lane + 1 = 256) ∧
    (let s := call 0 .seed 1 256 300 [] { Work.reset with lane := 255 }; s.pos = .seed ∧ s.w.lane + 1 = 256) := by
  decide +kernel

/-- BlockSizeFitsScratch: the ends of its range. -/
theorem witness_BlockSizeFitsScratch : 4 % 4 = 0 ∧ 256 % 4 = 0 ∧ blockSize 4 = 256 ∧ blockSize 256 = 32 := by decide

/-- PlaneReconstruction: a run whose header byte is the last byte of the stream; BlockIsCopiedToDst: the last block. -/
theorem witness_BlockAndRunBegin :
    (let s := call 0 .runTop 1 4 34 [0xA0] { Work.reset with dcur := 33 }
     s.host = [] ∧ s.pos = .runTop ∧ (s.groups + 3) / 4 = s.l - s.w.dcur) ∧
    (let s := call 0 .blockTop 1 4 34 [0xA0] Work.reset
     s.host = [] ∧ s.pos = .blockTop ∧ s.w.blk + 1 = s.n) := by decide +kernel

/-- PlaneReconstruction: the last plane of a block; BlockIsCopiedToDst: a block. -/
theorem witness_PlaneReconstruction_BlockIsCopiedToDst :
    (let s := attr1 .planeEnd { Work.reset with dcur := 5, plane := 3 }
     s.Inv ∧ s.callOk ∧ s.running ∧ s.pos = .planeEnd) ∧
    (let s := attr1 .blockEnd { Work.reset with dcur := 5, plane := 4 }
     s.Inv ∧ s.callOk ∧ s.running ∧ s.pos = .blockEnd) :=
  ⟨⟨inv_intro rfl rfl (by decide +kernel) (by decide) (by decide +kernel),
      ⟨attrOk_intro (by decide +kernel), by decide +kernel, by decide +kernel⟩, ⟨rfl, rfl⟩, rfl⟩,
    ⟨inv_intro rfl rfl (by decide +kernel) (by decide) (by decide +kernel),
      ⟨attrOk_intro (by decide +kernel), by decide +kernel⟩, ⟨rfl, rfl⟩, rfl⟩⟩

/-- LookaheadTestsTruncate: in each clause the largest case that still fails the test. -/
theorem witness_LookaheadTestsTruncate :
    (let s := call 0 .header 0 4 0 [] Work.reset; s.host = [] ∧ s.pos = .header ∧ s.cfgMode = 0#2 ∧ s.l < 1) ∧
    (let s := call 1 .header 6 2 18 [] Work.reset; s.pos = .header ∧ s.cfgMode = 1#2 ∧ s.l + 1 = 1 + s.n / 3 + 16) ∧
    (let s := call 2 .header 6 2 10 [] Work.reset; s.pos = .header ∧ s.cfgMode = 2#2 ∧ s.l + 1 = 1 + s.n + 4) ∧
    (let s := { p1 with w := { p1.w with ccur := 2, dcur := 4 } }
     s.pos = .triangles ∧ s.w.ccur < 1 + s.n / 3 ∧ s.l - 16 + 1 = s.w.dcur) ∧
    (let s := { seqCall [0x14] 0 0 with w := { Work.reset with dcur := 2 } }
     s.pos = .sequence ∧ s.w.idx < s.n ∧ s.l - 4 = s.w.dcur) ∧
    (let s := call 0 .runTop 80 4 60 [] { Work.reset with dcur := 59 }
     s.pos = .runTop ∧ s.l - s.w.dcur + 1 = (s.groups + 3) / 4) ∧
    (let s := call 0 .group 1 4 67 [] { Work.reset with dcur := 44 }
     s.pos = .group ∧ s.l - s.w.dcur + 1 = s.par.groupMargin) := by decide +kernel

/-- FinalCursorTests: each decoder after its last element. -/
theorem witness_FinalCursorTests :
    (p1End.host = [] ∧ p1End.pos = .triangles ∧ 1 + p1End.n / 3 = p1End.w.ccur ∧ p1End.w.dcur = p1End.l - 16) ∧
    (let s := { seqCall [0x14] 0 0 with w := { Work.reset with dcur := 2, idx := 1 } }
     s.pos = .sequence ∧ s.n = s.w.idx ∧ s.w.dcur = s.l - 4) ∧
    (let s := call 0 .blockTop 1 4 37 [] { Work.reset with dcur := 5, blk := 1, idx := 1 }
     s.pos = .blockTop ∧ s.n = s.w.blk ∧ s.l - s.w.dcur = max 32 s.e) := by decide +kernel

/-- EndOfCallEffects: a status that is Ok and one that is not; a byte below and one at the end of DST. -/
theorem witness_EndOfCallEffects :
    Status.truncated ≠ Status.ok ∧ 11 < p1End.n * p1End.e ∧ p1End.n * p1End.e = 12 := by decide +kernel

/-- EveryCallEndsByOneOperation, OkDecodeCoversDst: P1's last step ends its call with Ok. -/
theorem witness_EveryCallEndsByOneOperation :
    p1End.Inv ∧ p1End.callOk ∧ p1End.running ∧ endsWith (step p1End) .ok = true :=
  ⟨p1End_ok.1, p1End_ok.2.1, p1End_ok.2.2, by decide +kernel⟩

theorem witness_OkDecodeCoversDst :
    p1End.produced ∧ nextIs (step p1End) (fun t => !t.busy && t.status == 0) = true :=
  ⟨fun _ _ a ha => by
    have h : ∀ x, x < 12 → (p1End.dstByte x).isSome = true := by decide +kernel
    exact h a (lt_of_lt_of_eq ha (by decide +kernel)), by decide +kernel⟩

/-- InputsAreNeverWritten, WritesStayInsideDst, DstIsNeverRead: a symbol and a step that answer a next state, and an offset
outside DST. -/
theorem witness_NextStates :
    nextIs (exec (.triNewTable 0) p1) (fun _ => true) = true ∧ p1.host = [] ∧ nextIs (step p1) (fun t => t.busy) = true ∧
    p1.n * p1.e ≤ 12 := by decide +kernel

/-- EveryStepKeepsInvariant, EveryStepKeepsCursorRanges, RunningCallMakesProgress, EveryDecodeEnds: P1; and
NoReadPassesTheStream, its control byte. -/
theorem witness_RunningCall :
    p1.Inv ∧ p1.callOk ∧ p1.running ∧ 24 ≤ p1.par.groupMargin ∧ due p1 = .symbol (.ctri false) [0xF0#8] ∧
    Ctx.ctri false ≠ .header ∧ nextIs (step p1) (fun t => t.busy) = true :=
  ⟨p1_ok.1, p1_ok.2.1, p1_ok.2.2.1, p1_ok.2.2.2.1, by decide +kernel, by decide, by decide +kernel⟩

end Sys2Proof.Tests
end

/-! ## What the block does to DST

Every symbol and every step of the block touches DST only by writing bytes inside `[0, N*E)` or by making all of them
unspecified, and does so whatever DST holds.  `Confined` says that, together with what of the registers a block step
may change; `ConfinedPart` says it of a part of a meaning. -/

namespace Sys2Proof.Machine

/-- What a block may do to DST in a call whose destination has `k` bytes: write bytes below `k` (R47), make all bytes
below `k` unspecified (R49). -/
inductive DstEffect (k : Nat) : (Mem → Mem) → Prop
  | stays : DstEffect k fun m => m
  | writes {φ : Mem → Mem} (a : Nat) (bs : List Byte) (h : a + bs.length ≤ k) (hφ : DstEffect k φ) :
      DstEffect k fun m => Mem.writeBytes .dst (φ m) a bs
  | drops {φ : Mem → Mem} (hφ : DstEffect k φ) : DstEffect k fun m => Mem.dropBelow (φ m) k

namespace DstEffect

variable {k : Nat} {φ ψ : Mem → Mem}

theorem comp (hψ : DstEffect k ψ) (hφ : DstEffect k φ) : DstEffect k fun m => ψ (φ m) := by
  induction hψ with
  | stays => exact hφ
  | writes a bs h _ ih => exact .writes a bs h ih
  | drops _ ih => exact .drops ih

theorem ofEnd (st : Status) (hφ : DstEffect k φ) :
    DstEffect k fun m => if st = .ok then φ m else Mem.dropBelow (φ m) k := by
  by_cases h : st = .ok
  · simpa only [h, if_true] using hφ
  · simpa only [h, if_false] using hφ.drops

/-- Bytes at and above `k` stay. -/
theorem read_of_le (hφ : DstEffect k φ) (m : Mem) {x : Nat} (hx : k ≤ x) :
    Mem.read .dst (φ m) x = Mem.read .dst m x := by
  induction hφ with
  | stays => rfl
  | writes a bs h _ ih => rw [Mem.read_writeBytes_dst, if_neg (by omega), ih]
  | drops _ ih => rw [Mem.read_dropBelow_dst, if_neg (by omega), ih]

/-- Each byte is left as it is whatever DST holds, or is the same afterwards whatever DST held. -/
theorem leaves_or_fixes (hφ : DstEffect k φ) (x : Nat) :
    (∀ m, Mem.read .dst (φ m) x = Mem.read .dst m x) ∨ (∀ m m', Mem.read .dst (φ m) x = Mem.read .dst (φ m') x) := by
  induction hφ with
  | stays => exact .inl fun _ => rfl
  | writes a bs h _ ih =>
    simp only [Mem.read_writeBytes_dst]
    by_cases hx : a ≤ x ∧ x < a + bs.length
    · exact .inr fun m m' => by simp only [hx, and_self, if_true]
    · simpa only [hx, if_false] using ih
  | drops _ ih =>
    simp only [Mem.read_dropBelow_dst]
    by_cases hx : x < k
    · exact .inr fun m m' => by simp only [hx, if_true]
    · simpa only [hx, if_false] using ih

/-- The canonical form is kept. -/
theorem wf (hφ : DstEffect k φ) {m : Mem} (h : Mem.wf .dst m = true) : Mem.wf .dst (φ m) = true := by
  induction hφ with
  | stays => exact h
  | writes a bs _ _ ih => exact Mem.wf_writeBytes _ _ _ _ ih
  | drops _ ih => exact Mem.wf_dropBelow _ _ _ ih

end DstEffect

/-- Every address a memory lists is below `k`. -/
def Mem.below (k : Nat) (m : Mem) : Prop := ∀ c ∈ m, c.1 < k

theorem Mem.below_write {k a : Nat} {m : Mem} (sp : Space) (b : Byte) (h : Mem.below k m) (ha : a < k) :
    Mem.below k (Mem.write sp m a b) := by
  intro c hc
  unfold Mem.write at hc
  split at hc
  · exact h c (Mem.erase_subset c hc)
  · rcases Mem.insert_subset c hc with rfl | hc
    · exact ha
    · exact h c hc

theorem Mem.below_writeBytes {k a : Nat} {m : Mem} (sp : Space) {bs : List Byte} (h : Mem.below k m)
    (ha : a + bs.length ≤ k) : Mem.below k (Mem.writeBytes sp m a bs) := by
  induction bs generalizing m a with
  | nil => exact h
  | cons b r ih =>
    rw [List.length_cons] at ha
    exact ih (Mem.below_write sp b h (by omega)) (by omega)

theorem Mem.below_dropBelow {k j : Nat} {m : Mem} (h : Mem.below k m) : Mem.below k (Mem.dropBelow m j) :=
  fun c hc => h c (List.mem_filter.1 hc).1

/-- No offset that does not exist is listed. -/
theorem DstEffect.keeps_below {k lim : Nat} {φ : Mem → Mem} (hφ : DstEffect k φ) (hk : k ≤ lim) {m : Mem}
    (h : Mem.below lim m) : Mem.below lim (φ m) := by
  induction hφ with
  | stays => exact h
  | writes a bs hb _ ih => exact Mem.below_writeBytes .dst ih (by omega)
  | drops _ ih => exact Mem.below_dropBelow ih

/-- What a meaning or a block step does from `s`, whatever DST holds: it changes the position, the working registers and
DST alone; or it ends the call; or it faults on a write outside DST. -/
inductive Confined (go : State → Res) (s : State) : Prop
  | goesOn (p : Pos) (w : Work) (φ : Mem → Mem) (hp : s.pos ≠ .idle → p ≠ .idle) (hφ : DstEffect (s.n * s.e) φ)
      (h : ∀ m, go { s with dst := m } = .next { s with pos := p, w := w, dst := φ m })
  | ends (st : Status) (φ : Mem → Mem) (hφ : DstEffect (s.n * s.e) φ)
      (h : ∀ m, go { s with dst := m } = .next (State.endCall st { s with dst := φ m }))
  | faults (h : ∀ m, go { s with dst := m } = .fault .dstOutOfRange)

/-- What a part of a meaning does from `s`, whatever DST holds: it yields a value that does not depend on DST and changes
the position, the working registers and DST alone; or it stops as `Confined` says. -/
inductive ConfinedPart {α : Type} (f : State → Run α) (s : State) : Prop
  | yields (a : α) (p : Pos) (w : Work) (φ : Mem → Mem) (hp : s.pos ≠ .idle → p ≠ .idle)
      (hφ : DstEffect (s.n * s.e) φ) (h : ∀ m, f { s with dst := m } = .val a { s with pos := p, w := w, dst := φ m })
  | stops (o : State → Res) (ho : Confined o s) (h : ∀ m, f { s with dst := m } = .stop (o { s with dst := m }))

namespace Confined

variable {go : State → Res} {s : State}

/-- After a change of position, working registers and DST. -/
theorem after {o : State → Res} (p : Pos) (w : Work) {φ : Mem → Mem} (hp : s.pos ≠ .idle → p ≠ .idle)
    (hφ : DstEffect (s.n * s.e) φ) (ho : Confined o { s with pos := p, w := w })
    (h : ∀ m, go { s with dst := m } = o { s with pos := p, w := w, dst := φ m }) : Confined go s := by
  cases ho with
  | goesOn q v ψ hq hψ e => exact .goesOn q v _ (fun hs => hq (hp hs)) (hψ.comp hφ) fun m => (h m).trans (e (φ m))
  | ends st ψ hψ e => exact .ends st _ (hψ.comp hφ) fun m => (h m).trans (e (φ m))
  | faults e => exact .faults fun m => (h m).trans (e (φ m))

/-- Working registers and position alone change. -/
theorem of_next (p : Pos) (w : Work) (hp : s.pos ≠ .idle → p ≠ .idle)
    (h : ∀ m, go { s with dst := m } = .next { s with pos := p, w := w, dst := m }) : Confined go s :=
  .goesOn p w _ hp .stays h

/-- Position and working registers alone change, to values that do not depend on DST. -/
theorem moves {p : State → Pos} {w : State → Work} (hp : s.pos ≠ .idle → p s ≠ .idle)
    (hp' : ∀ m, p { s with dst := m } = p s := by intro _; rfl)
    (hw : ∀ m, w { s with dst := m } = w s := by intro _; rfl) :
    Confined (fun s => .next { s with pos := p s, w := w s }) s :=
  of_next (p s) (w s) hp fun m => by simp only [hp', hw]

theorem setsW {w : State → Work} (hw : ∀ m, w { s with dst := m } = w s := by intro _; rfl) :
    Confined (fun s => .next (s.withW (w s))) s :=
  of_next s.pos (w s) id fun m => by simp only [hw]; rfl

theorem of_endCall (st : Status) (h : ∀ m, go { s with dst := m } = .next (State.endCall st { s with dst := m })) :
    Confined go s := .ends st _ .stays h

end Confined

namespace ConfinedPart

variable {α β : Type} {f : State → Run α} {s : State}

theorem of_val (a : α) (p : Pos) (w : Work) (hp : s.pos ≠ .idle → p ≠ .idle)
    (h : ∀ m, f { s with dst := m } = .val a { s with pos := p, w := w, dst := m }) : ConfinedPart f s :=
  .yields a p w _ hp .stays h

/-- A value and new working registers that do not depend on DST. -/
theorem pure {a : State → α} {w : State → Work} (ha : ∀ m, a { s with dst := m } = a s := by intro _; rfl)
    (hw : ∀ m, w { s with dst := m } = w s := by intro _; rfl) : ConfinedPart (fun s => .val (a s) (s.withW (w s))) s :=
  of_val (a s) s.pos (w s) id fun m => by simp only [ha, hw]; rfl

/-- A value that does not depend on DST, the state as it is. -/
theorem value {a : State → α} (ha : ∀ m, a { s with dst := m } = a s := by intro _; rfl) :
    ConfinedPart (fun s => .val (a s) s) s :=
  of_val (a s) s.pos s.w id fun m => by simp only [ha]

theorem of_raise (st : Status) (h : ∀ m, f { s with dst := m } = raise st { s with dst := m }) : ConfinedPart f s :=
  .stops (fun s => .next (s.endCall st)) (.of_endCall st fun _ => rfl) h

theorem congr {g : State → Run α} (hg : ConfinedPart g s) (h : ∀ m, f { s with dst := m } = g { s with dst := m }) :
    ConfinedPart f s := by
  cases hg with
  | yields a p w φ hp hφ e => exact .yields a p w φ hp hφ fun m => (h m).trans (e m)
  | stops o ho e => exact .stops o ho fun m => (h m).trans (e m)

/-- One part, then another. -/
theorem bind {g : α → State → Run β} (hf : ConfinedPart f s) (hg : ∀ a t, ConfinedPart (g a) t) :
    ConfinedPart (fun s => (f s).bind g) s := by
  cases hf with
  | yields a p w φ hp hφ e =>
    have e' : ∀ m, (f { s with dst := m }).bind g = g a { s with pos := p, w := w, dst := φ m } := fun m => by
      rw [e m, Run.bind_val]
    cases hg a { s with pos := p, w := w } with
    | yields b q v ψ hq hψ e2 =>
      exact .yields b q v _ (fun hs => hq (hp hs)) (hψ.comp hφ) fun m => (e' m).trans (e2 (φ m))
    | stops o ho e2 =>
      refine .stops (fun s => ((f s).bind g).finish) (.after p w hp hφ ho fun m => ?_) fun m => ?_
      · show ((f { s with dst := m }).bind g).finish = _
        rw [e' m, e2 (φ m), Run.finish_stop]
      · show (f { s with dst := m }).bind g = .stop ((f { s with dst := m }).bind g).finish
        rw [e' m, e2 (φ m), Run.finish_stop]
  | stops o ho e => exact .stops o ho fun m => by simp only [e m, Run.bind_stop]

/-- A part after a change of the working registers. -/
theorem afterW {g : State → Run α} {w : State → Work} (hg : ∀ t, ConfinedPart g t)
    (hw : ∀ m, w { s with dst := m } = w s := by intro _; rfl) : ConfinedPart (fun s => g (s.withW (w s))) s :=
  bind (f := fun s => .val () (s.withW (w s))) (g := fun _ => g) (pure (hw := hw)) fun _ t => hg t

/-- A meaning made of parts. -/
theorem finish (hf : ConfinedPart f s) : Confined (fun s => (f s).finish) s := by
  cases hf with
  | yields a p w φ hp hφ e => exact .goesOn p w φ hp hφ fun m => by simp only [e m, Run.finish_val]
  | stops o ho e =>
    exact .after s.pos s.w id .stays ho fun m => by simp only [e m, Run.finish_stop]

end ConfinedPart
end Sys2Proof.Machine

/-! ### Every part and every symbol is confined -/

namespace Sys2Proof.Machine

theorem memRead_confined {a : State → Nat} {s : State} (ha : ∀ m, a { s with dst := m } = a s := by intro _; rfl) :
    ConfinedPart (fun s => memRead (a s) s) s := by
  by_cases h : a s < s.l
  · exact .of_val (s.srcByte (a s)) s.pos s.w id fun m => by rw [ha]; exact memRead_of_lt (s := { s with dst := m }) h
  · exact .of_raise .truncated fun m => by rw [ha]; exact memRead_of_le (s := { s with dst := m }) (Nat.not_lt.1 h)

theorem memWrite_confined {a : State → Nat} {bs : State → List Byte} {s : State}
    (ha : ∀ m, a { s with dst := m } = a s := by intro _; rfl)
    (hbs : ∀ m, bs { s with dst := m } = bs s := by intro _; rfl) : ConfinedPart (fun s => memWrite (a s) (bs s) s) s := by
  by_cases h : a s + (bs s).length ≤ s.n * s.e
  · exact .yields () s.pos s.w _ id (.writes (a s) (bs s) h .stays) fun m => by
      rw [ha, hbs]; exact memWrite_of_le (s := { s with dst := m }) h
  · refine .stops (fun _ => .fault .dstOutOfRange) (.faults fun _ => rfl) fun m => ?_
    rw [ha, hbs]
    rcases memWrite_cases (a s) (bs s) { s with dst := m } with ⟨h', -⟩ | ⟨-, e⟩
    · exact absurd h' h
    · exact e

theorem emit_confined (a b c : Word) (s : State) : ConfinedPart (emit a b c) s :=
  .bind memWrite_confined fun _ _ => .bind memWrite_confined fun _ _ => .bind memWrite_confined fun _ _ => .pure

/-! #### The stream's bytes do not depend on DST -/

theorem State.window_dst (s : State) (m : Mem) (a k : Nat) : State.window { s with dst := m } a k = s.window a k := by
  induction k generalizing a with
  | zero => rfl
  | succ k ih => simp only [State.window, ih]; rfl

theorem due_dst (s : State) (m : Mem) : due { s with dst := m } = due s := by
  simp only [due, State.window_dst]; rfl

/-! #### Varints and triangles -/

theorem fetchVarint_confined (s : State) : ConfinedPart fetchVarint s := by
  cases h : splitVarint 4 (s.window s.w.dcur Config.varintMax) with
  | none => exact .of_raise .truncated fun m => by simp only [fetchVarint, State.window_dst, h]
  | some p => exact .of_val p.1 s.pos s.w id fun m => by simp only [fetchVarint, State.window_dst, h]

theorem decodeIndex_confined (s : State) : ConfinedPart decodeIndex s := .bind (fetchVarint_confined s) fun _ _ => .pure

theorem takeNext_confined (s : State) : ConfinedPart takeNext s := .pure

theorem moveLast_confined (delta : Word) (s : State) : ConfinedPart (moveLast delta) s := .pure

theorem readVertex_confined (fec : Nibble) (s : State) :
    ConfinedPart (fun s => readVertex (edgeVertexSlot s.w.voff fec) s) s := .value

theorem finishEdge_confined (a b c : Word) (hit : Bool) (s : State) : ConfinedPart (finishEdge a b c hit) s :=
  .bind (emit_confined a b c s) fun _ _ => .pure

theorem edgeTriangle_confined (fe : Nibble) (hit : Bool) {third : State → Run Word} (hthird : ∀ t, ConfinedPart third t)
    (s : State) : ConfinedPart (edgeTriangle fe hit third) s :=
  .congr (.bind (.afterW (w := fun s => s.w.passControl) hthird) fun c t => finishEdge_confined
    (slot16 s.w.efA (edgeSlot s.w.eoff fe)) (slot16 s.w.efB (edgeSlot s.w.eoff fe)) c hit t) fun _ => rfl

/-- Phase 1 of ResolveNew as a part. -/
def phase1 (code : Nibble) (s : State) : Run Vertex := .val (vertexPhase1 code s).1 (vertexPhase1 code s).2

/-- ResolveNew is six parts one after another. -/
theorem resolveNew_eq (fea feb fec : Nibble) (s : State) :
    resolveNew fea feb fec s =
      (phase1 fea s).bind fun a s => (phase1 feb s).bind fun b s => (phase1 fec s).bind fun c s =>
      (vertexPhase2 a s).bind fun a s => (vertexPhase2 b s).bind fun b s => (vertexPhase2 c s).bind fun c s =>
      .val (a, b, c) s := rfl

theorem phase1_confined (code : Nibble) (s : State) : ConfinedPart (phase1 code) s := by
  unfold phase1 vertexPhase1
  by_cases h0 : code = 0#4
  · simp only [h0, if_true]; exact .pure
  · by_cases h15 : code = 15#4
    · subst h15; exact .value
    · simp only [h0, h15, if_false]; exact .value

theorem vertexPhase2_confined (x : Vertex) (s : State) : ConfinedPart (vertexPhase2 x) s := by
  cases x with
  | known v hit => exact .value
  | pending => exact .bind (decodeIndex_confined s) fun _ _ => .value

theorem resolveNew_confined (fea feb fec : Nibble) (s : State) : ConfinedPart (resolveNew fea feb fec) s :=
  .congr (.bind (phase1_confined fea s) fun a t => .bind (phase1_confined feb t) fun b t => .bind (phase1_confined fec t) fun c t =>
    .bind (vertexPhase2_confined a t) fun _ t => .bind (vertexPhase2_confined b t) fun _ t =>
    .bind (vertexPhase2_confined c t) fun _ _ => .value) fun _ => resolveNew_eq ..

theorem newTriangle_confined (feb fec : Nibble) (s : State) : ConfinedPart (newTriangle feb fec) s :=
  .bind ((resolveNew_confined s.w.fea feb fec s).congr fun _ => rfl) fun (a, b, c) t =>
    .bind (emit_confined a.1 b.1 c.1 t) fun _ _ => .pure

theorem cauxTriangle_confined (feb fec : Nibble) (s : State) : ConfinedPart (cauxTriangle feb fec) s := by
  cases h : s.w.auxPay with
  | true =>
    exact .congr (.afterW (w := fun s => { s.w with dcur := s.w.dcur + 1 }) (newTriangle_confined feb fec)) fun m => by
      simp only [cauxTriangle, h, if_true]
  | false =>
    exact (newTriangle_confined feb fec s).congr fun m => by
      simp only [cauxTriangle, h, Bool.false_eq_true, if_false]

theorem restartTriangle_confined (s : State) : ConfinedPart restartTriangle s :=
  .afterW (w := fun s => { s.w with dcur := s.w.dcur + 1, next := 0#32 }) (newTriangle_confined 0#4 0#4)

/-- The codeAux byte from the table, then its triangle. -/
theorem tableTriangle_confined (j : Nibble) (s : State) :
    ConfinedPart (fun s => (memRead (s.tableStart + j.toNat) s).bind fun aux s =>
      cauxTriangle (bits 4 4 aux) (bits 0 4 aux) s) s :=
  .bind memRead_confined fun _ t => cauxTriangle_confined _ _ t

/-- The codeAux byte from the payload, then its triangle. -/
theorem payloadTriangle_confined (s : State) :
    ConfinedPart (fun s => (memRead s.w.dcur s).bind fun aux s =>
      if aux = 0#8 then restartTriangle s else cauxTriangle (bits 4 4 aux) (bits 0 4 aux) s) s := by
  refine .bind memRead_confined fun aux t => ?_
  by_cases h : aux = 0#8
  · simpa only [h, if_true] using restartTriangle_confined t
  · simpa only [h, if_false] using cauxTriangle_confined _ _ t

theorem newFromPayload_confined (fea : Nibble) (s : State) : ConfinedPart (newFromPayload fea) s :=
  .afterW (w := fun s => { s.w.passControl with fea := fea, auxPay := true }) payloadTriangle_confined

/-! #### Sequences and byte groups -/

theorem execSeq_confined (bs : List Byte) (s : State) : Confined (execSeq bs) s :=
  ConfinedPart.finish (f := fun s => (memWrite (s.w.idx * s.e) (leBytes s.e (slot2 (s.w.varint bs).seqIndex.seqlast
      (seqSlot (s.w.varint bs).seqIndex.vres))) (s.withW (s.w.varint bs).seqIndex)).bind fun _ s =>
        .val () (s.withW { s.w with idx := s.w.idx + 1 })) <|
  .bind (.congr (.afterW (w := fun s => (s.w.varint bs).seqIndex) fun t =>
    memWrite_confined (a := fun _ => s.w.idx * s.e) (bs := fun _ => leBytes s.e (slot2 (s.w.varint bs).seqIndex.seqlast
      (seqSlot (s.w.varint bs).seqIndex.vres)))) fun _ => rfl) fun _ _ => .pure

theorem literalLane_confined (s : State) : ConfinedPart literalLane s := .bind memRead_confined fun _ _ => .pure

theorem codeLane_confined (sent : Bool) (v : Byte) (s : State) : ConfinedPart (codeLane sent v) s := by
  cases sent with
  | true => exact literalLane_confined s
  | false => exact .pure

theorem c2Lanes_confined (c0 c1 c2 c3 : BitVec 2) (s : State) : ConfinedPart (c2Lanes c0 c1 c2 c3) s :=
  .bind (codeLane_confined _ _ s) fun _ t => .bind (codeLane_confined _ _ t) fun _ t => .bind (codeLane_confined _ _ t)
    fun _ t => codeLane_confined _ _ t

theorem c4Lanes_confined (c0 c1 : Nibble) (s : State) : ConfinedPart (c4Lanes c0 c1) s :=
  .bind (codeLane_confined _ _ s) fun _ t => codeLane_confined _ _ t

theorem repeatRun_confined {f : State → Run Unit} (hf : ∀ t, ConfinedPart f t) (k : Nat) (s : State) :
    ConfinedPart (repeatRun f k) s := by
  induction k generalizing s with
  | zero => exact .value
  | succ k ih => exact .bind (hf s) fun _ t => ih t

theorem controlBytes_confined {f : Byte → State → Run Unit} (hf : ∀ b t, ConfinedPart (f b) t) (k a : Nat) (s : State) :
    ConfinedPart (controlBytes f k a) s := by
  induction k generalizing s a with
  | zero => exact .value
  | succ k ih => exact .bind (memRead_confined (a := fun _ => a)) fun b t => .bind (hf b t) fun _ t => ih (a + 1) t

theorem State.endGroup_pos_ne_idle (s : State) : s.endGroup.pos ≠ .idle := by
  simp only [State.endGroup]; split <;> simp

theorem groupOf_confined (ctl : Nat) {lanes : State → Run Unit} (hl : ∀ t, ConfinedPart lanes t) (s : State) :
    Confined (groupOf ctl lanes) s :=
  ConfinedPart.finish (f := fun s => (lanes (s.withW (s.w.beginGroup ctl))).bind fun _ s => .val () s.endGroup) <|
  .bind (.afterW hl) fun _ t => .of_val () t.endGroup.pos t.endGroup.w (fun _ => t.endGroup_pos_ne_idle) fun _ => rfl

theorem execGhdr_confined (s0 s1 s2 s3 : BitVec 2) (s : State) : Confined (execGhdr s0 s1 s2 s3) s := by
  by_cases h : s.w.dcur - s.w.hcur + 1 < s.headers
  · exact .after s.pos s.w id .stays (.setsW (w := fun s =>
      { s.w with sel := latchSel s.w.sel (s.w.dcur - s.w.hcur) s0 s1 s2 s3, dcur := s.w.dcur + 1 })) fun m => if_pos h
  · exact .after s.pos s.w id .stays (.moves (p := fun _ => .group) (w := fun s =>
      { s.w with sel := latchSel s.w.sel (s.w.dcur - s.w.hcur) s0 s1 s2 s3, dcur := s.w.dcur + 1, grp := 0 })
      fun _ => by simp) fun m => if_neg h

theorem State.seedByte_pos_ne_idle (b : Byte) (s : State) : (s.seedByte b).pos ≠ .idle := by
  simp only [State.seedByte]; split <;> simp

theorem execLit_confined (b : Byte) (s : State) : Confined (execLit b) s := by
  by_cases h : s.pos = .seed
  · exact .of_next (s.seedByte b).pos (s.seedByte b).w (fun _ => s.seedByte_pos_ne_idle b) fun m =>
      congrArg _ (if_pos h)
  · exact .after s.pos s.w id .stays (.setsW (w := fun s => s.w.literal b)) fun m => congrArg _ (if_neg h)

/-! #### Headers -/

theorem headerFor_confined (mode : BitVec 2) {go : State → State} (s : State)
    (hgo : Confined (fun s => .next (go s)) s) : Confined (fun s => headerFor mode s go) s := by
  by_cases h : s.cfgMode = mode
  · exact .after s.pos s.w id .stays hgo fun m => if_pos h
  · exact .of_endCall .badHeader fun m => if_neg h

theorem beginAttributes_confined (s : State) : Confined (fun s => .next (beginAttributes s)) s := by
  by_cases h : s.l - 1 < tailSize s.e
  · exact .of_endCall .truncated fun m => congrArg _ (if_pos h)
  · exact .after s.pos s.w id .stays (.moves (p := fun _ => .seed)
      (w := fun s => { s.w with ver := 0#4, dcur := 1, idx := 0, blk := 0, lane := 0 }) fun _ => by simp)
      fun m => congrArg _ (if_neg h)

theorem beginTriangles_confined (v : BitVec 1) (s : State) : Confined (fun s => .next (beginTriangles v s)) s :=
  .moves fun _ => by simp

theorem beginIndices_confined (v : BitVec 1) (s : State) : Confined (fun s => .next (beginIndices v s)) s :=
  .moves fun _ => by simp

/-- Every symbol but START is confined, at every position. -/
theorem exec_confined (i : Instr) (hi : ∀ x, i ≠ .start x) (s : State) : Confined (exec i) s := by
  cases i with
  | hdrAttr => exact headerFor_confined 0#2 s (beginAttributes_confined s)
  | hdrTri v => exact headerFor_confined 1#2 s (beginTriangles_confined v s)
  | hdrSeq v => exact headerFor_confined 2#2 s (beginIndices_confined v s)
  | vbLast g => exact .setsW (w := fun s => s.w.vbLast g)
  | vbCont g => exact .setsW (w := fun s => s.w.vbCont g)
  | vbFifth x g => exact .setsW (w := fun s => s.w.vbFifth g)
  | varint bs => exact .setsW (w := fun s => s.w.varint bs)
  | free bs => exact .setsW (w := fun s => s.w.freeIndex bs)
  | seq bs => exact execSeq_confined bs s
  | triNewByte15 => exact (newFromPayload_confined 15#4 s).finish
  | triNewByte0 => exact (newFromPayload_confined 0#4 s).finish
  | triNewTable j =>
    exact (ConfinedPart.afterW (w := fun s => { s.w.passControl with fea := 0#4, auxPay := false })
      (tableTriangle_confined j)).finish
  | triEdgeFree fe => exact (edgeTriangle_confined fe false decodeIndex_confined s).finish
  | triEdgeNext fe => exact (edgeTriangle_confined fe false takeNext_confined s).finish
  | triEdgeDec fe => exact (edgeTriangle_confined fe false (moveLast_confined _) s).finish
  | triEdgeInc fe => exact (edgeTriangle_confined fe false (moveLast_confined _) s).finish
  | triEdgeFifo fe fec => exact (edgeTriangle_confined fe true (readVertex_confined fec) s).finish
  | caux feb fec => exact (cauxTriangle_confined feb fec s).finish
  | cauxRestart => exact (restartTriangle_confined s).finish
  | ghdr s0 s1 s2 s3 => exact execGhdr_confined s0 s1 s2 s3 s
  | grpW0 => exact groupOf_confined 0 (repeatRun_confined (codeLane_confined false 0#8) 16) s
  | grpW2 =>
    exact .after s.pos s.w id .stays
      (groupOf_confined 4 (controlBytes_confined (fun _ => c2Lanes_confined _ _ _ _) 4 s.w.dcur) s) fun _ => rfl
  | grpW4 =>
    exact .after s.pos s.w id .stays
      (groupOf_confined 8 (controlBytes_confined (fun _ => c4Lanes_confined _ _) 8 s.w.dcur) s) fun _ => rfl
  | grpW8 => exact groupOf_confined 0 (repeatRun_confined literalLane_confined 16) s
  | c2 c0 c1 c2 c3 => exact (c2Lanes_confined c0 c1 c2 c3 s).finish
  | c4 c0 c1 => exact (c4Lanes_confined c0 c1 s).finish
  | lit b => exact execLit_confined b s
  | rsv b => exact .setsW (w := State.w)
  | start x => exact absurd rfl (hi x)

theorem endBlock_confined (s : State) : Confined endBlock s :=
  ConfinedPart.finish (f := fun s => (memWrite (s.w.blk * s.e) (transBytes s.w.trans (s.bc * s.e) 0) s).bind fun _ s =>
    .val () { s with
      pos := .blockTop
      w := { s.w with
        pred := loadPred s.w.trans ((s.bc - 1) * s.e) s.e s.w.pred
        idx := s.w.idx + s.bc
        blk := s.w.blk + s.bc } }) <|
  .bind memWrite_confined fun _ t => .of_val () .blockTop { t.w with
    pred := loadPred t.w.trans ((t.bc - 1) * t.e) t.e t.w.pred, idx := t.w.idx + t.bc, blk := t.w.blk + t.bc }
    (fun _ => by simp) fun _ => rfl

theorem State.endPlane_pos_ne_idle (s : State) : s.endPlane.pos ≠ .idle := by
  simp only [State.endPlane]; split <;> simp

/-- The sequencer's own work is confined. -/
theorem between_confined (s : State) : Confined between s := by
  unfold between
  cases hp : s.pos with
  | blockTop =>
    exact .of_next .runTop s.beginBlock.w (fun _ => by simp) fun m => by simp only [hp]; rfl
  | runTop => exact .of_next .groupHeader s.beginRun.w (fun _ => by simp) fun m => by simp only [hp]; rfl
  | planeEnd =>
    exact .of_next s.endPlane.pos s.endPlane.w (fun _ => s.endPlane_pos_ne_idle) fun m => by simp only [hp]; rfl
  | blockEnd => exact .after s.pos s.w id .stays (endBlock_confined s) fun m => by simp only [hp]
  | idle | header | seed | groupHeader | group | triangles | sequence =>
    exact .of_next s.pos s.w id fun m => by simp only [hp]

/-- START is read at the position of a command alone. -/
theorem decode_ne_start {c : Ctx} {bs rest : List Byte} {i : Instr} (hc : c ≠ .command)
    (h : decode c bs = .ok (i, rest)) (x : BitVec 31) : i ≠ .start x := by
  rintro rfl
  cases bs with
  | nil => simp [decode] at h
  | cons b r =>
    cases c with
    | command => exact hc rfl
    | header => simp only [decode, decodeHeader] at h; grind
    | ctri v0 => simp only [decode, decodeTri] at h; grind
    | caux payload => simp only [decode, decodeCaux] at h; grind
    | vb fifth => simp only [decode, decodeVb] at h; grind
    | sel => simp only [decode, decodeSel] at h; grind
    | varint | free | seq => simp only [decode] at h; split at h <;> simp at h
    | ghdr | c2 | c4 | lit | rsv => simp [decode] at h

/-- No position of the sequencer is that of a command. -/
theorem due_ne_command {s : State} {c : Ctx} {bs : List Byte} (h : due s = .symbol c bs) : c ≠ .command := by
  rintro rfl
  cases hp : s.pos <;> simp only [due, hp, truncatedIf, finalTest] at h <;> grind

/-- A step of the block is confined. -/
theorem blockStep_confined (s : State) : Confined blockStep s := by
  have hdue : ∀ m, due { s with dst := m } = due s := due_dst s
  cases h : due s with
  | rest => exact .of_next s.pos s.w id fun m => by simp only [blockStep, hdue, h]
  | ends st => exact .of_endCall st fun m => by simp only [blockStep, hdue, h]
  | work => exact .after s.pos s.w id .stays (between_confined s) fun m => by simp only [blockStep, hdue, h]
  | symbol c bs =>
    cases hd : decode c bs with
    | ok x =>
      exact .after s.pos s.w id .stays (exec_confined x.1 (decode_ne_start (due_ne_command h) hd) s) fun m => by
        simp only [blockStep, hdue, h, hd]
    | error e => exact .of_endCall (statusOf e) fun m => by simp only [blockStep, hdue, h, hd]

end Sys2Proof.Machine

/-! ### What every symbol and every block step leaves -/

namespace Sys2Proof.Machine

open Sys2Proof.Claims

/-- `go` takes `s` to `t`: the inputs stay, and with any other DST `go` answers `t` but for DST, with one effect on DST for all
of them. -/
def Uniform (go : State → Res) (s t : State) : Prop :=
  SameInputs s t ∧
    ∃ φ, DstEffect (s.n * s.e) φ ∧ t.dst = φ s.dst ∧ ∀ m, go { s with dst := m } = .next { t with dst := φ m }

theorem sameInputs_refl (s : State) : SameInputs s s := ⟨rfl, rfl, rfl, rfl, rfl, rfl, rfl, rfl, rfl⟩

theorem Confined.uniform {go : State → Res} {s t : State} (h : Confined go s) (e : go s = .next t) : Uniform go s t := by
  cases h with
  | goesOn p w φ _ hφ h =>
    obtain rfl := Host.Outcome.next.inj ((h s.dst).symm.trans e)
    exact ⟨sameInputs_refl s, φ, hφ, rfl, h⟩
  | ends st φ hφ h =>
    obtain rfl := Host.Outcome.next.inj ((h s.dst).symm.trans e)
    exact ⟨sameInputs_refl s, _, hφ.ofEnd st, rfl, h⟩
  | faults h => exact absurd (e.symm.trans (h s.dst)) (by simp)

section Start

variable (x : BitVec 31) {s : State}

theorem exec_start_of_busy (hb : s.busy = true) : exec (.start x) s = .next s := if_pos hb

theorem exec_start_of_illegal (hb : s.busy = false) (hc : s.configLegal = false) :
    exec (.start x) s = .next s.refuseConfig := by
  show execStart x s = _; simp [execStart, hb, hc]

theorem exec_start_of_overlap (hb : s.busy = false) (hc : s.configLegal = true) (ho : s.buffersOverlap = true) :
    exec (.start x) s = .refused .buffersOverlap := by
  show execStart x s = _; simp [execStart, hb, hc, ho]

theorem exec_start_of_badFilter (hb : s.busy = false) (hc : s.configLegal = true) (ho : s.buffersOverlap = false)
    (hf : s.filterLegal = false) : exec (.start x) s = .next (s.accept.endCall .badFilter) := by
  show execStart x s = _; simp [execStart, hb, hc, ho, hf]

theorem exec_start_of_legal (hb : s.busy = false) (hc : s.configLegal = true) (ho : s.buffersOverlap = false)
    (hf : s.filterLegal = true) : exec (.start x) s = .next s.accept := by
  show execStart x s = _; simp [execStart, hb, hc, ho, hf]

end Start

/-- What START does: nothing while busy; it refuses the configuration; it ends the accepted call with BadFilter; it begins the
decode. -/
theorem exec_start_cases {x : BitVec 31} {s t : State} (h : exec (.start x) s = .next t) :
    (s.busy = true ∧ t = s) ∨ (s.busy = false ∧ s.configLegal = false ∧ t = s.refuseConfig) ∨
    (s.busy = false ∧ s.configLegal = true ∧ s.buffersOverlap = false ∧ s.filterLegal = false ∧
      t = s.accept.endCall .badFilter) ∨
    (s.busy = false ∧ s.configLegal = true ∧ s.buffersOverlap = false ∧ s.filterLegal = true ∧ t = s.accept) := by
  cases hb : s.busy with
  | true => rw [exec_start_of_busy x hb] at h; simpa using h.symm
  | false => cases hc : s.configLegal with
    | false => rw [exec_start_of_illegal x hb hc] at h; simpa using h.symm
    | true => cases ho : s.buffersOverlap with
      | true => rw [exec_start_of_overlap x hb hc ho] at h; simp at h
      | false => cases hf : s.filterLegal with
        | false => rw [exec_start_of_badFilter x hb hc ho hf] at h; simpa using h.symm
        | true => rw [exec_start_of_legal x hb hc ho hf] at h; simpa using h.symm

theorem exec_start_uniform {x : BitVec 31} {s t : State} (h : exec (.start x) s = .next t) :
    Uniform (exec (.start x)) s t := by
  rcases exec_start_cases h with ⟨hb, rfl⟩ | ⟨hb, hc, rfl⟩ | ⟨hb, hc, ho, hf, rfl⟩ | ⟨hb, hc, ho, hf, rfl⟩
  · exact ⟨sameInputs_refl _, _, .stays, rfl, fun m =>
      exec_start_of_busy x (s := { t with dst := m }) hb⟩
  · exact ⟨sameInputs_refl s, _, .stays, rfl, fun m =>
      exec_start_of_illegal x (s := { s with dst := m }) hb hc⟩
  · exact ⟨sameInputs_refl s, _, .drops .stays, rfl, fun m =>
      exec_start_of_badFilter x (s := { s with dst := m }) hb hc ho hf⟩
  · exact ⟨sameInputs_refl s, _, .stays, rfl, fun m =>
      exec_start_of_legal x (s := { s with dst := m }) hb hc ho hf⟩

theorem exec_uniform {i : Instr} {s t : State} (h : exec i s = .next t) : Uniform (exec i) s t := by
  by_cases hi : ∃ x, i = .start x
  · obtain ⟨x, rfl⟩ := hi
    exact exec_start_uniform h
  · exact (exec_confined i (fun x hx => hi ⟨x, hx⟩) s).uniform h

theorem step_of_host_nil {s : State} (hs : s.host = []) : step s = blockStep s := by rw [step, hs]

theorem step_uniform {s t : State} (hs : s.host = []) (h : step s = .next t) : Uniform step s t := by
  obtain ⟨hin, φ, hφ, hd, hgo⟩ := (blockStep_confined s).uniform ((step_of_host_nil hs).symm.trans h)
  exact ⟨hin, φ, hφ, hd, fun m => (step_of_host_nil (s := { s with dst := m }) hs).trans (hgo m)⟩

/-- Bytes at and above `N*E` stay. -/
theorem Uniform.dstByte_of_le {go : State → Res} {s t : State} (h : Uniform go s t) {a : Nat} (ha : s.n * s.e ≤ a) :
    t.dstByte a = s.dstByte a := by
  obtain ⟨-, φ, hφ, hd, -⟩ := h
  rw [State.dstByte, hd, hφ.read_of_le s.dst ha, State.dstByte]

theorem Uniform.blindToDst {go : State → Res} {s t : State} (h : Uniform go s t) (m : Mem) : BlindToDst go s t m := by
  obtain ⟨-, φ, hφ, hd, hgo⟩ := h
  refine ⟨φ m, hgo m, fun a => ?_⟩
  simp only [State.dstByte, hd]
  rcases hφ.leaves_or_fixes a with hl | hf
  · exact .inl ⟨hl s.dst, hl m⟩
  · exact .inr (hf s.dst m)

end Sys2Proof.Machine

namespace Sys2Proof.Proofs

open Sys2Proof.Machine Sys2Proof.Claims

/-- Settles O51: every symbol and every block step is confined, so it leaves the inputs. -/
theorem inputsAreNeverWritten : Obligations.InputsAreNeverWritten :=
  ⟨fun _ _ _ h => (exec_uniform h).1, fun _ _ hs h => (step_uniform hs h).1⟩

/-- Settles O52: every effect on DST leaves the bytes at and above `N*E`. -/
theorem writesStayInsideDst : Obligations.WritesStayInsideDst :=
  ⟨fun _ _ _ h _ ha => (exec_uniform h).dstByte_of_le ha, fun _ _ hs h _ ha => (step_uniform hs h).dstByte_of_le ha⟩

/-- Settles O53: one effect on DST serves for all its contents, and leaves or fixes each byte. -/
theorem dstIsNeverRead : Obligations.DstIsNeverRead :=
  ⟨fun _ _ _ m h => (exec_uniform h).blindToDst m, fun _ _ m hs h => (step_uniform hs h).blindToDst m⟩

end Sys2Proof.Proofs

/-! ### The moves of the host -/

namespace Sys2Proof.Machine

/-- The word that is written to CTRL with bit 0 set is START, bits 31:1 its operand (R76). -/
theorem decode_command_start {v : Word} (h : bits 0 1 v = 1#1) :
    decode .command (wordBytes v) = .ok (.start (bits 1 31 v), []) := by
  have h0 : bits 0 1 (bits 0 8 v) = 1#1 := by rw [← h]; ext i hi; simp [bits]
  have hx : bits 24 8 v ++ bits 16 8 v ++ bits 8 8 v ++ bits 1 7 (bits 0 8 v) = bits 1 31 v := by
    ext i hi
    simp [bits]
    grind
  simp [decode, wordBytes, h0]
  exact hx

theorem decode_command_notStart {v : Word} (h : bits 0 1 v ≠ 1#1) :
    decode .command (wordBytes v) = .error .notStart := by
  have h0 : bits 0 1 (bits 0 8 v) = bits 0 1 v := by ext i hi; simp [bits]
  simp [decode, wordBytes, h0, h]

end Sys2Proof.Machine

/-! ### What a move of the host does -/

namespace Sys2Proof.Machine

theorem writeReg_ctrl_start {v : Word} (h : bits 0 1 v = 1#1) (s : State) :
    writeReg 0 v s = exec (.start (bits 1 31 v)) s := by
  simp only [writeReg, decode_command_start h]

theorem writeReg_ctrl_notStart {v : Word} (h : bits 0 1 v ≠ 1#1) (s : State) : writeReg 0 v s = .next s := by
  simp only [writeReg, decode_command_notStart h]

/-- What the host does to `s` in a move that the machine neither refuses nor faults on. -/
inductive HostEffect (s : State) : State → Prop
  | stays : HostEffect s s
  | reads (v : Word) : HostEffect s { s with rdata := v }
  | configures (hb : s.busy = false) (mode filter : BitVec 2) (count : BitVec 32) (elemsize : BitVec 9)
      (srclen : BitVec 32) : HostEffect s { s with
        cfgMode := mode, cfgFilter := filter, cfgCount := count, cfgElemsize := elemsize, cfgSrclen := srclen }
  | placesSrc (hb : s.busy = false) (a : Nat) (b : Byte) (ha : a < Config.lenLimit) :
      HostEffect s { s with src := Mem.write .src s.src a b }
  | placesDst (hb : s.busy = false) (a : Nat) (b : Byte) (ha : a < Config.lenLimit) :
      HostEffect s { s with dst := Mem.write .dst s.dst a b }
  | starts (x : BitVec 31) (t : State) (h : exec (.start x) s = .next t) : HostEffect s t
  | resets : HostEffect s s.hardReset

theorem writeCfg_of_busy {s : State} (hb : s.busy = true) (new : State) : s.writeCfg new = .next s := by
  simp [State.writeCfg, hb]

theorem writeCfg_of_idle {s : State} (hb : s.busy = false) (new : State) : s.writeCfg new = .next new := by
  simp [State.writeCfg, hb]

/-- A write to a CFG register leaves the state, or the idle block takes the new one. -/
theorem writeCfg_effect {s new t : State} (h : s.writeCfg new = .next t) (hnew : s.busy = false → HostEffect s new) :
    HostEffect s t := by
  cases hb : s.busy with
  | true => rw [writeCfg_of_busy hb] at h; cases h; exact .stays
  | false => rw [writeCfg_of_idle hb] at h; cases h; exact hnew hb

theorem writeReg_effect {reg : Nat} {v : Word} {s t : State} (h : writeReg reg v s = .next t) : HostEffect s t := by
  match reg with
  | 0 =>
    by_cases hv : bits 0 1 v = 1#1
    · exact .starts _ t ((writeReg_ctrl_start hv s).symm.trans h)
    · rw [writeReg_ctrl_notStart hv] at h; cases h; exact .stays
  | 1 | 2 | 8 => cases h; exact .stays
  | 3 => exact writeCfg_effect h fun hb => .configures hb (bits 0 2 v) s.cfgFilter s.cfgCount s.cfgElemsize s.cfgSrclen
  | 4 => exact writeCfg_effect h fun hb => .configures hb s.cfgMode (bits 0 2 v) s.cfgCount s.cfgElemsize s.cfgSrclen
  | 5 => exact writeCfg_effect h fun hb => .configures hb s.cfgMode s.cfgFilter v s.cfgElemsize s.cfgSrclen
  | 6 => exact writeCfg_effect h fun hb => .configures hb s.cfgMode s.cfgFilter s.cfgCount (bits 0 9 v) s.cfgSrclen
  | 7 => exact writeCfg_effect h fun hb => .configures hb s.cfgMode s.cfgFilter s.cfgCount s.cfgElemsize v
  | r + 9 => cases h

/-- An access to a buffer that goes through is one of an idle block at an offset that exists. -/
theorem bufferAccess_eq_next {a : Nat} {s new t : State} :
    bufferAccess a s new = .next t ↔ s.busy = false ∧ a < Config.lenLimit ∧ t = new := by
  unfold bufferAccess
  cases hb : s.busy with
  | true => simp
  | false =>
    by_cases ha : Config.lenLimit ≤ a
    · simp [ha, Nat.not_lt.2 ha]
    · simp [ha, Nat.not_le.1 ha, eq_comm]

theorem hostMove_effect {m : HostMove} {s t : State} (h : hostMove m s = .next t) : HostEffect s t := by
  cases m with
  | writeReg reg v => exact writeReg_effect h
  | readReg reg =>
    have h : readReg reg s = .next t := h
    unfold readReg at h
    cases hw : s.regWord reg with
    | none => simp [hw] at h
    | some v => simp only [hw, Host.Outcome.next.injEq] at h; subst h; exact .reads v
  | writeSrc a b =>
    obtain ⟨hb, ha, rfl⟩ := bufferAccess_eq_next.1 h
    exact .placesSrc hb a b ha
  | writeDst a b =>
    obtain ⟨hb, ha, rfl⟩ := bufferAccess_eq_next.1 h
    exact .placesDst hb a b ha
  | readDst a =>
    obtain ⟨-, -, rfl⟩ := bufferAccess_eq_next.1 h
    exact .reads _
  | reset => cases h; exact .resets
  | pass => cases h; exact .stays

/-- A step takes the host's next move off the queue, and is then a step of the block or a move of the host. -/
theorem step_cases {s t : State} (h : step s = .next t) :
    ∃ rest, blockStep { s with host := rest } = .next t ∨ HostEffect { s with host := rest } t := by
  unfold step at h
  split at h
  · next hs => exact ⟨[], .inl (by rw [← hs]; exact h)⟩
  · next rest _ => exact ⟨rest, .inl h⟩
  · next m rest _ _ => exact ⟨rest, .inr (hostMove_effect h)⟩

theorem step_hostMove {m : HostMove} {s : State} {rest : List HostMove} (hm : m ≠ .pass) (hs : s.host = m :: rest) :
    step s = hostMove m { s with host := rest } := by
  unfold step
  rw [hs]
  cases m with
  | pass => exact absurd rfl hm
  | writeReg | readReg | writeSrc | writeDst | readDst | reset => rfl

/-! ### The invariant of the registers and memories -/

/-- The legal configurations (R171 to R174). -/
theorem configLegal_iff (s : State) : s.configLegal = true ↔
    s.cfgMode ≠ 3#2 ∧ s.n * s.e < Config.lenLimit ∧
    (s.cfgMode = 0#2 → s.e % 4 = 0 ∧ 4 ≤ s.e ∧ s.e ≤ 256) ∧
    (s.cfgMode = 1#2 → s.n % 3 = 0 ∧ (s.e = 2 ∨ s.e = 4)) ∧
    (s.cfgMode = 2#2 → s.e = 2 ∨ s.e = 4) := by
  have hcases : ∀ m : BitVec 2, m = 0#2 ∨ m = 1#2 ∨ m = 2#2 ∨ m = 3#2 := by decide
  rcases hcases s.cfgMode with h | h | h | h <;> simp [State.configLegal, h, and_assoc]

/-- A destination of a legal configuration lies where offsets exist (R171). -/
theorem size_le_of_legal {s : State} (h : s.configLegal = true) : s.n * s.e ≤ Config.lenLimit :=
  le_of_lt ((configLegal_iff s).1 h).2.1

/-- The element size of a legal configuration of the mode Attributes (R172). -/
theorem elemSize_of_attr {s : State} (h : s.configLegal = true) (hm : s.cfgMode = 0#2) : 4 ≤ s.e ∧ s.e ≤ 256 :=
  (((configLegal_iff s).1 h).2.2.1 hm).2

/-- The count of a legal triangle configuration (R173). -/
theorem count_of_tri {s : State} (h : s.configLegal = true) (hm : s.cfgMode = 1#2) : s.n % 3 = 0 :=
  (((configLegal_iff s).1 h).2.2.2.1 hm).1

/-- An effect of the block on DST keeps the memories well-formed. -/
theorem DstEffect.memoriesOk {s t : State} {k : Nat} {φ : Mem → Mem} (hφ : DstEffect k φ) (hk : k ≤ Config.lenLimit)
    (hs : s.memoriesOk) (hsrc : t.src = s.src) (hdst : t.dst = φ s.dst) : t.memoriesOk := by
  obtain ⟨hsw, hdw, hsb, hdb⟩ := hs
  unfold State.memoriesOk
  rw [hsrc, hdst]
  exact ⟨hsw, hφ.wf hdw, hsb, hφ.keeps_below hk hdb⟩

/-- The end of a call leaves a state with the invariant. -/
theorem inv_endCall {s : State} (st : Status) (hm : s.memoriesOk) (hle : s.n * s.e ≤ Config.lenLimit)
    (hc : s.cfgerr = false) : (s.endCall st).Inv :=
  ⟨⟨by simp, by simp, by simp [hc]⟩, ⟨⟨st, rfl⟩, by simp⟩, (DstEffect.ofEnd st .stays).memoriesOk hle hm rfl rfl,
    by simp, by simp⟩

/-- A running call has no CFGERR (R11). -/
theorem State.Inv.cfgerr_of_busy {s : State} (hs : s.Inv) (hb : s.busy = true) : s.cfgerr = false := by
  obtain ⟨⟨-, hbc, -⟩, -⟩ := hs
  simpa [hb] using hbc

theorem State.Inv.legal {s : State} (hs : s.Inv) (hb : s.busy = true) : s.configLegal = true := by
  obtain ⟨-, -, -, -, hlegal⟩ := hs
  exact hlegal hb

theorem State.Inv.memoriesOk {s : State} (hs : s.Inv) : s.memoriesOk := by
  obtain ⟨-, -, hmem, -⟩ := hs
  exact hmem

theorem State.Inv.busy_iff {s : State} (hs : s.Inv) : s.busy = true ↔ s.pos ≠ .idle := by
  obtain ⟨-, -, -, hpos, -⟩ := hs
  exact hpos

theorem State.Inv.pos_of_not_busy {s : State} (hs : s.Inv) (hb : s.busy = false) : s.pos = .idle := by
  by_contra hp
  simp [hs.busy_iff.2 hp] at hb

/-- What is confined keeps the invariant of a running call. -/
theorem Confined.keeps_inv {go : State → Res} {s t : State} (h : Confined go s) (hs : s.Inv) (hb : s.busy = true)
    (e : go s = .next t) : t.Inv := by
  have hle := size_le_of_legal (hs.legal hb)
  cases h with
  | goesOn p w φ hp hφ h =>
    obtain rfl := Host.Outcome.next.inj ((h s.dst).symm.trans e)
    obtain ⟨hflags, hstatus, hmem, hpos, hlegal⟩ := hs
    exact ⟨hflags, hstatus, hφ.memoriesOk hle hmem rfl rfl, ⟨fun _ => hp (hpos.1 hb), fun _ => hb⟩, hlegal⟩
  | ends st φ hφ h =>
    obtain rfl := Host.Outcome.next.inj ((h s.dst).symm.trans e)
    exact inv_endCall st (hφ.memoriesOk hle hs.memoriesOk rfl rfl) hle (hs.cfgerr_of_busy hb)
  | faults h => exact absurd (e.symm.trans (h s.dst)) (by simp)

theorem blockStep_of_idle {s : State} (hp : s.pos = .idle) : blockStep s = .next s := by simp only [blockStep, due, hp]

theorem blockStep_keeps_inv {s t : State} (hs : s.Inv) (h : blockStep s = .next t) : t.Inv := by
  cases hb : s.busy with
  | true => exact (blockStep_confined s).keeps_inv hs hb h
  | false => rw [blockStep_of_idle (hs.pos_of_not_busy hb)] at h; cases h; exact hs

theorem inv_accept {s : State} (hs : s.Inv) (hc : s.configLegal = true) : s.accept.Inv :=
  ⟨⟨by simp, by simp, by simp⟩, ⟨⟨.ok, rfl⟩, fun _ => rfl⟩, hs.memoriesOk, by simp, fun _ => hc⟩

theorem inv_refuseConfig {s : State} (hs : s.Inv) (hb : s.busy = false) : s.refuseConfig.Inv := by
  obtain ⟨-, hstatus, hmem, hpos, hlegal⟩ := hs
  exact ⟨⟨by simp, by simp [hb], by simp⟩, hstatus, hmem, hpos, hlegal⟩

theorem inv_hardReset {s : State} (hs : s.Inv) : s.hardReset.Inv := by
  refine ⟨⟨by simp [State.hardReset], by simp [State.hardReset], by simp [State.hardReset]⟩,
    ⟨⟨.ok, rfl⟩, fun _ => rfl⟩, ?_, by simp [State.hardReset], by simp [State.hardReset]⟩
  cases hb : s.busy with
  | true =>
    exact (DstEffect.drops .stays).memoriesOk (size_le_of_legal (hs.legal hb)) hs.memoriesOk rfl (if_pos hb)
  | false => exact DstEffect.stays.memoriesOk (Nat.zero_le _) hs.memoriesOk rfl (if_neg (by simp [hb]))

theorem exec_start_keeps_inv {x : BitVec 31} {s t : State} (hs : s.Inv) (h : exec (.start x) s = .next t) : t.Inv := by
  rcases exec_start_cases h with ⟨-, rfl⟩ | ⟨hb, -, rfl⟩ | ⟨hb, hc, -, -, rfl⟩ | ⟨hb, hc, -, -, rfl⟩
  · exact hs
  · exact inv_refuseConfig hs hb
  · exact inv_endCall .badFilter hs.memoriesOk (size_le_of_legal hc) rfl
  · exact inv_accept hs hc

/-- Every move of the host keeps the invariant. -/
theorem HostEffect.keeps_inv {s t : State} (h : HostEffect s t) (hs : s.Inv) : t.Inv := by
  cases h with
  | stays | reads => exact hs
  | starts x _ h => exact exec_start_keeps_inv hs h
  | resets => exact inv_hardReset hs
  | configures hb =>
    obtain ⟨hflags, hstatus, hmem, hpos, -⟩ := hs
    exact ⟨hflags, hstatus, hmem, hpos, fun hb' => absurd (hb.symm.trans hb') (by simp)⟩
  | placesSrc hb a b ha =>
    obtain ⟨hflags, hstatus, ⟨hsw, hdw, hsb, hdb⟩, hpos, hlegal⟩ := hs
    exact ⟨hflags, hstatus, ⟨Mem.wf_write _ _ _ _ hsw, hdw, Mem.below_write .src b hsb ha, hdb⟩, hpos, hlegal⟩
  | placesDst hb a b ha =>
    obtain ⟨hflags, hstatus, ⟨hsw, hdw, hsb, hdb⟩, hpos, hlegal⟩ := hs
    exact ⟨hflags, hstatus, ⟨hsw, Mem.wf_write _ _ _ _ hdw, hsb, Mem.below_write .dst b hdb ha⟩, hpos, hlegal⟩

end Sys2Proof.Machine

namespace Sys2Proof.Proofs

open Sys2Proof.Machine Sys2Proof.Claims

/-- Settles O55: a block step is confined, and each kind of host move keeps the invariant. -/
theorem everyStepKeepsInvariant : Obligations.EveryStepKeepsInvariant := by
  intro s t hs h
  obtain ⟨rest, h | h⟩ := step_cases h
  · exact blockStep_keeps_inv (s := { s with host := rest }) hs h
  · exact h.keeps_inv (s := { s with host := rest }) hs

/-- Settles O54: every field of the reset state is 0, false or empty. -/
theorem invariantAtReset : Obligations.InvariantAtReset := by
  refine ⟨⟨⟨?_, ?_, ?_⟩, ⟨⟨.ok, rfl⟩, fun _ => rfl⟩, ⟨rfl, rfl, ?_, ?_⟩, ?_, ?_⟩, ?_⟩ <;>
    simp [State.reset, State.callOk]

/-- Settles O9: the word decodes as START where bit 0 is set, and as nothing where it is not. -/
theorem ctrlWriteIsStart : Obligations.CtrlWriteIsStart := by
  intro s v rest hs
  have hstep : step s = writeReg 0 v { s with host := rest } := step_hostMove (by simp) hs
  exact ⟨fun hv => hstep.trans (writeReg_ctrl_start hv _),
    fun hv => hstep.trans (writeReg_ctrl_notStart (by simp [hv]) _)⟩

/-- Settles O10: the registers are those of `State.hardReset`; of DST what is dropped has no value. -/
theorem hardwareResetOfRegisters : Obligations.HardwareResetOfRegisters := by
  intro s rest hs
  refine ⟨State.hardReset { s with host := rest }, step_hostMove (by simp) hs, rfl, rfl, rfl, rfl, rfl, rfl, rfl, rfl, rfl,
    rfl, rfl, rfl, rfl, rfl, fun hb a ha => ?_, fun hb => if_neg (by simp [hb])⟩
  have hdst : (State.hardReset { s with host := rest }).dst = Mem.dropBelow s.dst (s.n * s.e) := if_pos hb
  rw [State.dstByte, hdst, Mem.read_dropBelow_dst, if_pos ha]

/-- Settles O11: START at reset is refused, since the element size 0 is illegal. -/
theorem resetBlockIsIdle : Obligations.ResetBlockIsIdle := by
  refine ⟨fun reg hreg => ?_, fun s hp hs => (step_of_host_nil hs).trans (blockStep_of_idle hp), fun x =>
    ⟨State.reset.refuseConfig, exec_start_of_illegal x rfl (by decide), rfl, rfl, rfl, by decide⟩⟩
  interval_cases reg <;> rfl

end Sys2Proof.Proofs

/-! ### What the host reads, and what its accesses do -/

namespace Sys2Proof.Machine

open Sys2Proof.Claims

/-- The low bits of a word, widened with zeros, are the word masked. -/
theorem setWidth_bits_zero (len : Nat) (v : Word) : (bits 0 len v).setWidth 32 = v &&& (BitVec.allOnes len).setWidth 32 := by
  ext i hi
  simp [bits, Bool.and_comm, BitVec.getLsbD_eq_getElem hi]

theorem bufferAccess_of_busy {a : Nat} {s new : State} (hb : s.busy = true) :
    bufferAccess a s new = .refused .buffersTouchedWhileBusy := by simp [bufferAccess, hb]

theorem bufferAccess_of_lt {a : Nat} {s new : State} (hb : s.busy = false) (ha : a < 2 ^ 32) :
    bufferAccess a s new = .next new := bufferAccess_eq_next.2 ⟨hb, ha, rfl⟩

theorem bufferAccess_of_le {a : Nat} {s new : State} (hb : s.busy = false) (ha : 2 ^ 32 ≤ a) :
    bufferAccess a s new = .fault .noSuchOffset := by
  have ha : Config.lenLimit ≤ a := ha
  simp [bufferAccess, hb, ha]

/-- A busy block takes no write to a register that exists. -/
theorem writeReg_of_busy {reg : Nat} {s : State} (v : Word) (hb : s.busy = true) (hreg : reg ≤ 8) :
    writeReg reg v s = .next s := by
  match reg with
  | 0 =>
    by_cases hv : bits 0 1 v = 1#1
    · exact (writeReg_ctrl_start hv s).trans (exec_start_of_busy _ hb)
    · exact writeReg_ctrl_notStart hv s
  | 1 | 2 | 8 => rfl
  | 3 | 4 | 5 | 6 | 7 => exact writeCfg_of_busy hb _
  | r + 9 => omega

/-- The FLAGS word is the number of its three bits. -/
theorem flagsWord_eq (s : State) :
    s.flagsWord = BitVec.ofNat 32 (s.busy.toNat + 2 * s.done.toNat + 4 * s.cfgerr.toNat) := by
  unfold State.flagsWord
  cases s.busy <;> cases s.done <;> cases s.cfgerr <;> decide

theorem regWord_eq_hostWord {s : State} {reg : Nat} (hreg : reg ≤ 8) : s.regWord reg = some (hostWord s reg) := by
  match reg with
  | 0 | 2 | 5 | 7 => rfl
  | 1 => exact congrArg some (flagsWord_eq s)
  | 3 | 4 | 6 | 8 => simp [State.regWord, hostWord]
  | r + 9 => omega

theorem readReg_of_le {s : State} {reg : Nat} (hreg : reg ≤ 8) :
    readReg reg s = .next { s with rdata := hostWord s reg } := by
  simp only [readReg, regWord_eq_hostWord hreg]

/-- A byte of SRC reads as it was placed, every other as before. -/
theorem srcByte_write {s : State} (a x : Nat) (b : Byte) (h : Mem.wf .src s.src = true) :
    State.srcByte { s with src := Mem.write .src s.src a b } x = if x = a then b else s.srcByte x := by
  simp only [State.srcByte, Mem.read_write .src s.src a x b h, eq_comm (a := x)]
  split <;> rfl

/-- A byte of DST reads as it was written, every other as before. -/
theorem dstByte_write (s : State) (a x : Nat) (b : Byte) :
    State.dstByte { s with dst := Mem.write .dst s.dst a b } x = if x = a then some b else s.dstByte x := by
  simp only [State.dstByte, Mem.read_write_dst, eq_comm (a := x)]

/-! ### START's tests as the spec words them -/

theorem buffersOverlap_iff (s : State) : s.buffersOverlap = true ↔ SharedAddress s := by
  unfold State.buffersOverlap SharedAddress
  rw [decide_eq_true_iff]
  constructor
  · intro h
    exact ⟨max s.par.srcBase s.par.dstBase, by omega, by omega, by omega, by omega⟩
  · rintro ⟨p, h1, h2, h3, h4⟩
    omega

theorem filterLegal_of_filterCase {s : State} (h : FilterCase s) : s.filterLegal = true := by
  rcases h with hf | ⟨hf, hm, he | he⟩ | ⟨hf, hm, he⟩ | ⟨hf, hm, he⟩ <;> simp [State.filterLegal, *]

end Sys2Proof.Machine

namespace Sys2Proof.Proofs

open Sys2Proof.Machine Sys2Proof.Claims

/-- Settles O12: no arm of a register write acts on a busy block, and a buffer access is refused. -/
theorem hostWritesWhileBusy : Obligations.HostWritesWhileBusy := by
  refine ⟨fun x s hb => exec_start_of_busy x hb, fun s reg v rest hb hreg hs =>
    (step_hostMove (by simp) hs).trans (writeReg_of_busy (s := { s with host := rest }) v hb hreg), ?_⟩
  rintro s a b rest hb (hs | hs | hs)
  all_goals exact (step_hostMove (by simp) hs).trans (bufferAccess_of_busy (s := { s with host := rest }) hb)

/-- Settles O14: a register reads as the table's word; a buffer access goes through below 2^32 and faults beyond. -/
theorem hostAccesses : Obligations.HostAccesses := by
  refine fun s rest => ⟨fun reg hreg => ⟨regWord_eq_hostWord hreg, fun hs => (step_hostMove (by simp) hs).trans
    (readReg_of_le (s := { s with host := rest }) hreg)⟩,
    fun hb a ha => ⟨fun hs => ?_, fun b hs hwf => ?_, fun b hs => ?_⟩, ?_⟩
  · exact (step_hostMove (by simp) hs).trans ((bufferAccess_of_lt (s := { s with host := rest }) hb ha).trans (by
      simp [State.dstRead, State.dstByte]))
  · exact ⟨_, (step_hostMove (by simp) hs).trans (bufferAccess_of_lt (s := { s with host := rest }) hb ha),
      fun x => srcByte_write a x b hwf, rfl⟩
  · exact ⟨_, (step_hostMove (by simp) hs).trans (bufferAccess_of_lt (s := { s with host := rest }) hb ha),
      fun x => dstByte_write s a x b, rfl⟩
  · rintro hb a b ha (hs | hs | hs)
    all_goals exact (step_hostMove (by simp) hs).trans (bufferAccess_of_le (s := { s with host := rest }) hb ha)

/-- Settles O16: START's tests are those of R176 and R223. -/
theorem startBeginsDecode : Obligations.StartBeginsDecode := by
  refine fun x s hb hc => ⟨fun hno hf => ?_, fun hsh => exec_start_of_overlap x hb hc ((buffersOverlap_iff s).2 hsh)⟩
  have ho : s.buffersOverlap = false := Bool.eq_false_iff.2 fun h => hno ((buffersOverlap_iff s).1 h)
  exact exec_start_of_legal x hb hc ho (filterLegal_of_filterCase hf)

/-- Settles O49: what `State.endCall` sets, and what dropping the bytes of DST leaves. -/
theorem endOfCallEffects : Obligations.EndOfCallEffects := by
  intro st s
  refine ⟨by cases st <;> rfl, rfl, rfl, rfl, rfl, rfl, rfl, sameInputs_refl s,
    fun hst => if_pos hst, fun hst => ?_⟩
  have hdst : (s.endCall st).dst = Mem.dropBelow s.dst (s.n * s.e) := if_neg hst
  simp only [State.dstByte, hdst, Mem.read_dropBelow_dst]
  exact ⟨fun a ha => if_pos ha, fun a ha => if_neg (Nat.not_lt.2 ha)⟩

/-- Settles O13: the register takes the low bits, and no other register reads it. -/
theorem cfgRegistersReadBack : Obligations.CfgRegistersReadBack := by
  intro s reg v rest hb h3 h7 hs
  have hstep : step s = writeReg reg v { s with host := rest } := step_hostMove (by simp) hs
  have hidle : ∀ new, State.writeCfg { s with host := rest } new = .next new := writeCfg_of_idle hb
  have hfull : v &&& 0xFFFFFFFF#32 = v := BitVec.and_allOnes
  interval_cases reg
  · exact ⟨_, hstep.trans (hidle _), congrArg some (setWidth_bits_zero 2 v),
      fun r hr hne => by interval_cases r <;> trivial, rfl, rfl⟩
  · exact ⟨_, hstep.trans (hidle _), congrArg some (setWidth_bits_zero 2 v),
      fun r hr hne => by interval_cases r <;> trivial, rfl, rfl⟩
  · exact ⟨_, hstep.trans (hidle _), congrArg some hfull.symm,
      fun r hr hne => by interval_cases r <;> trivial, rfl, rfl⟩
  · exact ⟨_, hstep.trans (hidle _), congrArg some (setWidth_bits_zero 9 v),
      fun r hr hne => by interval_cases r <;> trivial, rfl, rfl⟩
  · exact ⟨_, hstep.trans (hidle _), congrArg some hfull.symm,
      fun r hr hne => by interval_cases r <;> trivial, rfl, rfl⟩

end Sys2Proof.Proofs

/-! ## What a step of the block does at each position

`blockStep_cases` says once, position by position, what a step of the block leaves of the cursors and of the elements in
DST; the ranges of the cursors (R14 to R21) and the coverage of DST (R49) are read off it. -/

namespace Sys2Proof.Machine

/-- `k` more elements are produced: IDX passes them, their bytes have a value, and no byte loses its value (R16, R47). -/
def Produces (k : Nat) (s t : State) : Prop :=
  t.w.idx = s.w.idx + k ∧ (∀ x, (s.dstByte x).isSome = true → (t.dstByte x).isSome = true) ∧
  ∀ x, s.w.idx * s.e ≤ x → x < (s.w.idx + k) * s.e → (t.dstByte x).isSome = true

/-- A byte has a value after a write where it is written or had one before. -/
theorem Mem.isSome_read_writeBytes (m : Mem) (a x : Nat) (bs : List Byte) :
    (Mem.read .dst (Mem.writeBytes .dst m a bs) x).isSome = true ↔
      (a ≤ x ∧ x < a + bs.length) ∨ (Mem.read .dst m x).isSome = true := by
  rw [Mem.read_writeBytes_dst]
  by_cases h : a ≤ x ∧ x < a + bs.length
  · have hlt : x - a < bs.length := by omega
    simp [h, hlt]
  · simp [h]

/-- One run of bytes that holds `k` elements from IDX on. -/
theorem produces_writeBytes {k : Nat} {s t : State} {a : Nat} {bs : List Byte} (hidx : t.w.idx = s.w.idx + k)
    (hdst : t.dst = Mem.writeBytes .dst s.dst a bs) (ha : a = s.w.idx * s.e) (hlen : bs.length = k * s.e) :
    Produces k s t := by
  have hmul : (s.w.idx + k) * s.e = s.w.idx * s.e + k * s.e := by ring
  refine ⟨hidx, fun x hx => ?_, fun x h1 h2 => ?_⟩ <;> rw [State.dstByte, hdst, Mem.isSome_read_writeBytes]
  · exact .inr hx
  · exact .inl (by omega)

/-! ### Triangles -/

/-- Emit produces three elements and changes nothing but DST and IDX. -/
theorem emit_eq_val {a b c : Word} {s t : State} (h : emit a b c s = .val () t) :
    Produces 3 s t ∧ t = { s with dst := t.dst, w := { s.w with idx := s.w.idx + 3 } } := by
  rcases emit_cases a b c s with ⟨-, e⟩ | ⟨-, e⟩
  swap; · rw [e] at h; cases h
  rw [e] at h
  cases h
  have h1 : (s.w.idx + 1) * s.e = s.w.idx * s.e + s.e := by ring
  have h2 : (s.w.idx + 2) * s.e = s.w.idx * s.e + s.e + s.e := by ring
  have h3 : (s.w.idx + 3) * s.e = s.w.idx * s.e + s.e + s.e + s.e := by ring
  refine ⟨⟨rfl, fun x hx => ?_, fun x hl hr => ?_⟩, rfl⟩ <;>
    simp only [State.dstByte, Mem.isSome_read_writeBytes, leBytes_length]
  · exact .inr (.inr (.inr hx))
  · omega

/-- A triangle is done: three elements are produced, `k` control bytes passed, and the payload read so far lies below
CFG_SRCLEN. -/
def TriangleMade (k : Nat) (s t : State) : Prop :=
  Produces 3 s t ∧ t.w.ccur = s.w.ccur + k ∧ (t.w.dcur = s.w.dcur ∨ t.w.dcur ≤ s.l) ∧
  t = { s with dst := t.dst, w := t.w }

/-- What precedes Emit moves CCUR by `k` and leaves IDX. -/
theorem TriangleMade.of_withW {j k : Nat} {s t : State} {w : Work} (h : TriangleMade j (s.withW w) t)
    (hidx : w.idx = s.w.idx) (hccur : w.ccur + j = s.w.ccur + k) (hdcur : w.dcur = s.w.dcur ∨ w.dcur ≤ s.l) :
    TriangleMade k s t := by
  obtain ⟨⟨hti, hkeep, hnew⟩, htc, htd, ht⟩ := h
  simp only [State.withW_w, State.withW_l, State.withW_e, State.withW_dstByte, hidx] at hti hkeep hnew htc htd
  exact ⟨⟨hti, hkeep, hnew⟩, htc.trans hccur, by omega, ht⟩

/-- Pushes after Emit touch no cursor. -/
theorem TriangleMade.of_emit {a b c : Word} {s t : State} {w : Work} (h : emit a b c s = .val () t)
    (hidx : w.idx = t.w.idx) (hccur : w.ccur = t.w.ccur) (hdcur : w.dcur = t.w.dcur) :
    TriangleMade 0 s (t.withW w) := by
  obtain ⟨⟨hti, hkeep, hnew⟩, ht⟩ := emit_eq_val h
  rw [ht] at hccur hdcur
  exact ⟨⟨hidx.trans hti, hkeep, hnew⟩, hccur, .inl hdcur, by rw [ht]; rfl⟩

@[simp] theorem Work.pushVertexUnless_idx (hit : Bool) (v : Word) (w : Work) : (w.pushVertexUnless hit v).idx = w.idx := by
  cases hit <;> rfl

@[simp] theorem Work.pushVertexUnless_ccur (hit : Bool) (v : Word) (w : Work) :
    (w.pushVertexUnless hit v).ccur = w.ccur := by cases hit <;> rfl

@[simp] theorem Work.pushVertexUnless_dcur (hit : Bool) (v : Word) (w : Work) :
    (w.pushVertexUnless hit v).dcur = w.dcur := by cases hit <;> rfl

/-- A part that resolves a vertex: it leaves IDX, CCUR and all but the working registers, and reads below CFG_SRCLEN; or it ends
the call with Truncated. -/
def Resolves {α : Type} (r : Run α) (s : State) : Prop :=
  (∃ a w, r = .val a (s.withW w) ∧ w.idx = s.w.idx ∧ w.ccur = s.w.ccur ∧ (w.dcur = s.w.dcur ∨ w.dcur ≤ s.l)) ∨
  r = .stop (.next (s.endCall .truncated))

theorem takeNext_resolves (s : State) : Resolves (takeNext s) s := .inl ⟨_, _, rfl, rfl, rfl, .inl rfl⟩

theorem moveLast_resolves (delta : Word) (s : State) : Resolves (moveLast delta s) s :=
  .inl ⟨_, _, rfl, rfl, rfl, .inl rfl⟩

theorem readVertex_resolves (slot : Nibble) (s : State) : Resolves (readVertex slot s) s :=
  .inl ⟨_, s.w, rfl, rfl, rfl, .inl rfl⟩

theorem decodeIndex_resolves (s : State) : Resolves (decodeIndex s) s := by
  rcases decodeIndex_cases s with ⟨r, c, k, -, -, hl, e⟩ | ⟨-, e⟩
  · exact .inl ⟨_, _, e, rfl, rfl, .inr hl⟩
  · exact .inr e

theorem resolveNew_resolves (fea feb fec : Nibble) (s : State) : Resolves (resolveNew fea feb fec s) s := by
  rcases resolveNew_cases fea feb fec s with ⟨x, n, t, k, -, ⟨hl, r, c, l, rfl⟩, e⟩ | e
  · refine .inl ⟨x, _, e, rfl, rfl, ?_⟩
    rcases hl with rfl | hl
    · exact .inl rfl
    · exact .inr hl
  · exact .inr e

/-- Vertices resolved, then emitted, then pushed. -/
theorem triangleMade_of_resolves {α : Type} {r : Run α} {s t : State} {a b c : α → Word} {push : α → Work → Work}
    (hr : Resolves r s) (hidx : ∀ x w, (push x w).idx = w.idx) (hccur : ∀ x w, (push x w).ccur = w.ccur)
    (hdcur : ∀ x w, (push x w).dcur = w.dcur)
    (h : (r.bind fun x u => (emit (a x) (b x) (c x) u).bind fun _ u => .val () (u.withW (push x u.w))).finish = .next t) :
    t = s.endCall .truncated ∨ TriangleMade 0 s t := by
  rcases hr with ⟨x, w, rfl, hi, hc, hd⟩ | rfl
  swap; · exact .inl (Host.Outcome.next.inj h).symm
  right
  rw [Run.bind_val] at h
  rcases he : emit (a x) (b x) (c x) (s.withW w) with ⟨⟨⟩, u⟩ | o
  · rw [he] at h
    obtain rfl := Host.Outcome.next.inj h
    exact (TriangleMade.of_emit he (hidx x _) (hccur x _) (hdcur x _)).of_withW hi (by rw [hc]) hd
  · rcases emit_cases (a x) (b x) (c x) (s.withW w) with ⟨-, e⟩ | ⟨-, e⟩
    · rw [e] at he; cases he
    · rw [e] at h; cases h

theorem newTriangle_next {feb fec : Nibble} {s t : State} (h : (newTriangle feb fec s).finish = .next t) :
    t = s.endCall .truncated ∨ TriangleMade 0 s t :=
  triangleMade_of_resolves (resolveNew_resolves s.w.fea feb fec s) 
    (a := fun (x : (Word × Bool) × (Word × Bool) × (Word × Bool)) => x.1.1) (b := fun x => x.2.1.1) (c := fun x => x.2.2.1)
    (push := fun (a, b, c) w => (((((w.pushVertexUnless a.2 a.1).pushVertexUnless b.2 b.1).pushVertexUnless c.2 c.1).pushEdge
      b.1 a.1).pushEdge c.1 b.1).pushEdge a.1 c.1) (by simp) (by simp) (by simp) h

theorem edgeTriangle_next {fe : Nibble} {hit : Bool} {third : State → Run Word} {s t : State}
    (hthird : ∀ u, Resolves (third u) u) (h : (edgeTriangle fe hit third s).finish = .next t) :
    t = s.endCall .truncated ∨ TriangleMade 1 s t :=
  (triangleMade_of_resolves (hthird (s.withW s.w.passControl)) (a := fun _ => slot16 s.w.efA (edgeSlot s.w.eoff fe))
    (b := fun _ => slot16 s.w.efB (edgeSlot s.w.eoff fe)) (c := fun c => c)
    (push := fun c w => ((w.pushVertexUnless hit c).pushEdge c (slot16 s.w.efB (edgeSlot s.w.eoff fe))).pushEdge
      (slot16 s.w.efA (edgeSlot s.w.eoff fe)) c) (by simp) (by simp) (by simp) h).imp id
    fun h => h.of_withW rfl rfl (.inl rfl)

theorem cauxTriangle_next {feb fec : Nibble} {s t : State} (hd : s.w.auxPay = true → s.w.dcur < s.l)
    (h : (cauxTriangle feb fec s).finish = .next t) : t = s.endCall .truncated ∨ TriangleMade 0 s t := by
  unfold cauxTriangle at h
  split at h
  · exact (newTriangle_next h).imp id fun h => h.of_withW rfl rfl (.inr (hd ‹_›))
  · exact newTriangle_next h

theorem restartTriangle_next {s t : State} (hd : s.w.dcur < s.l) (h : (restartTriangle s).finish = .next t) :
    t = s.endCall .truncated ∨ TriangleMade 0 s t :=
  (newTriangle_next h).imp id fun h => h.of_withW rfl rfl (.inr hd)

/-- The codeAux byte from the payload, then its triangle. -/
theorem payloadTriangle_next {s t : State}
    (h : ((memRead s.w.dcur s).bind fun aux s =>
      if aux = 0#8 then restartTriangle s else cauxTriangle (bits 4 4 aux) (bits 0 4 aux) s).finish = .next t) :
    t = s.endCall .truncated ∨ TriangleMade 0 s t := by
  rcases memRead_cases s.w.dcur s with ⟨hd, e⟩ | ⟨-, e⟩ <;> rw [e] at h
  · rw [Run.bind_val] at h
    split at h
    · exact restartTriangle_next hd h
    · exact cauxTriangle_next (fun _ => hd) h
  · exact .inl (Host.Outcome.next.inj h).symm

/-- The codeAux byte from the table, then its triangle. -/
theorem tableTriangle_next {a : Nat} {s t : State} (haux : s.w.auxPay = false)
    (h : ((memRead a s).bind fun aux s => cauxTriangle (bits 4 4 aux) (bits 0 4 aux) s).finish = .next t) :
    t = s.endCall .truncated ∨ TriangleMade 0 s t := by
  rcases memRead_cases a s with ⟨-, e⟩ | ⟨-, e⟩ <;> rw [e] at h
  · exact cauxTriangle_next (by simp [haux]) h
  · exact .inl (Host.Outcome.next.inj h).symm

theorem newFromPayload_next {fea : Nibble} {s t : State} (h : (newFromPayload fea s).finish = .next t) :
    t = s.endCall .truncated ∨ TriangleMade 1 s t :=
  (payloadTriangle_next (s := s.withW { s.w.passControl with fea := fea, auxPay := true }) h).imp id
    fun h => h.of_withW rfl rfl (.inl rfl)

theorem execTriNewTable_next {j : Nibble} {s t : State} (h : execTriNewTable j s = .next t) :
    t = s.endCall .truncated ∨ TriangleMade 1 s t :=
  (tableTriangle_next (s := s.withW { s.w.passControl with fea := 0#4, auxPay := false }) rfl h).imp id
    fun h => h.of_withW rfl rfl (.inl rfl)

/-- Every control byte makes one triangle, or ends the call with Truncated. -/
theorem exec_decodeTri_next {v0 : Bool} {b : Byte} {s t : State} (h : exec (decodeTri v0 b) s = .next t) :
    t = s.endCall .truncated ∨ TriangleMade 1 s t := by
  unfold decodeTri at h
  dsimp only at h
  split_ifs at h
  · exact newFromPayload_next h
  · exact newFromPayload_next h
  · exact execTriNewTable_next h
  · exact edgeTriangle_next takeNext_resolves h
  · exact edgeTriangle_next decodeIndex_resolves h
  · exact edgeTriangle_next (moveLast_resolves _) h
  · exact edgeTriangle_next (moveLast_resolves _) h
  · exact edgeTriangle_next (fun u => readVertex_resolves _ u) h

/-! ### Sequence symbols -/

/-- SEQ produces one element and passes its bytes. -/
theorem exec_seq_next {bs : List Byte} {s t : State} (h : exec (.seq bs) s = .next t) :
    Produces 1 s t ∧ t.w.dcur = s.w.dcur + bs.length ∧ t = { s with dst := t.dst, w := t.w } := by
  obtain ⟨r, c, hw⟩ := Work.vbBytes_frame bs { s.w with vcnt := 0 }
  have h : execSeq bs s = .next t := h
  unfold execSeq at h
  dsimp only at h
  rcases memWrite_cases (s.w.idx * s.e) (leBytes s.e (slot2 (s.w.varint bs).seqIndex.seqlast
    (seqSlot (s.w.varint bs).seqIndex.vres))) (s.withW (s.w.varint bs).seqIndex) with ⟨-, e⟩ | ⟨-, e⟩
  · rw [e] at h
    obtain rfl := Host.Outcome.next.inj h
    refine ⟨produces_writeBytes ?_ rfl rfl (by simp), ?_, rfl⟩
    · simp [Work.varint, hw]
    · simp [Work.varint, hw]
  · rw [e] at h; cases h

end Sys2Proof.Machine

/-! ### Byte groups and blocks -/

namespace Sys2Proof.Machine

/-- A group is passed: DCUR stands behind it, at most at CFG_SRCLEN; the next group or the end of the run comes. -/
def GroupPassed (s t : State) : Prop :=
  ∃ raw k x, (x = s.w.dcur ∨ x ≤ s.l) ∧ t = { s with
    pos := if s.w.grp + 1 < s.groups then .group else .planeEnd
    w := { s.w with raw := raw, lane := k, ext := x, dcur := x, grp := s.w.grp + 1 } }

/-- A group whose control bytes, where its lanes are all taken, lie below CFG_SRCLEN. -/
theorem groupOf_next {ctl : Nat} {lanes : State → Run Unit} {s t : State} (hl : ∀ u, LanePart (lanes u) u)
    (hctl : ∀ u, lanes (s.withW (s.w.beginGroup ctl)) = .val () u → ctl = 0 ∨ s.w.dcur + ctl ≤ s.l)
    (h : groupOf ctl lanes s = .next t) : t = s.endCall .truncated ∨ GroupPassed s t := by
  unfold groupOf at h
  rcases hl (s.withW (s.w.beginGroup ctl)) with ⟨raw, k, x, -, hx, e⟩ | e
  · right
    have hctl := hctl _ e
    rw [e] at h
    obtain rfl := Host.Outcome.next.inj h
    refine ⟨raw, 0 + k, x, ?_, rfl⟩
    simp only [State.withW_w, State.withW_l, Work.beginGroup_ext] at hx
    omega
  · rw [e] at h
    exact .inl (Host.Outcome.next.inj h).symm

/-- A group whose control bytes are unpacked by `f`. -/
theorem groupOf_controlBytes_next {ctl : Nat} {f : Byte → State → Run Unit} {s t : State} (hf : ∀ b u, LanePart (f b u) u)
    (h : groupOf ctl (controlBytes f ctl s.w.dcur) s = .next t) : t = s.endCall .truncated ∨ GroupPassed s t :=
  groupOf_next (controlBytes_part hf ctl s.w.dcur) (fun _ e =>
    controlBytes_bound (s := s.withW (s.w.beginGroup ctl)) hf e) h

/-- Every selector's group is passed, or the call ends with Truncated. -/
theorem exec_decodeSel_next {sel : BitVec 2} {s t : State} (h : exec (decodeSel sel) s = .next t) :
    t = s.endCall .truncated ∨ GroupPassed s t := by
  unfold decodeSel at h
  split_ifs at h
  · exact groupOf_next (repeatRun_part (codeLane_part false 0#8) 16) (fun _ _ => .inl rfl) h
  · exact groupOf_controlBytes_next (fun _ => c2Lanes_part _ _ _ _) h
  · exact groupOf_controlBytes_next (fun _ => c4Lanes_part _ _) h
  · exact groupOf_next (repeatRun_part literalLane_part 16) (fun _ _ => .inl rfl) h

/-- A block is copied: its vertices are produced, BLK passes them. -/
def BlockCopied (s t : State) : Prop :=
  Produces s.bc s t ∧ ∃ pred, t = { s with
    dst := t.dst, pos := .blockTop
    w := { s.w with pred := pred, idx := s.w.idx + s.bc, blk := s.w.blk + s.bc } }

theorem endBlock_next {s t : State} (hidx : s.w.idx = s.w.blk) (h : endBlock s = .next t) : BlockCopied s t := by
  rcases endBlock_cases s with ⟨-, e⟩ | ⟨-, e⟩ <;> rw [e] at h
  · obtain rfl := Host.Outcome.next.inj h
    exact ⟨produces_writeBytes rfl rfl (by rw [hidx]) (by simp), _, rfl⟩
  · cases h

/-- A header byte of a run is passed: the next one, or the first group. -/
def HeaderBytePassed (s t : State) : Prop :=
  ∃ sel,
    (s.w.dcur - s.w.hcur + 1 < s.headers ∧ t = s.withW { s.w with sel := sel, dcur := s.w.dcur + 1 }) ∨
    (s.headers ≤ s.w.dcur - s.w.hcur + 1 ∧
      t = { s with pos := .group, w := { s.w with sel := sel, dcur := s.w.dcur + 1, grp := 0 } })

theorem exec_ghdr_next {s0 s1 s2 s3 : BitVec 2} {s t : State} (h : exec (.ghdr s0 s1 s2 s3) s = .next t) :
    HeaderBytePassed s t := by
  have h : execGhdr s0 s1 s2 s3 s = .next t := h
  unfold execGhdr at h
  dsimp only at h
  refine ⟨latchSel s.w.sel (s.w.dcur - s.w.hcur) s0 s1 s2 s3, ?_⟩
  split at h
  · exact .inl ⟨‹_›, (Host.Outcome.next.inj h).symm⟩
  · exact .inr ⟨by omega, (Host.Outcome.next.inj h).symm⟩

/-! ### The step of the block, position by position -/

/-- The call ends with a status other than Ok. -/
def Failed (s t : State) : Prop := ∃ st, st ≠ .ok ∧ t = s.endCall st

theorem failed_truncated (s : State) : Failed s (s.endCall .truncated) := ⟨_, by simp, rfl⟩

theorem failed_of_truncated {s t : State} (h : t = s.endCall .truncated) : Failed s t := h ▸ failed_truncated s

/-- The header byte has been checked, and the stream has the length that the mode asks for before it. -/
def HeaderPassed (s t : State) : Prop :=
  (s.cfgMode = 0#2 ∧ tailSize s.e ≤ s.l - 1 ∧ t = beginAttributes s) ∨
  (s.cfgMode = 1#2 ∧ 1 + s.t + Config.auxTable ≤ s.l ∧ ∃ v, t = beginTriangles v s) ∨
  (s.cfgMode = 2#2 ∧ 1 + s.n + Config.seqTail ≤ s.l ∧ ∃ v, t = beginIndices v s)

/-- A sequence symbol is done: one element is produced, and its bytes lie below CFG_SRCLEN. -/
def IndexMade (s t : State) : Prop := Produces 1 s t ∧ t.w.dcur ≤ s.l ∧ t = { s with dst := t.dst, w := t.w }

/-- What a step of the block does that goes on with the call. -/
def GoesOn (s t : State) : Prop :=
  match s.pos with
  | .idle => t = s
  | .header => HeaderPassed s t
  | .seed => ∃ b, t = s.seedByte b
  | .blockTop => s.w.blk < s.n ∧ t = s.beginBlock
  | .runTop => s.headers ≤ s.l - s.w.dcur ∧ t = s.beginRun
  | .groupHeader => HeaderBytePassed s t
  | .group => GroupPassed s t
  | .planeEnd => t = s.endPlane
  | .blockEnd => s.w.idx = s.w.blk → BlockCopied s t
  | .triangles => s.w.ccur < 1 + s.t ∧ TriangleMade 1 s t
  | .sequence => s.w.idx < s.n ∧ IndexMade s t

/-- The decoder's loop is through. -/
def AllProduced (s : State) : Prop :=
  (s.pos = .blockTop ∧ s.n ≤ s.w.blk) ∨ (s.pos = .triangles ∧ 1 + s.t ≤ s.w.ccur) ∨
  (s.pos = .sequence ∧ s.n ≤ s.w.idx)

section Dues

variable {s t : State} (h : blockStep s = .next t)
include h

theorem blockStep_of_ends {st : Status} (hd : due s = .ends st) : t = s.endCall st := by
  simp only [blockStep, hd] at h
  exact (Host.Outcome.next.inj h).symm

theorem blockStep_of_work (hd : due s = .work) : between s = .next t := by
  simpa only [blockStep, hd] using h

/-- A symbol that is due runs, where its bytes are one. -/
theorem blockStep_of_symbol {c : Ctx} {bs : List Byte} (hd : due s = .symbol c bs) :
    Failed s t ∨ ∃ i rest, decode c bs = .ok (i, rest) ∧ exec i s = .next t := by
  simp only [blockStep, hd] at h
  split at h
  · exact .inr ⟨_, _, ‹_›, h⟩
  · refine .inl ⟨_, ?_, (Host.Outcome.next.inj h).symm⟩
    rename_i e _
    cases e <;> simp [statusOf]

/-- What stands behind a lookahead test. -/
theorem blockStep_of_truncatedIf {test : Bool} {d : Due} (hd : due s = truncatedIf test d) :
    Failed s t ∨ (test = false ∧ due s = d) := by
  cases test with
  | true => exact .inl (failed_of_truncated (blockStep_of_ends h hd))
  | false => exact .inr ⟨rfl, hd⟩

theorem blockStep_of_finalTest {arrived : Bool} (hd : due s = finalTest arrived) :
    Failed s t ∨ t = s.endCall .ok := by
  have ht := blockStep_of_ends h hd
  cases arrived with
  | true => exact .inr ht
  | false => exact .inl ⟨_, by simp, ht⟩

/-- A symbol that is due at the head of known bytes. -/
theorem blockStep_of_symbol_cons {c : Ctx} {bs : List Byte} (hd : due s = .symbol c bs) :
    Failed s t ∨ ∃ b r i rest, decode c (b :: r) = .ok (i, rest) ∧ exec i s = .next t := by
  rcases blockStep_of_symbol h hd with hf | ⟨i, rest, hdec, hex⟩
  · exact .inl hf
  · cases bs with
    | nil => simp [decode] at hdec
    | cons b r => exact .inr ⟨b, r, i, rest, hdec, hex⟩

end Dues

/-- The symbols of the header position (R61). -/
theorem decode_header_cases {bs rest : List Byte} {i : Instr} (h : decode .header bs = .ok (i, rest)) :
    i = .hdrAttr ∨ (∃ v, i = .hdrTri v) ∨ ∃ v, i = .hdrSeq v := by
  cases bs with
  | nil => simp [decode] at h
  | cons b r => simp only [decode, decodeHeader] at h; grind

/-- A header symbol runs in its mode; in any other it ends the call with BadHeader. -/
theorem headerFor_next {mode : BitVec 2} {s t : State} {go : State → State} (h : headerFor mode s go = .next t) :
    Failed s t ∨ (s.cfgMode = mode ∧ t = go s) := by
  unfold headerFor at h
  split at h
  · exact .inr ⟨‹_›, (Host.Outcome.next.inj h).symm⟩
  · exact .inl ⟨.badHeader, by simp, (Host.Outcome.next.inj h).symm⟩

theorem exec_header_next {i : Instr} {s t : State} (hlen : s.leastLength ≤ s.l)
    (hi : i = .hdrAttr ∨ (∃ v, i = .hdrTri v) ∨ ∃ v, i = .hdrSeq v) (h : exec i s = .next t) :
    Failed s t ∨ HeaderPassed s t := by
  rcases hi with rfl | ⟨v, rfl⟩ | ⟨v, rfl⟩
  · rcases headerFor_next h with hf | ⟨hm, ht⟩
    · exact .inl hf
    · by_cases htail : s.l - 1 < tailSize s.e
      · exact .inl (failed_of_truncated (ht.trans (if_pos htail)))
      · exact .inr (.inl ⟨hm, Nat.not_lt.1 htail, ht⟩)
  · refine (headerFor_next h).imp id fun ⟨hm, ht⟩ => .inr (.inl ⟨hm, ?_, v, ht⟩)
    simpa [State.leastLength, hm] using hlen
  · refine (headerFor_next h).imp id fun ⟨hm, ht⟩ => .inr (.inr ⟨hm, ?_, v, ht⟩)
    simpa [State.leastLength, hm] using hlen

/-- The bytes of the sequence symbol that is decoded from the stream lie below CFG_SRCLEN. -/
theorem decode_seq_window {s : State} {a k : Nat} {i : Instr} {rest : List Byte}
    (h : decode .seq (s.window a k) = .ok (i, rest)) : ∃ bs, i = .seq bs ∧ a + bs.length ≤ s.l := by
  have hlen := s.window_length a k
  cases hw : s.window a k with
  | nil => simp [hw, decode] at h
  | cons b r =>
    rw [hw] at h hlen
    cases hs : splitVarint 4 (b :: r) with
    | none => simp [decode, hs] at h
    | some p =>
      obtain ⟨bs, rest'⟩ := p
      obtain ⟨rfl, -⟩ : Instr.seq bs = i ∧ rest' = rest := by simpa [decode, hs] using h
      have happ := congrArg List.length (splitVarint_append hs).1
      rw [List.length_append] at happ
      simp only [List.length_cons] at happ hlen
      exact ⟨bs, rfl, by omega⟩

section Positions

variable {s t : State} (h : blockStep s = .next t)
include h

theorem blockStep_header (hp : s.pos = .header) : Failed s t ∨ HeaderPassed s t := by
  have hd : due s = truncatedIf (s.l < s.leastLength) (.symbol .header (s.window 0 1)) := by simp only [due, hp]
  rcases blockStep_of_truncatedIf h hd with hf | ⟨hlen, hd⟩
  · exact .inl hf
  rcases blockStep_of_symbol h hd with hf | ⟨i, rest, hdec, hex⟩
  · exact .inl hf
  exact exec_header_next (by simpa using hlen) (decode_header_cases hdec) hex

theorem blockStep_seed (hp : s.pos = .seed) : Failed s t ∨ ∃ b, t = s.seedByte b := by
  have hd : due s = .symbol .lit (s.window (s.l - s.e + s.w.lane) 1) := by simp only [due, hp]
  refine (blockStep_of_symbol_cons h hd).imp id fun ⟨b, r, i, rest, hdec, hex⟩ => ⟨b, ?_⟩
  cases hdec
  have hex : execLit b s = .next t := hex
  simpa only [execLit, hp, if_true, Host.Outcome.next.injEq, eq_comm] using hex

theorem blockStep_blockTop (hp : s.pos = .blockTop) :
    Failed s t ∨ (s.n ≤ s.w.blk ∧ t = s.endCall .ok) ∨ (s.w.blk < s.n ∧ t = s.beginBlock) := by
  by_cases hlt : s.w.blk < s.n
  · have hb := blockStep_of_work h (by simp only [due, hp, hlt, if_true])
    simp only [between, hp] at hb
    exact .inr (.inr ⟨hlt, (Host.Outcome.next.inj hb).symm⟩)
  · have hd : due s = finalTest (s.l - s.w.dcur == tailSize s.e) := by simp only [due, hp, hlt, if_false]
    exact (blockStep_of_finalTest h hd).imp id fun ht => .inl ⟨Nat.not_lt.1 hlt, ht⟩

theorem blockStep_runTop (hp : s.pos = .runTop) : Failed s t ∨ (s.headers ≤ s.l - s.w.dcur ∧ t = s.beginRun) := by
  have hd : due s = truncatedIf (s.l - s.w.dcur < s.headers) .work := by simp only [due, hp]
  refine (blockStep_of_truncatedIf h hd).imp id fun ⟨hlen, hd⟩ => ⟨by simpa using hlen, ?_⟩
  have hb := blockStep_of_work h hd
  simp only [between, hp] at hb
  exact (Host.Outcome.next.inj hb).symm

theorem blockStep_groupHeader (hp : s.pos = .groupHeader) : Failed s t ∨ HeaderBytePassed s t := by
  have hd : due s = .symbol .ghdr (s.window s.w.dcur 1) := by simp only [due, hp]
  refine (blockStep_of_symbol_cons h hd).imp id fun ⟨b, r, i, rest, hdec, hex⟩ => ?_
  cases hdec
  exact exec_ghdr_next hex

theorem blockStep_group (hp : s.pos = .group) : Failed s t ∨ GroupPassed s t := by
  have hd : due s = truncatedIf (s.l - s.w.dcur < s.par.groupMargin)
      (.symbol .sel [(s.w.sel.getD s.w.grp 0).setWidth 8]) := by simp only [due, hp]
  rcases blockStep_of_truncatedIf h hd with hf | ⟨-, hd⟩
  · exact .inl hf
  rcases blockStep_of_symbol h hd with hf | ⟨i, rest, hdec, hex⟩
  · exact .inl hf
  cases hdec
  exact (exec_decodeSel_next hex).imp failed_of_truncated id

theorem blockStep_planeEnd (hp : s.pos = .planeEnd) : t = s.endPlane := by
  have hb := blockStep_of_work h (by simp only [due, hp])
  simp only [between, hp] at hb
  exact (Host.Outcome.next.inj hb).symm

theorem blockStep_blockEnd (hp : s.pos = .blockEnd) : s.w.idx = s.w.blk → BlockCopied s t := by
  have hb := blockStep_of_work h (by simp only [due, hp])
  simp only [between, hp] at hb
  exact fun hidx => endBlock_next hidx hb

theorem blockStep_triangles (hp : s.pos = .triangles) :
    Failed s t ∨ (1 + s.t ≤ s.w.ccur ∧ t = s.endCall .ok) ∨ (s.w.ccur < 1 + s.t ∧ TriangleMade 1 s t) := by
  by_cases hlt : s.w.ccur < 1 + s.t
  · have hd : due s = truncatedIf (s.tableStart < s.w.dcur)
        (.symbol (.ctri (s.w.fecmax == Config.fecmaxV0)) (s.window s.w.ccur 1)) := by
      simp only [due, hp, hlt, if_true]
    rcases blockStep_of_truncatedIf h hd with hf | ⟨-, hd⟩
    · exact .inl hf
    rcases blockStep_of_symbol_cons h hd with hf | ⟨b, r, i, rest, hdec, hex⟩
    · exact .inl hf
    cases hdec
    exact (exec_decodeTri_next hex).imp failed_of_truncated fun hm => .inr ⟨hlt, hm⟩
  · have hd : due s = finalTest (s.w.dcur == s.tableStart) := by simp only [due, hp, hlt, if_false]
    exact (blockStep_of_finalTest h hd).imp id fun ht => .inl ⟨Nat.not_lt.1 hlt, ht⟩

theorem blockStep_sequence (hp : s.pos = .sequence) :
    Failed s t ∨ (s.n ≤ s.w.idx ∧ t = s.endCall .ok) ∨ (s.w.idx < s.n ∧ IndexMade s t) := by
  by_cases hlt : s.w.idx < s.n
  · have hd : due s = truncatedIf (s.safeEnd ≤ s.w.dcur) (.symbol .seq (s.window s.w.dcur Config.varintMax)) := by
      simp only [due, hp, hlt, if_true]
    rcases blockStep_of_truncatedIf h hd with hf | ⟨-, hd⟩
    · exact .inl hf
    rcases blockStep_of_symbol h hd with hf | ⟨i, rest, hdec, hex⟩
    · exact .inl hf
    obtain ⟨bs, rfl, hle⟩ := decode_seq_window hdec
    obtain ⟨hpr, hdc, ht⟩ := exec_seq_next hex
    exact .inr (.inr ⟨hlt, hpr, hdc ▸ hle, ht⟩)
  · have hd : due s = finalTest (s.w.dcur == s.safeEnd) := by simp only [due, hp, hlt, if_false]
    exact (blockStep_of_finalTest h hd).imp id fun ht => .inl ⟨Nat.not_lt.1 hlt, ht⟩

/-- A step of the block fails the call, ends it with Ok where the decoder's loop is through, or goes on with it. -/
theorem blockStep_cases : Failed s t ∨ (AllProduced s ∧ t = s.endCall .ok) ∨ GoesOn s t := by
  unfold GoesOn AllProduced
  cases hp : s.pos with
  | idle => exact .inr (.inr (Host.Outcome.next.inj ((blockStep_of_idle hp).symm.trans h)).symm)
  | header => exact (blockStep_header h hp).imp id .inr
  | seed => exact (blockStep_seed h hp).imp id .inr
  | blockTop => exact (blockStep_blockTop h hp).imp id (.imp (fun ⟨hn, ht⟩ => ⟨.inl ⟨rfl, hn⟩, ht⟩) id)
  | runTop => exact (blockStep_runTop h hp).imp id .inr
  | groupHeader => exact (blockStep_groupHeader h hp).imp id .inr
  | group => exact (blockStep_group h hp).imp id .inr
  | planeEnd => exact .inr (.inr (blockStep_planeEnd h hp))
  | blockEnd => exact .inr (.inr (blockStep_blockEnd h hp))
  | triangles =>
    exact (blockStep_triangles h hp).imp id (.imp (fun ⟨hn, ht⟩ => ⟨.inr (.inl ⟨rfl, hn⟩), ht⟩) id)
  | sequence =>
    exact (blockStep_sequence h hp).imp id (.imp (fun ⟨hn, ht⟩ => ⟨.inr (.inr ⟨rfl, hn⟩), ht⟩) id)

end Positions

end Sys2Proof.Machine

/-! ### The ranges of the cursors -/

namespace Sys2Proof.Machine

theorem callOk_of_resting {s : State} (h : s.pos = .idle ∨ s.pos = .header) : s.callOk := by
  rcases h with h | h <;> simp only [State.callOk, h]

/-- A block of a legal configuration has a group and a header byte in each of its runs (R100, R101, R161). -/
theorem groups_pos {s : State} (he : 4 ≤ s.e ∧ s.e ≤ 256) (hb : s.w.blk < s.n) : 0 < s.groups ∧ 0 < s.headers := by
  have h32 : 32 ≤ 8192 / s.e := (Nat.le_div_iff_mul_le (by omega)).2 (by omega)
  have hbc : 0 < s.bc := by
    simp only [State.bc, blockCount, blockSize, Config.blockBytes, Config.groupBytes, Config.blockMaxVerts]
    omega
  have hg : 0 < s.groups := by simp only [State.groups, runGroups]; omega
  exact ⟨hg, by simp only [State.headers, runHeaders, Config.groupsPerHdr]; omega⟩

theorem bc_le_rest (s : State) : s.bc ≤ s.n - s.w.blk := Nat.min_le_right _ _

theorem headerPassed_callOk {s t : State} (hleg : s.configLegal = true) (h : HeaderPassed s t) : t.callOk := by
  rcases h with ⟨hm, htail, rfl⟩ | ⟨hm, hlen, v, rfl⟩ | ⟨hm, hlen, v, rfl⟩
  · have he := elemSize_of_attr hleg hm
    have htail32 : 32 ≤ tailSize s.e := le_max_left _ _
    rw [beginAttributes, if_neg (Nat.not_lt.2 htail)]
    exact ⟨⟨hm, htail, Nat.zero_le _, rfl, show 1 ≤ s.l by omega⟩, rfl, show 0 < s.e by omega⟩
  · exact ⟨hm, hlen, le_refl 1, Nat.le_add_right 1 _, rfl, show 1 + s.t ≤ s.l by omega⟩
  · exact ⟨hm, hlen, Nat.zero_le _, show 1 ≤ s.l by omega⟩

section Ranges

variable {s t : State} (hok : s.callOk)
include hok

theorem seedByte_callOk (hp : s.pos = .seed) (b : Byte) : (s.seedByte b).callOk := by
  simp only [State.callOk, hp] at hok
  obtain ⟨hattr, hblk, hlane⟩ := hok
  by_cases hlt : s.w.lane + 1 < s.e
  · have hpos : (s.seedByte b).pos = .seed := if_pos hlt
    simp only [State.callOk, hpos]
    exact ⟨hattr, hblk, hlt⟩
  · have hpos : (s.seedByte b).pos = .blockTop := if_neg hlt
    simp only [State.callOk, hpos]
    exact hattr

theorem beginBlock_callOk (hp : s.pos = .blockTop) (hleg : s.configLegal = true) (hlt : s.w.blk < s.n) :
    s.beginBlock.callOk := by
  simp only [State.callOk, hp] at hok
  obtain ⟨hm, -⟩ := id hok
  have he := elemSize_of_attr hleg hm
  exact ⟨hok, hlt, show 0 < s.e by omega⟩

theorem beginRun_callOk (hp : s.pos = .runTop) (hleg : s.configLegal = true) (hlen : s.headers ≤ s.l - s.w.dcur) :
    s.beginRun.callOk := by
  simp only [State.callOk, hp] at hok
  obtain ⟨⟨hm, htail, hn, hidx, hd⟩, hblk, hplane⟩ := hok
  obtain ⟨-, hh⟩ := groups_pos (elemSize_of_attr hleg hm) hblk
  exact ⟨⟨hm, htail, hn, hidx, hd⟩, hblk, hplane, le_refl _, show s.w.dcur < s.w.dcur + s.headers by omega,
    show s.w.dcur + s.headers ≤ s.l by omega⟩

theorem headerBytePassed_callOk (hp : s.pos = .groupHeader) (hleg : s.configLegal = true) (h : HeaderBytePassed s t) :
    t.callOk := by
  simp only [State.callOk, hp] at hok
  obtain ⟨⟨hm, htail, hn, hidx, hd⟩, hblk, hplane, hle, hlt, hlen⟩ := hok
  obtain ⟨hg, -⟩ := groups_pos (elemSize_of_attr hleg hm) hblk
  have hd' : s.w.dcur + 1 ≤ s.l := by omega
  obtain ⟨sel, ⟨hmore, rfl⟩ | ⟨-, rfl⟩⟩ := h
  · simp only [State.callOk, State.withW_pos, hp]
    exact ⟨⟨hm, htail, hn, hidx, hd'⟩, hblk, hplane, show s.w.hcur ≤ s.w.dcur + 1 by omega,
      show s.w.dcur + 1 < s.w.hcur + s.headers by omega, hlen⟩
  · exact ⟨⟨hm, htail, hn, hidx, hd'⟩, hblk, hplane, hg⟩

theorem groupPassed_callOk (hp : s.pos = .group) (h : GroupPassed s t) : t.callOk := by
  simp only [State.callOk, hp] at hok
  obtain ⟨⟨hm, htail, hn, hidx, hd⟩, hblk, hplane, -⟩ := hok
  obtain ⟨raw, k, x, hx, rfl⟩ := h
  have hxl : x ≤ s.l := by omega
  by_cases hlt : s.w.grp + 1 < s.groups
  · simp only [State.callOk, hlt, if_true]
    exact ⟨⟨hm, htail, hn, hidx, hxl⟩, hblk, hplane, hlt⟩
  · simp only [State.callOk, hlt, if_false]
    exact ⟨⟨hm, htail, hn, hidx, hxl⟩, hblk, hplane⟩

theorem endPlane_callOk (hp : s.pos = .planeEnd) : s.endPlane.callOk := by
  simp only [State.callOk, hp] at hok
  obtain ⟨hattr, hblk, hplane⟩ := hok
  by_cases hlt : s.w.plane + 1 < s.e
  · have hpos : s.endPlane.pos = .runTop := if_pos hlt
    simp only [State.callOk, hpos]
    exact ⟨hattr, hblk, hlt⟩
  · have hpos : s.endPlane.pos = .blockEnd := if_neg hlt
    simp only [State.callOk, hpos]
    exact ⟨hattr, hblk⟩

theorem idx_eq_blk_of_blockEnd (hp : s.pos = .blockEnd) : s.w.idx = s.w.blk := by
  simp only [State.callOk, hp] at hok
  obtain ⟨⟨-, -, -, hidx, -⟩, -⟩ := hok
  exact hidx

theorem blockCopied_callOk (hp : s.pos = .blockEnd) (h : BlockCopied s t) : t.callOk := by
  simp only [State.callOk, hp] at hok
  obtain ⟨⟨hm, htail, hn, hidx, hd⟩, hblk⟩ := hok
  obtain ⟨-, pred, ht⟩ := h
  have hbc := bc_le_rest s
  rw [ht]
  exact ⟨hm, htail, show s.w.blk + s.bc ≤ s.n by omega, congrArg (· + s.bc) hidx, hd⟩

theorem triangleMade_callOk (hp : s.pos = .triangles) (hlt : s.w.ccur < 1 + s.t) (h : TriangleMade 1 s t) :
    t.callOk := by
  simp only [State.callOk, hp] at hok
  obtain ⟨hm, hlen, h1, -, hidx, hd⟩ := hok
  obtain ⟨⟨hti, -⟩, htc, htd, ht⟩ := h
  rw [ht]
  simp only [State.callOk, hp]
  exact ⟨hm, hlen, show 1 ≤ t.w.ccur by omega, show t.w.ccur ≤ 1 + s.t by omega,
    show t.w.idx = 3 * (t.w.ccur - 1) by omega, show t.w.dcur ≤ s.l by omega⟩

theorem indexMade_callOk (hp : s.pos = .sequence) (hlt : s.w.idx < s.n) (h : IndexMade s t) : t.callOk := by
  simp only [State.callOk, hp] at hok
  obtain ⟨hm, hlen, -, -⟩ := hok
  obtain ⟨⟨hti, -⟩, htd, ht⟩ := h
  rw [ht]
  simp only [State.callOk, hp]
  exact ⟨hm, hlen, show t.w.idx ≤ s.n by omega, htd⟩

/-- A step that goes on with a call keeps the ranges of its cursors. -/
theorem goesOn_callOk (hleg : s.configLegal = true) (h : GoesOn s t) : t.callOk := by
  unfold GoesOn at h
  cases hp : s.pos <;> simp only [hp] at h
  case idle => exact h ▸ hok
  case header => exact headerPassed_callOk hleg h
  case seed => obtain ⟨b, rfl⟩ := h; exact seedByte_callOk hok hp b
  case blockTop => obtain ⟨hlt, rfl⟩ := h; exact beginBlock_callOk hok hp hleg hlt
  case runTop => obtain ⟨hlen, rfl⟩ := h; exact beginRun_callOk hok hp hleg hlen
  case groupHeader => exact headerBytePassed_callOk hok hp hleg h
  case group => exact groupPassed_callOk hok hp h
  case planeEnd => exact h ▸ endPlane_callOk hok hp
  case blockEnd => exact blockCopied_callOk hok hp (h (idx_eq_blk_of_blockEnd hok hp))
  case triangles => exact triangleMade_callOk hok hp h.1 h.2
  case sequence => exact indexMade_callOk hok hp h.1 h.2

theorem blockStep_callOk (hs : s.Inv) (h : blockStep s = .next t) : t.callOk := by
  cases hb : s.busy with
  | false => rw [blockStep_of_idle (hs.pos_of_not_busy hb)] at h; cases h; exact hok
  | true =>
    rcases blockStep_cases h with ⟨st, -, rfl⟩ | ⟨-, rfl⟩ | hgo
    · exact callOk_of_resting (.inl rfl)
    · exact callOk_of_resting (.inl rfl)
    · exact goesOn_callOk hok (hs.legal hb) hgo

/-- A move of the host finds a call as it was, or a block that rests, or leaves one at the header or at rest. -/
theorem HostEffect.callOk (hs : s.Inv) (h : HostEffect s t) : t.callOk := by
  cases h with
  | stays | reads => exact hok
  | configures hb | placesSrc hb | placesDst hb => exact callOk_of_resting (.inl (hs.pos_of_not_busy hb))
  | resets => exact callOk_of_resting (.inl rfl)
  | starts x _ h =>
    rcases exec_start_cases h with ⟨-, rfl⟩ | ⟨hb, -, rfl⟩ | ⟨-, -, -, -, rfl⟩ | ⟨-, -, -, -, rfl⟩
    · exact hok
    · exact callOk_of_resting (.inl (hs.pos_of_not_busy hb))
    · exact callOk_of_resting (.inl rfl)
    · exact callOk_of_resting (.inr rfl)

end Ranges

/-! ### The elements in DST -/

/-- The bytes of the elements before IDX have a value (R16, R49). -/
def State.covered (s : State) : Prop := ∀ a, a < s.w.idx * s.e → (s.dstByte a).isSome = true

/-- Elements produced from IDX on extend what is covered. -/
theorem Produces.covered {k : Nat} {s t : State} (h : Produces k s t) (he : t.e = s.e) (hs : s.covered) : t.covered := by
  obtain ⟨hidx, hkeep, hnew⟩ := h
  intro a ha
  rw [hidx, he] at ha
  by_cases hlt : a < s.w.idx * s.e
  · exact hkeep a (hs a hlt)
  · exact hnew a (Nat.not_lt.1 hlt) ha

theorem covered_of_idx_zero {s : State} (h : s.w.idx = 0) : s.covered := fun a ha => by simp [h] at ha

/-- Once the loop of a legal call is through, IDX is CFG_COUNT. -/
theorem idx_of_allProduced {s : State} (hleg : s.configLegal = true) (hok : s.callOk) (h : AllProduced s) :
    s.w.idx = s.n := by
  rcases h with ⟨hp, hn⟩ | ⟨hp, hn⟩ | ⟨hp, hn⟩ <;> simp only [State.callOk, hp] at hok
  · obtain ⟨-, -, hle, hidx, -⟩ := hok
    omega
  · obtain ⟨hm, -, h1, hle, hidx, -⟩ := hok
    have h3 := count_of_tri hleg hm
    have ht : s.t = s.n / 3 := rfl
    omega
  · obtain ⟨-, -, hle, -⟩ := hok
    omega

theorem AllProduced.covered {s : State} (h : AllProduced s) (hs : s.produced) : s.covered := by
  rcases h with ⟨hp, -⟩ | ⟨hp, -⟩ | ⟨hp, -⟩ <;> exact hs (by simp [hp]) (by simp [hp])

/-- A step that goes on with a call leaves BUSY and keeps what is covered. -/
theorem goesOn_produced {s t : State} (hok : s.callOk) (hs : s.produced) (h : GoesOn s t) :
    t.busy = s.busy ∧ t.produced := by
  unfold GoesOn at h
  cases hp : s.pos <;> simp only [hp] at h
  case idle => subst h; exact ⟨rfl, hs⟩
  case header =>
    rcases h with ⟨-, htail, rfl⟩ | ⟨-, -, v, rfl⟩ | ⟨-, -, v, rfl⟩
    · rw [beginAttributes, if_neg (Nat.not_lt.2 htail)]
      exact ⟨rfl, fun _ _ => covered_of_idx_zero rfl⟩
    · exact ⟨rfl, fun _ _ => covered_of_idx_zero rfl⟩
    · exact ⟨rfl, fun _ _ => covered_of_idx_zero rfl⟩
  all_goals have hc : s.covered := hs (by simp [hp]) (by simp [hp])
  case seed => obtain ⟨b, rfl⟩ := h; exact ⟨rfl, fun _ _ => hc⟩
  case blockTop => obtain ⟨-, rfl⟩ := h; exact ⟨rfl, fun _ _ => hc⟩
  case runTop => obtain ⟨-, rfl⟩ := h; exact ⟨rfl, fun _ _ => hc⟩
  case groupHeader => obtain ⟨sel, ⟨-, rfl⟩ | ⟨-, rfl⟩⟩ := h <;> exact ⟨rfl, fun _ _ => hc⟩
  case group => obtain ⟨raw, k, x, -, rfl⟩ := h; exact ⟨rfl, fun _ _ => hc⟩
  case planeEnd => subst h; exact ⟨rfl, fun _ _ => hc⟩
  case blockEnd =>
    obtain ⟨hpr, pred, ht⟩ := h (idx_eq_blk_of_blockEnd hok hp)
    exact ⟨by rw [ht], fun _ _ => hpr.covered (by rw [ht]; rfl) hc⟩
  case triangles =>
    obtain ⟨-, hpr, -, -, ht⟩ := h
    exact ⟨by rw [ht], fun _ _ => hpr.covered (by rw [ht]; rfl) hc⟩
  case sequence =>
    obtain ⟨-, hpr, -, ht⟩ := h
    exact ⟨by rw [ht], fun _ _ => hpr.covered (by rw [ht]; rfl) hc⟩

theorem code_ne_zero {st : Status} (h : st ≠ .ok) : st.code ≠ 0#8 := by
  cases st with
  | ok => exact absurd rfl h
  | badHeader | truncated | trailingMismatch | badFilter => decide

end Sys2Proof.Machine

namespace Sys2Proof.Proofs

open Sys2Proof.Machine Sys2Proof.Claims

/-- Settles O56: each position's step keeps the ranges, and each kind of host move does. -/
theorem everyStepKeepsCursorRanges : Obligations.EveryStepKeepsCursorRanges := by
  intro s t hs hok h
  obtain ⟨rest, h | h⟩ := step_cases h
  · exact blockStep_callOk (s := { s with host := rest }) hok hs h
  · exact h.callOk (s := { s with host := rest }) hok hs

/-- Settles O60: the elements produced cover what IDX has passed, and a call ends with Ok where IDX is CFG_COUNT. -/
theorem okDecodeCoversDst : Obligations.OkDecodeCoversDst := by
  rintro s t hs hok ⟨hhost, hb⟩ hpr h
  rw [step_of_host_nil hhost] at h
  rcases blockStep_cases h with ⟨st, hst, rfl⟩ | ⟨hall, rfl⟩ | hgo
  · exact ⟨fun hp => absurd rfl hp, fun _ hcode => absurd hcode (code_ne_zero hst)⟩
  · have hidx := idx_of_allProduced (hs.legal hb) hok hall
    exact ⟨fun hp => absurd rfl hp, fun _ _ a ha => hall.covered hpr a (by rw [hidx]; exact ha)⟩
  · obtain ⟨hbusy, hcov⟩ := goesOn_produced hok hpr hgo
    exact ⟨hcov, fun hidle => by simp [hbusy, hb] at hidle⟩

end Sys2Proof.Proofs

/-! ## Where the symbols stand, the codes of a control byte, the end of a block, START with an illegal filter -/

namespace Sys2Proof.Machine

open Sys2Proof.Claims

/-! ### The symbol that is due -/

/-- A symbol that is due and decodes runs, and the step is nothing else. -/
theorem blockStep_eq_exec {s : State} {c : Ctx} {bs rest : List Byte} {i : Instr} (hd : due s = .symbol c bs)
    (hdec : decode c bs = .ok (i, rest)) : blockStep s = exec i s := by
  simp only [blockStep, hd, hdec]

theorem blockStep_eq_between {s : State} (hd : due s = .work) : blockStep s = between s := by
  simp only [blockStep, hd]

/-- A lookahead test that does not hold ends nothing. -/
theorem truncatedIf_of_not {p : Prop} [Decidable p] (h : ¬ p) (d : Due) : truncatedIf (decide p) d = d := by
  simp [truncatedIf, h]

/-- The one byte of a symbol that is read below CFG_SRCLEN. -/
theorem State.window_one {s : State} {a : Nat} (h : a < s.l) : s.window a 1 = [s.srcByte a] := by
  simp [State.window, h]

section Dues

variable {s : State}

theorem due_seed (hp : s.pos = .seed) (hk : s.l - s.e + s.w.lane < s.l) :
    due s = .symbol .lit [s.srcByte (s.l - s.e + s.w.lane)] := by
  simp only [due, hp, State.window_one hk]

theorem due_blockTop (hp : s.pos = .blockTop) (hlt : s.w.blk < s.n) : due s = .work := by
  simp only [due, hp, hlt, if_true]

theorem due_blockEnd (hp : s.pos = .blockEnd) : due s = .work := by
  simp only [due, hp]

theorem due_groupHeader (hp : s.pos = .groupHeader) (hd : s.w.dcur < s.l) :
    due s = .symbol .ghdr [s.srcByte s.w.dcur] := by
  simp only [due, hp, State.window_one hd]

theorem due_group (hp : s.pos = .group) (hm : s.par.groupMargin ≤ s.l - s.w.dcur) :
    due s = .symbol .sel [(s.w.sel.getD s.w.grp 0).setWidth 8] := by
  simp only [due, hp, truncatedIf_of_not (Nat.not_lt.2 hm)]

theorem due_triangles (hp : s.pos = .triangles) (hlt : s.w.ccur < 1 + s.t) (hd : s.w.dcur ≤ s.tableStart)
    (hc : s.w.ccur < s.l) : due s = .symbol (.ctri (s.w.fecmax == Config.fecmaxV0)) [s.srcByte s.w.ccur] := by
  simp only [due, hp, hlt, if_true, truncatedIf_of_not (Nat.not_lt.2 hd), State.window_one hc]

theorem due_sequence (hp : s.pos = .sequence) (hlt : s.w.idx < s.n) (hd : s.w.dcur < s.safeEnd) :
    due s = .symbol .seq (s.window s.w.dcur Config.varintMax) := by
  simp only [due, hp, hlt, if_true, truncatedIf_of_not (Nat.not_le.2 hd)]

end Dues

/-! ### The bytes of the symbols -/

/-- A byte is its four pairs of bits, the highest first. -/
theorem byte_eq_append_bits (b : Byte) : b = bits 6 2 b ++ bits 4 2 b ++ bits 2 2 b ++ bits 0 2 b := by
  revert b; decide

/-- The latched selector is read back from the byte it is widened to. -/
theorem bits_setWidth_selector (sel : BitVec 2) : bits 0 2 (sel.setWidth 8) = sel := by
  revert sel; decide

theorem decode_seq_of_splitVarint {bs v rest : List Byte} (h : splitVarint 4 bs = some (v, rest)) :
    decode .seq bs = .ok (.seq v, rest) := by
  cases bs with
  | nil => simp [splitVarint] at h
  | cons b r => simp only [decode, h]

/-- The stream's bytes from `a` up to a later offset begin with the byte at `a`. -/
theorem streamBytes_cons {s : State} {a d : Nat} (h : a < d) :
    streamBytes s a d = s.srcByte a :: streamBytes s (a + 1) d := by
  have hlen : d - a = (d - (a + 1)) + 1 := by omega
  simp only [streamBytes, hlen, List.range_succ_eq_map, List.map_cons, List.map_map, Nat.add_zero]
  refine congrArg _ (List.map_congr_left fun i _ => ?_)
  rw [Function.comp_apply, Nat.succ_eq_add_one, Nat.add_assoc, Nat.add_comm 1]

@[simp] theorem streamBytes_self (s : State) (a : Nat) : streamBytes s a a = [] := by simp [streamBytes]

/-- VByte is its own loop from the first byte on: at most five bytes, the result 0 at first. -/
theorem vbyte_eq_vbyteLoop (s : State) (a : Nat) : vbyte s a = vbyteLoop s 5 a 0 0 := by
  have hlead : ∀ b : Byte, b.msb = false → b.setWidth 32 = (bits 0 7 b).setWidth 32 := by decide
  rw [vbyte, vbyteLoop]
  cases h : (s.srcByte a).msb with
  | true => simp [h]
  | false => simp [h, hlead _ h]

/-- The bytes that the loop of VByte passes are those that the decoder splits off the stream. -/
theorem splitVarint_of_vbyteLoop {s : State} {k a shift d : Nat} {r v : Word}
    (h : vbyteLoop s (k + 1) a shift r = some (v, d)) :
    a < d ∧ ∃ rest, splitVarint k (s.window a (k + 1)) = some (streamBytes s a d, rest) := by
  induction k generalizing a shift r with
  | zero =>
    by_cases ha : a < s.l
    · obtain rfl : a + 1 = d := by
        simp only [vbyteLoop, ha, if_true] at h
        split at h <;> exact (Prod.mk.inj (Option.some.inj h)).2
      exact ⟨by omega, [], by simp [State.window, ha, splitVarint, streamBytes_cons]⟩
    · simp [vbyteLoop, ha] at h
  | succ k ih =>
    by_cases ha : a < s.l
    · rw [vbyteLoop, if_pos ha] at h
      rw [State.window, if_pos ha]
      cases hm : (s.srcByte a).msb with
      | true =>
        simp only [hm, if_true] at h
        obtain ⟨had, rest, hs⟩ := ih h
        refine ⟨by omega, rest, ?_⟩
        simp only [splitVarint, hm, if_true, hs, streamBytes_cons (by omega : a < d)]
      | false =>
        obtain rfl : a + 1 = d := by simpa [hm] using congrArg (Option.map Prod.snd) h
        exact ⟨by omega, _, by simp [splitVarint, hm, streamBytes_cons]; rfl⟩
    · rw [vbyteLoop, if_neg ha] at h; cases h

/-- The sequence symbol at an offset is made of the bytes that VByte reads there. -/
theorem decode_seq_of_vbyte {s : State} {a d : Nat} {v : Word} (h : vbyte s a = some (v, d)) :
    ∃ rest, decode .seq (s.window a Config.varintMax) = .ok (.seq (streamBytes s a d), rest) := by
  rw [vbyte_eq_vbyteLoop] at h
  obtain ⟨-, rest, hs⟩ := splitVarint_of_vbyteLoop h
  exact ⟨rest, decode_seq_of_splitVarint hs⟩

/-! ### Codes of a group, one after another -/

/-- A part after which nothing is done. -/
@[simp] theorem Run.bind_val_unit (r : Run Unit) : (r.bind fun _ s => .val () s) = r := by
  cases r <;> rfl

/-- The lanes that codes fill, each code its value and whether it is the sentinel. -/
def codeLanes : List (Byte × Bool) → State → Run Unit
  | [], s => .val () s
  | (v, sent) :: r, s => (codeLane sent v s).bind fun _ s => codeLanes r s

theorem c2Lanes_eq_codeLanes (c0 c1 c2 c3 : BitVec 2) (s : State) :
    c2Lanes c0 c1 c2 c3 s = codeLanes [(c0.setWidth 8, c0 == 3#2), (c1.setWidth 8, c1 == 3#2),
      (c2.setWidth 8, c2 == 3#2), (c3.setWidth 8, c3 == 3#2)] s := by
  simp only [c2Lanes, code2Lane, codeLanes, Run.bind_val_unit]

theorem c4Lanes_eq_codeLanes (c0 c1 : Nibble) (s : State) :
    c4Lanes c0 c1 s = codeLanes [(c0.setWidth 8, c0 == 15#4), (c1.setWidth 8, c1 == 15#4)] s := by
  simp only [c4Lanes, code4Lane, codeLanes, Run.bind_val_unit]

/-- How many of the first `n` codes are the sentinel. -/
def sentinelsBefore (codes : List (Byte × Bool)) (n : Nat) : Nat :=
  countBefore (fun i => (codes.getD i (0#8, false)).2) n

@[simp] theorem sentinelsBefore_zero (codes : List (Byte × Bool)) : sentinelsBefore codes 0 = 0 := rfl

theorem sentinelsBefore_cons_succ (v : Byte) (sent : Bool) (codes : List (Byte × Bool)) (n : Nat) :
    sentinelsBefore ((v, sent) :: codes) (n + 1) = sent.toNat + sentinelsBefore codes n := by
  induction n with
  | zero => cases sent <;> rfl
  | succ n ih =>
    have hstep : ∀ (cs : List (Byte × Bool)) (m : Nat), sentinelsBefore cs (m + 1) =
      sentinelsBefore cs m + if (cs.getD m (0#8, false)).2 then 1 else 0 := fun _ _ => rfl
    rw [hstep, ih, hstep, List.getD_cons_succ, Nat.add_assoc]

/-- The byte that the next lane takes for a code. -/
def nextLaneByte (s : State) (v : Byte) (sent : Bool) : Byte := if sent then s.srcByte s.w.ext else v

/-- The next lane has taken a code. -/
def State.codeTaken (s : State) (v : Byte) (sent : Bool) : State :=
  s.withW { s.w with
    raw := s.w.raw.setIfInBounds (16 * s.w.grp + s.w.lane) (nextLaneByte s v sent)
    lane := s.w.lane + 1, ext := s.w.ext + sent.toNat }

@[simp] theorem State.codeTaken_grp (s : State) (v : Byte) (sent : Bool) : (s.codeTaken v sent).w.grp = s.w.grp := rfl
@[simp] theorem State.codeTaken_lane (s : State) (v : Byte) (sent : Bool) :
    (s.codeTaken v sent).w.lane = s.w.lane + 1 := rfl
@[simp] theorem State.codeTaken_ext (s : State) (v : Byte) (sent : Bool) :
    (s.codeTaken v sent).w.ext = s.w.ext + sent.toNat := rfl
@[simp] theorem State.codeTaken_raw (s : State) (v : Byte) (sent : Bool) : (s.codeTaken v sent).w.raw =
    s.w.raw.setIfInBounds (16 * s.w.grp + s.w.lane) (nextLaneByte s v sent) := rfl
@[simp] theorem State.codeTaken_l (s : State) (v : Byte) (sent : Bool) : (s.codeTaken v sent).l = s.l := rfl
@[simp] theorem State.codeTaken_endCall (s : State) (v : Byte) (sent : Bool) (st : Status) :
    (s.codeTaken v sent).endCall st = s.endCall st := rfl

/-- A code is taken, where its extension byte is there; otherwise the call ends with Truncated. -/
theorem codeLane_eq (sent : Bool) (v : Byte) (s : State) :
    codeLane sent v s = if sent = true ∧ s.l ≤ s.w.ext then .stop (.next (s.endCall .truncated))
      else .val () (s.codeTaken v sent) := by
  rcases codeLane_cases sent v s with ⟨rfl, e⟩ | ⟨rfl, h, e⟩ | ⟨rfl, h, e⟩
  · rw [e, if_neg (by simp)]; rfl
  · rw [e, if_neg (by simp; omega)]; rfl
  · rw [e, if_pos ⟨rfl, h⟩]

/-- What lane number `i` of those that `codes` fill takes. -/
def laneByte (s : State) (codes : List (Byte × Bool)) (i : Nat) : Byte :=
  if (codes.getD i (0#8, false)).2 then s.srcByte (s.w.ext + sentinelsBefore codes i) else (codes.getD i (0#8, false)).1

@[simp] theorem laneByte_cons_zero (s : State) (v : Byte) (sent : Bool) (codes : List (Byte × Bool)) :
    laneByte s ((v, sent) :: codes) 0 = nextLaneByte s v sent := rfl

@[simp] theorem laneByte_cons_succ (s : State) (v : Byte) (sent : Bool) (codes : List (Byte × Bool)) (i : Nat) :
    laneByte s ((v, sent) :: codes) (i + 1) = laneByte (s.codeTaken v sent) codes i := by
  simp only [laneByte, List.getD_cons_succ, sentinelsBefore_cons_succ, ← Nat.add_assoc]; rfl

/-- `CodesTaken` in the words above. -/
theorem codesTaken_iff {s : State} {o : Res} {codes : List (Byte × Bool)} : CodesTaken s o codes ↔
    (16 * s.w.grp + s.w.lane + codes.length ≤ 256 →
      sentinelsBefore codes codes.length = 0 ∨ s.w.ext + sentinelsBefore codes codes.length ≤ s.l →
      ∃ t, o = .next t ∧
        (∀ i, i < codes.length → t.w.raw.getD (16 * s.w.grp + s.w.lane + i) 0 = laneByte s codes i) ∧
        (∀ j, j < 16 * s.w.grp + s.w.lane ∨ 16 * s.w.grp + s.w.lane + codes.length ≤ j →
          t.w.raw.getD j 0 = s.w.raw.getD j 0) ∧
        t = s.withW { s.w with
          raw := t.w.raw, lane := s.w.lane + codes.length, ext := s.w.ext + sentinelsBefore codes codes.length }) ∧
    (sentinelsBefore codes codes.length ≠ 0 → s.l < s.w.ext + sentinelsBefore codes codes.length →
      o = .next (s.endCall .truncated)) := Iff.rfl

theorem codesTaken_nil (s : State) : CodesTaken s (.next s) [] :=
  codesTaken_iff.2 ⟨fun _ _ => ⟨s, rfl, fun i hi => absurd hi (by simp), fun _ _ => rfl, rfl⟩, fun h => absurd rfl h⟩

/-- Where the first code's extension byte is not there, the call ends. -/
theorem codesTaken_cons_of_le {s : State} (v : Byte) (codes : List (Byte × Bool)) (h : s.l ≤ s.w.ext) :
    CodesTaken s (.next (s.endCall .truncated)) ((v, true) :: codes) := by
  refine codesTaken_iff.2 ⟨fun _ hext => ?_, fun _ _ => rfl⟩
  rw [List.length_cons, sentinelsBefore_cons_succ, Bool.toNat_true] at hext
  omega

/-- After the first code is taken, the others are taken from the state it leaves. -/
theorem codesTaken_cons {s : State} {o : Res} {v : Byte} {sent : Bool} {codes : List (Byte × Bool)}
    (hext : sent = true → s.w.ext < s.l) (h : CodesTaken (s.codeTaken v sent) o codes) :
    CodesTaken s o ((v, sent) :: codes) := by
  have hsent : sent.toNat = 0 ∨ s.w.ext + sent.toNat ≤ s.l := by
    cases sent with
    | false => exact .inl rfl
    | true => exact .inr (hext rfl)
  obtain ⟨hgo, hend⟩ := codesTaken_iff.1 h
  simp only [State.codeTaken_grp, State.codeTaken_lane, State.codeTaken_ext, State.codeTaken_raw, State.codeTaken_l,
    State.codeTaken_endCall] at hgo hend
  rw [codesTaken_iff, List.length_cons, sentinelsBefore_cons_succ]
  refine ⟨fun hroom hused => ?_, fun hne hlt => hend (by omega) (by omega)⟩
  obtain ⟨t, rfl, hlanes, hframe, ht⟩ := hgo (by omega) (by omega)
  refine ⟨t, rfl, fun i hi => ?_, fun j hj => ?_, ?_⟩
  · cases i with
    | zero =>
      rw [laneByte_cons_zero, hframe _ (by omega), getD_setIfInBounds, if_pos ⟨by omega, by omega⟩]
    | succ i =>
      rw [laneByte_cons_succ, ← hlanes i (by omega)]
      congr 1; omega
  · rw [hframe j (by omega), getD_setIfInBounds, if_neg (by omega)]
  · refine ht.trans ?_
    simp [State.codeTaken, State.withW, Nat.add_assoc, Nat.add_comm 1]

/-- Codes taken one after another fill their lanes in order. -/
theorem codesTaken_codeLanes (codes : List (Byte × Bool)) (s : State) : CodesTaken s (codeLanes codes s).finish codes := by
  induction codes generalizing s with
  | nil => exact codesTaken_nil s
  | cons c r ih =>
    obtain ⟨v, sent⟩ := c
    rw [codeLanes, codeLane_eq]
    split
    · next h =>
      obtain ⟨rfl, hle⟩ := h
      exact codesTaken_cons_of_le v r hle
    · next h => exact codesTaken_cons (fun hs => Nat.not_le.1 fun hle => h ⟨hs, hle⟩) (ih _)

end Sys2Proof.Machine

namespace Sys2Proof.Machine

open Sys2Proof.Claims

/-! ### The filters of START -/

theorem filterLegal_iff (s : State) : s.filterLegal = true ↔ FilterCase s := by
  refine ⟨fun h => ?_, filterLegal_of_filterCase⟩
  have hcases : ∀ f : BitVec 2, f = 0#2 ∨ f = 1#2 ∨ f = 2#2 ∨ f = 3#2 := by decide
  rcases hcases s.cfgFilter with hf | hf | hf | hf
  · exact .inl hf
  all_goals simpa [State.filterLegal, FilterCase, hf] using h

/-! ### The end of a block -/

/-- The bytes of TRANS stand in DST where they were written. -/
theorem dstByte_writeBytes_transBytes (s : State) (a count x : Nat) :
    State.dstByte { s with dst := Mem.writeBytes .dst s.dst a (transBytes s.w.trans count 0) } x =
      if a ≤ x ∧ x < a + count then some (s.w.trans.getD (x - a) 0) else s.dstByte x := by
  rw [dstByte_writeBytes, transBytes_length]
  refine if_ctx_congr Iff.rfl (fun h => ?_) fun _ => rfl
  rw [transBytes_getElem?, if_pos (by omega), Nat.zero_add]

/-- The current block lies inside DST (R47). -/
theorem block_fits (s : State) (h : s.w.blk ≤ s.n) : s.w.blk * s.e + s.bc * s.e ≤ s.n * s.e := by
  rw [← Nat.add_mul]
  have := bc_le_rest s
  exact Nat.mul_le_mul_right _ (by omega)

theorem endBlock_of_fits {s : State} (h : s.w.blk * s.e + s.bc * s.e ≤ s.n * s.e) : endBlock s = .next { s with
    dst := Mem.writeBytes .dst s.dst (s.w.blk * s.e) (transBytes s.w.trans (s.bc * s.e) 0)
    pos := .blockTop
    w := { s.w with
      pred := loadPred s.w.trans ((s.bc - 1) * s.e) s.e s.w.pred, idx := s.w.idx + s.bc, blk := s.w.blk + s.bc } } := by
  rcases endBlock_cases s with ⟨-, e⟩ | ⟨hlt, -⟩
  · exact e
  · omega

end Sys2Proof.Machine

namespace Sys2Proof.Proofs

open Sys2Proof.Machine Sys2Proof.Claims

/-- Settles O7: with no host move pending a step is one of the block, which runs the symbol that is due. -/
theorem stepRunsDecodedSymbol : Obligations.StepRunsDecodedSymbol :=
  fun _ _ _ _ _ hs hd hdec => (step_of_host_nil hs).trans (blockStep_eq_exec hd hdec)

/-- Settles O8: at each position the symbol that is due, and what its bytes decode to. -/
theorem stepFetchesAtTheCursors : Obligations.StepFetchesAtTheCursors := by
  refine fun s => ⟨⟨rfl, rfl, rfl⟩, fun hs hp hlt hd hc => ?_, fun hs hp hlt hd v d hv => ?_, fun hs hp hk => ?_,
    fun hs hp hd => ?_, fun hs hp hm => ?_⟩ <;> rw [step_of_host_nil hs]
  · exact ⟨_, rfl, blockStep_eq_exec (due_triangles hp hlt hd hc) rfl⟩
  · obtain ⟨_, hdec⟩ := decode_seq_of_vbyte hv
    exact blockStep_eq_exec (due_sequence hp hlt hd) hdec
  · exact blockStep_eq_exec (due_seed hp hk) rfl
  · exact ⟨_, _, _, _, byte_eq_append_bits _, blockStep_eq_exec (due_groupHeader hp hd) rfl⟩
  · rw [blockStep_eq_exec (due_group hp hm) rfl, bits_setWidth_selector]
    simp only [decodeSel, beq_iff_eq]

/-- Settles O18: START's tests pass but that of the filter, and the accepted call ends with BadFilter. -/
theorem startWithIllegalFilter : Obligations.StartWithIllegalFilter := by
  intro x s hb hc hno hf
  have ho : s.buffersOverlap = false := Bool.eq_false_iff.2 fun h => hno ((buffersOverlap_iff s).1 h)
  have hfl : s.filterLegal = false := Bool.eq_false_iff.2 fun h => hf ((filterLegal_iff s).1 h)
  obtain ⟨hst, hbusy, hdone, hcfgerr, hfilter, -, -, -, -, hdst⟩ := endOfCallEffects .badFilter s.accept
  obtain ⟨hdropped, hkept⟩ := hdst (by simp)
  exact ⟨_, exec_start_of_badFilter x hb hc ho hfl, hst, hdone, hbusy, hcfgerr, hfilter, sameInputs_refl s, hdropped, hkept⟩

/-- Settles O42: the lanes of C2 and of C4 are those of their codes one after another. -/
theorem controlByteLanes : Obligations.ControlByteLanes := by
  refine fun s => ⟨fun c0 c1 c2 c3 => ?_, fun c0 c1 => ?_⟩
  · show CodesTaken s (c2Lanes c0 c1 c2 c3 s).finish _
    rw [c2Lanes_eq_codeLanes]
    exact codesTaken_codeLanes _ s
  · show CodesTaken s (c4Lanes c0 c1 s).finish _
    rw [c4Lanes_eq_codeLanes]
    exact codesTaken_codeLanes _ s

/-- Settles O46: a block lies inside DST, so its copy goes through; PRED takes at most its 256 bytes. -/
theorem blockIsCopiedToDst : Obligations.BlockIsCopiedToDst := by
  refine ⟨fun s hs hp hlt => ?_, fun s hinv hok hrun hp => ?_⟩
  · rw [step_of_host_nil hs, blockStep_eq_between (due_blockTop hp hlt)]
    simp only [between, hp]; rfl
  · obtain ⟨hs, hb⟩ := hrun
    obtain ⟨⟨hmode, -⟩, hlt⟩ : s.attrOk ∧ s.w.blk < s.n := by simpa only [State.callOk, hp] using hok
    have he := (elemSize_of_attr (hinv.legal hb) hmode).2
    have hstep : step s = endBlock s := by
      rw [step_of_host_nil hs, blockStep_eq_between (due_blockEnd hp)]
      simp only [between, hp]
    refine ⟨_, hstep.trans (endBlock_of_fits (block_fits s (le_of_lt hlt))), fun x => ?_, fun k => ?_, rfl⟩
    · rw [Nat.add_mul]
      exact dstByte_writeBytes_transBytes s (s.w.blk * s.e) (s.bc * s.e) x
    · rw [loadPred_getD, if_congr (and_iff_left_of_imp fun hk => by omega) rfl rfl]

end Sys2Proof.Proofs

/-! ## Decode and encode agree -/

namespace Sys2Proof.Machine

/-! ### The fields of a byte -/

/-- A field above the low part of a word put together from two is a field of the high part. -/
theorem bits_append_high {m n lo len : Nat} (x : BitVec n) (y : BitVec m) (h : m ≤ lo) :
    bits lo len (x ++ y) = bits (lo - m) len x := BitVec.extractLsb'_append_eq_of_le h

@[simp] theorem bits_zero_self {n : Nat} (x : BitVec n) : bits 0 n x = x := BitVec.extractLsb'_eq_self

/-- The high part of a word put together from two. -/
@[simp] theorem bits_append_left {m n : Nat} (x : BitVec n) (y : BitVec m) : bits m n (x ++ y) = x :=
  BitVec.extractLsb'_append_eq_left

/-- The low part. -/
@[simp] theorem bits_append_right {m n : Nat} (x : BitVec n) (y : BitVec m) : bits 0 m (x ++ y) = y :=
  BitVec.extractLsb'_append_eq_right

/-- Two fields that meet are one. -/
theorem bits_append_bits {n : Nat} (x : BitVec n) (lo len hi : Nat) :
    bits (lo + len) hi x ++ bits lo len x = bits lo (hi + len) x :=
  BitVec.extractLsb'_append_extractLsb'_eq_extractLsb' rfl

/-- CONT is the top bit of a varint byte (R62). -/
theorem msb_cont_append (c : BitVec 1) (g : BitVec 7) : (c ++ g : Byte).msb = (c == 1#1) := by
  revert c g; decide

/-- A byte is its CONT bit and its group (R62). -/
theorem cont_append_bits (b : Byte) : BitVec.ofBool b.msb ++ bits 0 7 b = b := by
  revert b; decide

/-! ### Varints -/

/-- A well-formed varint is split off whatever bytes follow it. -/
theorem splitVarint_append_of_shape {k : Nat} {bs : List Byte} (h : varintShape k bs = true) (rest : List Byte) :
    splitVarint k (bs ++ rest) = some (bs, rest) := by
  induction k generalizing bs with
  | zero =>
    match bs, h with
    | [_], _ => rfl
  | succ k ih =>
    match bs, h with
    | [b], h =>
      have hb : b.msb = false := by simpa [varintShape] using h
      simp [splitVarint, hb]
    | b :: c :: r, h =>
      obtain ⟨hb, hr⟩ : b.msb = true ∧ varintShape k (c :: r) = true := by simpa [varintShape] using h
      have hs := ih hr
      rw [List.cons_append] at hs
      simp [splitVarint, hb, hs]

/-- What is split off has the shape of a varint. -/
theorem varintShape_of_splitVarint {k : Nat} {bs v rest : List Byte} (h : splitVarint k bs = some (v, rest)) :
    varintShape k v = true := by
  induction k generalizing bs v rest with
  | zero =>
    match bs, h with
    | b :: r, h =>
      obtain ⟨rfl, -⟩ : [b] = v ∧ r = rest := by simpa [splitVarint] using h
      rfl
  | succ k ih =>
    match bs, h with
    | b :: r, h =>
      simp only [splitVarint] at h
      split at h
      · next hb =>
        split at h
        · next v' r' hs =>
          obtain ⟨rfl, -⟩ : b :: v' = v ∧ r' = rest := by simpa using h
          obtain ⟨-, hne, -⟩ := splitVarint_append hs
          obtain ⟨c, r, rfl⟩ := List.exists_cons_of_ne_nil hne
          simp [varintShape, hb, ih hs]
        · cases h
      · next hb =>
        obtain ⟨rfl, -⟩ : [b] = v ∧ r = rest := by simpa using h
        simpa [varintShape] using hb

/-- Bytes hold no whole varint only where they end first, every one with CONT = 1. -/
theorem splitVarint_eq_none {k : Nat} {bs : List Byte} (h : splitVarint k bs = none) :
    bs.length ≤ k ∧ ∀ b ∈ bs, b.msb = true := by
  induction k generalizing bs with
  | zero =>
    match bs, h with
    | [], _ => simp
  | succ k ih =>
    match bs, h with
    | [], _ => simp
    | b :: r, h =>
      simp only [splitVarint] at h
      split at h
      · next hb =>
        split at h
        · cases h
        · next hs =>
          obtain ⟨hlen, hr⟩ := ih hs
          exact ⟨by simpa using hlen, by simpa [hb] using hr⟩
      · cases h

/-- The positions at which a whole varint is read, and the symbol that it is there. -/
inductive VarintAt : Ctx → (List Byte → Instr) → Prop
  | varint : VarintAt .varint .varint
  | free : VarintAt .free .free
  | seq : VarintAt .seq .seq

section VarintAt

variable {c : Ctx} {symbol : List Byte → Instr} (hc : VarintAt c symbol)

include hc

theorem VarintAt.decode_eq (bs : List Byte) : decode c bs =
    (splitVarint 4 bs).elim (.error .endOfBytes) fun p => .ok (symbol p.1, p.2) := by
  cases bs with
  | nil => rfl
  | cons b r => cases hc <;> cases hs : splitVarint 4 (b :: r) <;> simp [decode, hs]

theorem VarintAt.decode_eq_ok {bs rest : List Byte} {i : Instr} :
    decode c bs = .ok (i, rest) ↔ ∃ v, splitVarint 4 bs = some (v, rest) ∧ symbol v = i := by
  rw [hc.decode_eq]
  cases splitVarint 4 bs with
  | none => simp
  | some p =>
    constructor
    · rintro ⟨⟩
      exact ⟨p.1, rfl, rfl⟩
    · rintro ⟨v, ⟨⟩, rfl⟩
      rfl

theorem VarintAt.decode_eq_error {bs : List Byte} {e : DecodeError} :
    decode c bs = .error e ↔ splitVarint 4 bs = none ∧ e = .endOfBytes := by
  rw [hc.decode_eq]
  cases splitVarint 4 bs with
  | none => simp [eq_comm]
  | some p => simp

theorem VarintAt.wellFormed_symbol (v : List Byte) :
    (symbol v).wellFormed c = varintShape 4 v ∧ encode (symbol v) = v := by
  cases hc <;> exact ⟨Bool.and_true _, rfl⟩

/-- A well-formed varint symbol is read back from its bytes. -/
theorem VarintAt.decode_encode {v : List Byte} (h : (symbol v).operandsOk = true) (rest : List Byte) :
    decode c (encode (symbol v) ++ rest) = .ok (symbol v, rest) := by
  have hv : varintShape 4 v = true := by cases hc <;> exact h
  rw [(hc.wellFormed_symbol v).2]
  exact hc.decode_eq_ok.2 ⟨v, splitVarint_append_of_shape hv rest, rfl⟩

/-- A varint symbol that is read is well-formed and encodes to what was read. -/
theorem VarintAt.wellFormed_of_decode {bs rest : List Byte} {i : Instr} (h : decode c bs = .ok (i, rest)) :
    i.wellFormed c = true ∧ encode i ++ rest = bs := by
  obtain ⟨v, hs, rfl⟩ := hc.decode_eq_ok.1 h
  obtain ⟨hwf, henc⟩ := hc.wellFormed_symbol v
  rw [hwf, henc]
  exact ⟨varintShape_of_splitVarint hs, (splitVarint_append hs).1⟩

/-- Where no varint symbol is read, fewer than five bytes are there, all with CONT = 1 (R91). -/
theorem VarintAt.error_of_decode {bs : List Byte} {e : DecodeError} (h : decode c bs = .error e) :
    e = .endOfBytes ∧ bs.length < 5 ∧ ∀ b ∈ bs, b.msb = true := by
  obtain ⟨hs, rfl⟩ := hc.decode_eq_error.1 h
  obtain ⟨hlen, hcont⟩ := splitVarint_eq_none hs
  exact ⟨rfl, by omega, hcont⟩

end VarintAt

/-! ### Control bytes -/

/-- The two nibbles of a byte. -/
theorem nibbles_append (x y : Nibble) : bits 4 4 (x ++ y : Byte) = x ∧ bits 0 4 (x ++ y : Byte) = y :=
  ⟨bits_append_left x y, bits_append_right x y⟩

theorem append_nibbles (b : Byte) : bits 4 4 b ++ bits 0 4 b = b :=
  (bits_append_bits b 0 4 4).trans (bits_zero_self b)

/-- The new-triangle row of the `codeTri` map (R71). -/
theorem decodeTri_new (v0 : Bool) (lo : Nibble) : decodeTri v0 (15#4 ++ lo) =
    if lo = 15#4 then .triNewByte15 else if lo = 14#4 then .triNewByte0 else .triNewTable lo := by
  obtain ⟨hhi, hlo⟩ := nibbles_append 15#4 lo
  simp only [decodeTri, hhi, hlo, beq_self_eq_true, if_true, beq_iff_eq]

/-- The edge-continue rows of the `codeTri` map (R71). -/
theorem decodeTri_edge (v0 : Bool) {fe : Nibble} (hfe : fe ≠ 15#4) (lo : Nibble) : decodeTri v0 (fe ++ lo) =
    if lo = 0#4 then .triEdgeNext fe else if lo = 15#4 then .triEdgeFree fe
    else if lo = 13#4 ∧ v0 = false then .triEdgeDec fe else if lo = 14#4 ∧ v0 = false then .triEdgeInc fe
    else .triEdgeFifo fe lo := by
  obtain ⟨hhi, hlo⟩ := nibbles_append fe lo
  simp [decodeTri, hhi, hlo, hfe]

theorem decode_ctri (v0 : Bool) (b : Byte) (rest : List Byte) :
    decode (.ctri v0) (b :: rest) = .ok (decodeTri v0 b, rest) := rfl

/-- The version acts on the columns 13 and 14 of the edge-continue rows, and nowhere else (R71). -/
theorem decodeTri_version_iff (b : Byte) : decodeTri true b ≠ decodeTri false b ↔
    (bits 4 4 b).toNat < 15 ∧ (bits 0 4 b = 13#4 ∨ bits 0 4 b = 14#4) := by
  obtain ⟨hi, lo, rfl⟩ : ∃ hi lo : Nibble, b = hi ++ lo := ⟨_, _, (append_nibbles b).symm⟩
  obtain ⟨hbhi, hblo⟩ := nibbles_append hi lo
  have hlt : hi.toNat < 15 ↔ hi ≠ 15#4 := by clear hbhi hblo; revert hi; decide
  rw [hbhi, hblo, hlt]
  by_cases hhi : hi = 15#4
  · subst hhi
    simp [decodeTri_new]
  · rw [decodeTri_edge true hhi, decodeTri_edge false hhi]
    by_cases h13 : lo = 13#4
    · subst h13; simp [hhi]
    by_cases h14 : lo = 14#4
    · subst h14; simp [hhi]
    simp [h13, h14]

/-- A nibble is a table index, or one of the two that read the codeAux byte from the payload (R71). -/
theorem nibble_cases (lo : Nibble) : lo = 15#4 ∨ lo = 14#4 ∨ (lo ≠ 15#4 ∧ lo ≠ 14#4 ∧ lo.toNat ≤ 13) := by
  revert lo; decide

/-- A nibble below 13 that no other row of the map has is a VertexFifo code of both versions (R71). -/
theorem toNat_le_twelve {lo : Nibble} (h15 : lo ≠ 15#4) (h14 : lo ≠ 14#4) (h13 : lo ≠ 13#4) : lo.toNat ≤ 12 := by
  revert lo; decide

@[simp] theorem wellFormed_triNewTable (v0 : Bool) (j : Nibble) :
    (Instr.triNewTable j).wellFormed (.ctri v0) = true ↔ j.toNat ≤ 13 := by
  cases v0 <;> simp [Instr.wellFormed, Instr.operandsOk, Instr.standsAt]

@[simp] theorem wellFormed_triEdgeFree (v0 : Bool) (fe : Nibble) :
    (Instr.triEdgeFree fe).wellFormed (.ctri v0) = true ↔ fe ≠ 15#4 := by
  cases v0 <;> simp [Instr.wellFormed, Instr.operandsOk, Instr.standsAt]

@[simp] theorem wellFormed_triEdgeNext (v0 : Bool) (fe : Nibble) :
    (Instr.triEdgeNext fe).wellFormed (.ctri v0) = true ↔ fe ≠ 15#4 := wellFormed_triEdgeFree v0 fe

@[simp] theorem wellFormed_triEdgeDec (v0 : Bool) (fe : Nibble) :
    (Instr.triEdgeDec fe).wellFormed (.ctri v0) = true ↔ fe ≠ 15#4 ∧ v0 = false := by
  simp [Instr.wellFormed, Instr.operandsOk, Instr.standsAt]

@[simp] theorem wellFormed_triEdgeInc (v0 : Bool) (fe : Nibble) :
    (Instr.triEdgeInc fe).wellFormed (.ctri v0) = true ↔ fe ≠ 15#4 ∧ v0 = false := wellFormed_triEdgeDec v0 fe

@[simp] theorem wellFormed_triEdgeFifo (v0 : Bool) (fe fec : Nibble) :
    (Instr.triEdgeFifo fe fec).wellFormed (.ctri v0) = true ↔
      fe ≠ 15#4 ∧ fec ≠ 0#4 ∧ fec ≠ 15#4 ∧ (v0 = false → fec.toNat ≤ 12) := by
  cases v0 <;> simp [Instr.wellFormed, Instr.operandsOk, Instr.standsAt, and_assoc]

/-- Every control byte is a well-formed symbol, which encodes to it (R71). -/
theorem decodeTri_wellFormed (v0 : Bool) (b : Byte) :
    (decodeTri v0 b).wellFormed (.ctri v0) = true ∧ encode (decodeTri v0 b) = [b] := by
  obtain ⟨hi, lo, rfl⟩ : ∃ hi lo : Nibble, b = hi ++ lo := ⟨_, _, (append_nibbles b).symm⟩
  by_cases hhi : hi = 15#4
  · subst hhi
    rw [decodeTri_new]
    rcases nibble_cases lo with rfl | rfl | ⟨h15, h14, hle⟩
    · cases v0 <;> exact ⟨rfl, rfl⟩
    · cases v0 <;> exact ⟨rfl, rfl⟩
    · rw [if_neg h15, if_neg h14]
      exact ⟨(wellFormed_triNewTable v0 lo).2 hle, rfl⟩
  · rw [decodeTri_edge v0 hhi]
    split_ifs with h0 h15 h13 h14
    · exact ⟨(wellFormed_triEdgeNext v0 hi).2 hhi, by rw [h0]; rfl⟩
    · exact ⟨(wellFormed_triEdgeFree v0 hi).2 hhi, by rw [h15]; rfl⟩
    · obtain ⟨rfl, hv⟩ := h13
      exact ⟨(wellFormed_triEdgeDec v0 hi).2 ⟨hhi, hv⟩, rfl⟩
    · obtain ⟨rfl, hv⟩ := h14
      exact ⟨(wellFormed_triEdgeInc v0 hi).2 ⟨hhi, hv⟩, rfl⟩
    · have hle (hv : v0 = false) : lo.toNat ≤ 12 := toNat_le_twelve h15 (fun h => h14 ⟨h, hv⟩) fun h => h13 ⟨h, hv⟩
      exact ⟨(wellFormed_triEdgeFifo v0 hi lo).2 ⟨hhi, h0, h15, hle⟩, rfl⟩

/-- Every well-formed control byte is read back from its encoding (R71). -/
theorem decode_encode_ctri {v0 : Bool} {i : Instr} (h : i.wellFormed (.ctri v0) = true) :
    ∃ b, encode i = [b] ∧ decodeTri v0 b = i := by
  cases i with
  | triNewByte15 | triNewByte0 => exact ⟨_, rfl, rfl⟩
  | triNewTable j =>
    have hj := (wellFormed_triNewTable v0 j).1 h
    refine ⟨_, rfl, ?_⟩
    rcases nibble_cases j with rfl | rfl | ⟨h15, h14, -⟩
    · simp at hj
    · simp at hj
    · rw [decodeTri_new, if_neg h15, if_neg h14]
  | triEdgeFree fe => exact ⟨_, rfl, by rw [decodeTri_edge v0 ((wellFormed_triEdgeFree v0 fe).1 h)]; rfl⟩
  | triEdgeNext fe => exact ⟨_, rfl, by rw [decodeTri_edge v0 ((wellFormed_triEdgeNext v0 fe).1 h)]; rfl⟩
  | triEdgeDec fe =>
    obtain ⟨hfe, rfl⟩ := (wellFormed_triEdgeDec v0 fe).1 h
    exact ⟨_, rfl, by rw [decodeTri_edge false hfe]; rfl⟩
  | triEdgeInc fe =>
    obtain ⟨hfe, rfl⟩ := (wellFormed_triEdgeInc v0 fe).1 h
    exact ⟨_, rfl, by rw [decodeTri_edge false hfe]; rfl⟩
  | triEdgeFifo fe fec =>
    obtain ⟨hfe, h0, h15, hle⟩ := (wellFormed_triEdgeFifo v0 fe fec).1 h
    have h13 : ¬ (fec = 13#4 ∧ v0 = false) := by rintro ⟨rfl, hv⟩; simpa using hle hv
    have h14 : ¬ (fec = 14#4 ∧ v0 = false) := by rintro ⟨rfl, hv⟩; simpa using hle hv
    exact ⟨_, rfl, by rw [decodeTri_edge v0 hfe, if_neg h0, if_neg h15, if_neg h13, if_neg h14]⟩
  | _ => simp [Instr.wellFormed, Instr.standsAt] at h

/-! ### The other symbols -/

/-- The legal header bytes are read back from their encodings (R61). -/
theorem decodeHeader_version (v : BitVec 1) :
    decodeHeader (0x70#7 ++ v) = some (.hdrTri v) ∧ decodeHeader (0x68#7 ++ v) = some (.hdrSeq v) := by
  revert v; decide

/-- What a legal header byte stands for encodes to it (R61). -/
theorem decodeHeader_some {b : Byte} {i : Instr} (h : decodeHeader b = some i) :
    i.wellFormed .header = true ∧ encode i = [b] := by
  have hver : ∀ x : BitVec 7, bits 1 7 b = x → x ++ bits 0 1 b = b := fun x hx => by
    rw [← hx]; exact (bits_append_bits b 0 1 7).trans (bits_zero_self b)
  unfold decodeHeader at h
  split_ifs at h with hA hE hD <;> obtain rfl := Option.some.inj h
  · exact ⟨rfl, by rw [eq_of_beq hA]; rfl⟩
  · exact ⟨rfl, congrArg ([·]) (hver _ (eq_of_beq hE))⟩
  · exact ⟨rfl, congrArg ([·]) (hver _ (eq_of_beq hD))⟩

/-- A varint byte before the fifth is read back from its CONT bit and its group (R62). -/
theorem decodeVb_cont_append (c : BitVec 1) (g : BitVec 7) :
    decodeVb false (c ++ g) = if c = 1#1 then .vbCont g else .vbLast g := by
  have hg : bits 0 7 (c ++ g : Byte) = g := bits_append_right c g
  simp only [decodeVb, msb_cont_append, hg, beq_iff_eq, Bool.false_eq_true, if_false]

/-- A varint byte stands for a symbol that encodes to it (R62). -/
theorem decodeVb_wellFormed (fifth : Bool) (b : Byte) :
    (decodeVb fifth b).wellFormed (.vb fifth) = true ∧ encode (decodeVb fifth b) = [b] := by
  have hb := cont_append_bits b
  cases fifth with
  | true => exact ⟨rfl, congrArg ([·]) (append_nibbles b)⟩
  | false =>
    cases hm : b.msb with
    | true => rw [hm] at hb; simp only [decodeVb, hm]; exact ⟨rfl, congrArg ([·]) hb⟩
    | false => rw [hm] at hb; simp only [decodeVb, hm]; exact ⟨rfl, congrArg ([·]) hb⟩

/-- A codeAux byte is the restart marker only where it comes from the payload and both codes are 0 (R132). -/
theorem decodeCaux_append (payload : Bool) (feb fec : Nibble) : decodeCaux payload (feb ++ fec) =
    if payload = true ∧ feb = 0#4 ∧ fec = 0#4 then .cauxRestart else .caux feb fec := by
  have hzero : (feb ++ fec : Byte) = 0#8 ↔ feb = 0#4 ∧ fec = 0#4 := by revert feb fec; decide
  obtain ⟨hfeb, hfec⟩ := nibbles_append feb fec
  simp [decodeCaux, hzero, hfeb, hfec]

theorem decodeCaux_wellFormed (payload : Bool) (b : Byte) :
    (decodeCaux payload b).wellFormed (.caux payload) = true ∧ encode (decodeCaux payload b) = [b] := by
  obtain ⟨feb, fec, rfl⟩ : ∃ x y : Nibble, b = x ++ y := ⟨_, _, (append_nibbles b).symm⟩
  rw [decodeCaux_append]
  split_ifs with h
  · obtain ⟨rfl, rfl, rfl⟩ := h; exact ⟨rfl, rfl⟩
  · refine ⟨?_, rfl⟩
    cases payload with
    | false => rfl
    | true => simpa [Instr.wellFormed, Instr.operandsOk, Instr.standsAt, imp_iff_not_or] using h

/-- The four selectors of a header byte of a run, or the four codes of a control byte of a width-2 group (R67, R68). -/
theorem bits_append_four (x3 x2 x1 x0 : BitVec 2) :
    bits 0 2 (x3 ++ x2 ++ x1 ++ x0) = x0 ∧ bits 2 2 (x3 ++ x2 ++ x1 ++ x0) = x1 ∧
      bits 4 2 (x3 ++ x2 ++ x1 ++ x0) = x2 ∧ bits 6 2 (x3 ++ x2 ++ x1 ++ x0) = x3 := by
  revert x3 x2 x1 x0; decide

/-- A group's selector stands in the low two bits of its encoding (R67). -/
theorem decodeSel_encode (sel : BitVec 2) :
    (decodeSel sel).wellFormed .sel = true ∧ encode (decodeSel sel) = [sel.setWidth 8] := by
  revert sel; decide

/-- Bits 31:1 of the word written to CTRL are the bytes' (R76). -/
theorem start_operand_encode (x : BitVec 31) :
    bits 23 8 x ++ bits 15 8 x ++ bits 7 8 x ++ bits 1 7 (bits 0 7 x ++ 1#1) = x := by
  have h3 : bits 23 8 x ++ bits 15 8 x = bits 15 16 x := bits_append_bits x 15 8 8
  have h2 : bits 15 16 x ++ bits 7 8 x = bits 7 24 x := bits_append_bits x 7 8 16
  have h1 : bits 7 24 x ++ bits 0 7 x = bits 0 31 x := bits_append_bits x 0 7 24
  have h0 : bits 1 7 (bits 0 7 x ++ 1#1) = bits 0 7 x := bits_append_left _ _
  exact (congrArg₂ (· ++ ·) ((congrArg (· ++ bits 7 8 x) h3).trans h2) h0).trans (h1.trans (bits_zero_self x))

/-- The bytes of a word whose bit 0 is set are those of START (R76). -/
theorem encode_start_operand {b0 : Byte} (b1 b2 b3 : Byte) (h : bits 0 1 b0 = 1#1) :
    encode (.start (b3 ++ b2 ++ b1 ++ bits 1 7 b0)) = [b0, b1, b2, b3] := by
  have h0 : bits 0 7 (b3 ++ b2 ++ b1 ++ bits 1 7 b0) ++ 1#1 = b0 := by
    rw [bits_append_right, ← h]
    exact (bits_append_bits b0 0 1 7).trans (bits_zero_self b0)
  have h1 : bits 7 8 (b3 ++ b2 ++ b1 ++ bits 1 7 b0) = b1 :=
    (bits_append_high _ _ le_rfl).trans (bits_append_right _ _)
  have h2 : bits 15 8 (b3 ++ b2 ++ b1 ++ bits 1 7 b0) = b2 :=
    (bits_append_high _ _ (by decide)).trans ((bits_append_high _ _ le_rfl).trans (bits_append_right _ _))
  have h3 : bits 23 8 (b3 ++ b2 ++ b1 ++ bits 1 7 b0) = b3 :=
    (bits_append_high _ _ (by decide)).trans ((bits_append_high _ _ (by decide)).trans (bits_append_left _ _))
  simp only [encode, h0, h1, h2, h3]

theorem start_encode_decode (x : BitVec 31) (rest : List Byte) :
    decode .command (encode (.start x) ++ rest) = .ok (.start x, rest) := by
  simp only [encode, decode, List.cons_append, List.nil_append, bits_append_right, beq_self_eq_true, if_true,
    start_operand_encode]

/-- The decoder's answer is the symbol that the bytes stand for. -/
theorem ok_congr {i j : Instr} (h : j = i) (rest : List Byte) :
    (Except.ok (j, rest) : Except DecodeError (Instr × List Byte)) = .ok (i, rest) := by rw [h]

/-- A well-formed symbol is read back from its encoding: a control byte by the map of its version, any other symbol at the
one position where it stands, a codeAux byte at the place it comes from. -/
theorem decode_encode {c : Ctx} {i : Instr} (h : i.wellFormed c = true) (rest : List Byte) :
    decode c (encode i ++ rest) = .ok (i, rest) := by
  obtain ⟨hops, hpos⟩ : i.operandsOk = true ∧ i.standsAt c = true := by
    simpa only [Instr.wellFormed, Bool.and_eq_true] using h
  cases i with
  | triNewByte15 | triNewByte0 | triNewTable _ | triEdgeFree _ | triEdgeNext _ | triEdgeDec _ | triEdgeInc _
  | triEdgeFifo _ _ =>
    obtain ⟨v0, rfl⟩ : ∃ v0, c = .ctri v0 := by
      cases c with
      | ctri v0 => exact ⟨v0, rfl⟩
      | _ => simp [Instr.standsAt] at hpos
    obtain ⟨b, he, hd⟩ := decode_encode_ctri h
    rw [he]
    exact ok_congr hd rest
  | hdrAttr =>
    obtain rfl : c = .header := by simpa [Instr.standsAt] using hpos
    rfl
  | hdrTri v | hdrSeq v =>
    obtain rfl : c = .header := by simpa [Instr.standsAt] using hpos
    simp only [encode, List.cons_append, List.nil_append, decode, decodeHeader_version v]
  | vbLast g =>
    obtain rfl : c = .vb false := by simpa [Instr.standsAt] using hpos
    exact ok_congr (decodeVb_cont_append 0#1 g) rest
  | vbCont g =>
    obtain rfl : c = .vb false := by simpa [Instr.standsAt] using hpos
    exact ok_congr (decodeVb_cont_append 1#1 g) rest
  | vbFifth x g =>
    obtain rfl : c = .vb true := by simpa [Instr.standsAt] using hpos
    exact ok_congr (congrArg₂ Instr.vbFifth (bits_append_left x g) (bits_append_right x g)) rest
  | varint bs =>
    obtain rfl : c = .varint := by simpa [Instr.standsAt] using hpos
    exact VarintAt.varint.decode_encode hops rest
  | free bs =>
    obtain rfl : c = .free := by simpa [Instr.standsAt] using hpos
    exact VarintAt.free.decode_encode hops rest
  | seq bs =>
    obtain rfl : c = .seq := by simpa [Instr.standsAt] using hpos
    exact VarintAt.seq.decode_encode hops rest
  | caux feb fec =>
    obtain ⟨payload, rfl, hne⟩ : ∃ p, c = .caux p ∧ ¬ (p = true ∧ feb = 0#4 ∧ fec = 0#4) := by
      cases c with
      | caux payload =>
        refine ⟨payload, rfl, ?_⟩
        rintro ⟨rfl, rfl, rfl⟩
        simp [Instr.standsAt] at hpos
      | _ => simp [Instr.standsAt] at hpos
    exact ok_congr ((decodeCaux_append payload feb fec).trans (if_neg hne)) rest
  | cauxRestart =>
    obtain rfl : c = .caux true := by simpa [Instr.standsAt] using hpos
    rfl
  | ghdr s0 s1 s2 s3 =>
    obtain rfl : c = .ghdr := by simpa [Instr.standsAt] using hpos
    exact ok_congr (by simp only [bits_append_four s3 s2 s1 s0]) rest
  | grpW0 | grpW2 | grpW4 | grpW8 =>
    obtain rfl : c = .sel := by simpa [Instr.standsAt] using hpos
    rfl
  | c2 c0 c1 c2 c3 =>
    obtain rfl : c = .c2 := by simpa [Instr.standsAt] using hpos
    exact ok_congr (by simp only [bits_append_four c0 c1 c2 c3]) rest
  | c4 c0 c1 =>
    obtain rfl : c = .c4 := by simpa [Instr.standsAt] using hpos
    exact ok_congr (congrArg₂ Instr.c4 (bits_append_left c0 c1) (bits_append_right c0 c1)) rest
  | lit v =>
    obtain rfl : c = .lit := by simpa [Instr.standsAt] using hpos
    rfl
  | rsv v =>
    obtain rfl : c = .rsv := by simpa [Instr.standsAt] using hpos
    rfl
  | start x =>
    obtain rfl : c = .command := by simpa [Instr.standsAt] using hpos
    exact start_encode_decode x rest

/-- A symbol of one byte that is read, where it is well-formed and encodes to that byte. -/
theorem wellFormed_of_one_byte {c : Ctx} {b : Byte} {r rest : List Byte} {i j : Instr}
    (h : (Except.ok (j, r) : Except DecodeError _) = .ok (i, rest)) (hj : j.wellFormed c = true ∧ encode j = [b]) :
    i.wellFormed c = true ∧ encode i ++ rest = b :: r := by
  obtain ⟨rfl, rfl⟩ := Prod.mk.inj (Except.ok.inj h)
  exact ⟨hj.1, by rw [hj.2]; rfl⟩

theorem wellFormed_of_decode_header {b : Byte} {r rest : List Byte} {i : Instr}
    (h : decode .header (b :: r) = .ok (i, rest)) : i.wellFormed .header = true ∧ encode i ++ rest = b :: r := by
  cases hb : decodeHeader b with
  | none => simp [decode, hb] at h
  | some j => exact wellFormed_of_one_byte (by simpa only [decode, hb] using h) (decodeHeader_some hb)

theorem wellFormed_of_decode_command {bs rest : List Byte} {i : Instr}
    (h : decode .command bs = .ok (i, rest)) : i.wellFormed .command = true ∧ encode i ++ rest = bs := by
  match bs, h with
  | b0 :: b1 :: b2 :: b3 :: r, h =>
    by_cases hb : bits 0 1 b0 = 1#1
    · obtain ⟨rfl, rfl⟩ : .start (b3 ++ b2 ++ b1 ++ bits 1 7 b0) = i ∧ r = rest := by simpa [decode, hb] using h
      exact ⟨rfl, by rw [encode_start_operand b1 b2 b3 hb]; rfl⟩
    · simp [decode, hb] at h

/-- What is read at a position other than a selector's is well-formed there and encodes to the bytes it was read from. -/
theorem wellFormed_of_decode {c : Ctx} {bs rest : List Byte} {i : Instr} (hc : c ≠ .sel)
    (h : decode c bs = .ok (i, rest)) : i.wellFormed c = true ∧ encode i ++ rest = bs := by
  cases bs with
  | nil => simp [decode] at h
  | cons b r =>
    cases c with
    | sel => exact absurd rfl hc
    | header => exact wellFormed_of_decode_header h
    | ctri v0 => exact wellFormed_of_one_byte h (decodeTri_wellFormed v0 b)
    | caux payload => exact wellFormed_of_one_byte h (decodeCaux_wellFormed payload b)
    | vb fifth => exact wellFormed_of_one_byte h (decodeVb_wellFormed fifth b)
    | varint => exact VarintAt.varint.wellFormed_of_decode h
    | free => exact VarintAt.free.wellFormed_of_decode h
    | seq => exact VarintAt.seq.wellFormed_of_decode h
    | ghdr | c2 => exact wellFormed_of_one_byte h ⟨rfl, congrArg ([·]) (byte_eq_append_bits b).symm⟩
    | c4 => exact wellFormed_of_one_byte h ⟨rfl, congrArg ([·]) (append_nibbles b)⟩
    | lit | rsv => exact wellFormed_of_one_byte h ⟨rfl, rfl⟩
    | command => exact wellFormed_of_decode_command h

/-- A selector is the low two bits of the byte it is read from; the others are dropped. -/
theorem wellFormed_of_decode_sel {b : Byte} {r rest : List Byte} {i : Instr} (h : decode .sel (b :: r) = .ok (i, rest)) :
    i.wellFormed .sel = true ∧ encode i = [b &&& 3#8] ∧ rest = r := by
  have hmask : (bits 0 2 b).setWidth 8 = b &&& 3#8 := by clear h; revert b; decide
  obtain ⟨rfl, rfl⟩ := Prod.mk.inj (Except.ok.inj h)
  rw [← hmask]
  exact ⟨(decodeSel_encode _).1, (decodeSel_encode _).2, rfl⟩

/-- At a position other than the header's and the command's, only a varint can end the bytes (R72). -/
theorem error_of_decode {c : Ctx} {bs : List Byte} {e : DecodeError} (hc : c ≠ .header) (hc' : c ≠ .command)
    (h : decode c bs = .error e) : e = .endOfBytes ∧ bs.length < 5 ∧ ∀ b ∈ bs, b.msb = true := by
  cases c with
  | header => exact absurd rfl hc
  | command => exact absurd rfl hc'
  | varint => exact VarintAt.varint.error_of_decode h
  | free => exact VarintAt.free.error_of_decode h
  | seq => exact VarintAt.seq.error_of_decode h
  | _ =>
    cases bs with
    | nil => exact ⟨(Except.error.inj h).symm, by simp, by simp⟩
    | cons b r => cases h

end Sys2Proof.Machine

namespace Sys2Proof.Proofs

open Sys2Proof.Machine Sys2Proof.Claims

/-- Settles O1: each symbol is read back from its encoding at the position where it stands. -/
theorem decodeOfEncodedSymbol : Obligations.DecodeOfEncodedSymbol := fun _ _ rest h => decode_encode h rest

/-- Settles O2: position by position; the byte of a selector is the one that is not kept whole. -/
theorem encodingOfDecodedSymbol : Obligations.EncodingOfDecodedSymbol := by
  refine ⟨fun c bs i rest h => ?_, fun b r rest i h => ?_⟩
  · by_cases hc : c = .sel
    · subst hc
      cases bs with
      | nil => simp [decode] at h
      | cons b r => exact ⟨(wellFormed_of_decode_sel h).1, fun hne => absurd rfl hne⟩
    · exact ⟨(wellFormed_of_decode hc h).1, fun _ => (wellFormed_of_decode hc h).2⟩
  · exact (wellFormed_of_decode_sel h).2

/-- Settles O6: a position of one byte reads whatever byte is there, a varint's fails on a short run of CONT = 1 alone. -/
theorem onlyHeaderBytesCanBeIllegal : Obligations.OnlyHeaderBytesCanBeIllegal :=
  ⟨fun _ _ _ hc hc' h => error_of_decode hc hc' h, fun _ _ => rfl⟩

/-- Settles O25: what is split off has the shape of a varint, and a shape is split off whatever follows it. -/
theorem varintReadsAtMostFiveBytes : Obligations.VarintReadsAtMostFiveBytes := by
  refine ⟨fun bs v rest h => ?_, fun bs hlen => ?_⟩
  · obtain ⟨happ, hne, hle⟩ := splitVarint_append h
    exact ⟨List.length_pos_iff.2 hne, hle, happ⟩
  · obtain ⟨⟨v, rest⟩, h⟩ := splitVarint_some_of_length (k := 4) hlen
    obtain ⟨rfl, -, hle⟩ := splitVarint_append h
    refine ⟨v, rest, h, fun other => ?_⟩
    have htake : (v ++ rest).take 5 = v ++ rest.take (5 - v.length) := by
      rw [List.take_append, List.take_of_length_le hle]
    rw [htake, List.drop_left, List.append_assoc]
    exact splitVarint_append_of_shape (varintShape_of_splitVarint h) _

/-- Settles O3: each word is the encoding of its symbol, which the decoder reads back. -/
theorem decodingOfSampleWords : Obligations.DecodingOfSampleWords :=
  ⟨decode_encode (i := .hdrSeq 1#1) rfl [], decode_encode (i := .triEdgeInc 1#4) rfl [],
    decode_encode (i := .triEdgeFifo 1#4 14#4) rfl [], decode_encode (i := .triNewTable 3#4) rfl [],
    decode_encode (i := .caux 15#4 0#4) rfl [], decode_encode (i := .cauxRestart) rfl [],
    decode_encode (i := .varint [0xE5#8, 0x8E#8, 0x26#8]) rfl [0x07#8],
    decode_encode (i := .ghdr 0#2 1#2 2#2 3#2) rfl [], decode_encode (i := .c2 0#2 1#2 2#2 3#2) rfl [],
    decode_encode (i := .c4 2#4 15#4) rfl [], decode_encode (i := .start 0#31) rfl []⟩

/-- Settles O5: the rows of the map; the version acts in the columns 13 and 14 of the rows below 15 alone. -/
theorem controlByteMap : Obligations.ControlByteMap := by
  refine ⟨fun v0 x rest hx => ⟨?_, fun lo h1 h12 => ?_, ?_, ?_, ?_⟩, fun v0 j rest hj => ?_,
    fun v0 rest => ⟨?_, ?_⟩, fun b rest => ?_⟩
  · rw [decode_ctri, decodeTri_edge v0 hx]; rfl
  · have hlo : lo ≠ 0#4 ∧ lo ≠ 15#4 ∧ lo ≠ 13#4 ∧ lo ≠ 14#4 := by
      refine ⟨?_, ?_, ?_, ?_⟩ <;> rintro rfl <;> simp at h1 h12
    rw [decode_ctri, decodeTri_edge v0 hx]; simp [hlo]
  · rw [decode_ctri, decodeTri_edge v0 hx]; cases v0 <;> rfl
  · rw [decode_ctri, decodeTri_edge v0 hx]; cases v0 <;> rfl
  · rw [decode_ctri, decodeTri_edge v0 hx]; rfl
  · rcases nibble_cases j with rfl | rfl | ⟨h15, h14, -⟩
    · simp at hj
    · simp at hj
    · rw [decode_ctri, decodeTri_new, if_neg h15, if_neg h14]
  · rfl
  · rfl
  · rw [decode_ctri, decode_ctri, ← decodeTri_version_iff b]; simp

end Sys2Proof.Proofs

/-! ## Varints: the bytes, their value, the free index -/

namespace Sys2Proof.Machine

open Sys2Proof.Claims

/-! ### One byte of a varint -/

/-- The byte that ends a varint: the fifth, or one with CONT = 0 (R62, R91). -/
def Work.vbEnds (w : Work) (b : Byte) : Bool := w.vcnt == 4 || !b.msb

/-- Every byte of a varint is one turn of VByte's loop; of the fifth, what lies above value bit 31 is dropped (R91). -/
theorem Work.vbByte_eq (w : Work) (b : Byte) :
    w.vbByte b = w.vbGroup ((bits 0 7 b).setWidth 32) (7 * w.vcnt) (w.vbEnds b) := by
  have hfifth : (bits 0 4 b).setWidth 32 <<< 28 = (bits 0 7 b).setWidth 32 <<< 28 := by revert b; decide
  unfold Work.vbByte Work.vbEnds
  split_ifs with h4 hm
  · simp [Work.vbFifth, Work.vbGroup, h4, hfifth]
  · simp [Work.vbCont, hm, beq_false_of_ne h4]
  · simp [Work.vbLast, hm]

/-- The byte symbol that is read at the place of a varint byte runs that byte (R62). -/
theorem exec_decodeVb (s : State) (b : Byte) :
    exec (decodeVb (s.w.vcnt == 4) b) s = .next (s.withW (s.w.vbByte b)) := by
  unfold decodeVb Work.vbByte
  simp only [beq_iff_eq]
  split_ifs <;> rfl

/-- The byte symbols of a varint run one after another as its bytes do. -/
theorem runVarintBytes_cons {s : State} {j : Nat} (hj : s.w.vcnt = j) (b : Byte) (r : List Byte) :
    runVarintBytes (b :: r) j s = runVarintBytes r (j + 1) (s.withW (s.w.vbByte b)) := by
  subst hj
  simp only [runVarintBytes, decode, exec_decodeVb]

/-- The byte symbols of the rest of a varint, from byte number `j` on. -/
theorem runVarintBytes_eq {k j : Nat} {bs : List Byte} {s : State} (hj : s.w.vcnt = j) (hk : j + k = 4)
    (h : varintShape k bs = true) : runVarintBytes bs j s = some (s.withW (Work.vbBytes bs s.w)) := by
  induction k generalizing j bs s with
  | zero =>
    match bs, h with
    | [b], _ => rw [runVarintBytes_cons hj]; rfl
  | succ k ih =>
    match bs, h with
    | [b], _ => rw [runVarintBytes_cons hj]; rfl
    | b :: c :: r, h =>
      obtain ⟨hb, hr⟩ : b.msb = true ∧ varintShape k (c :: r) = true := by simpa [varintShape] using h
      have hcnt : (s.w.vbByte b).vcnt = j + 1 := by
        have hne : j ≠ 4 := by omega
        simp [Work.vbByte_eq, Work.vbEnds, hj, hb, hne]
      rw [runVarintBytes_cons hj, ih (s := s.withW (s.w.vbByte b)) hcnt (by omega) hr]
      rfl

/-! ### The value of a varint in SRC -/

@[simp] theorem streamBytes_length (s : State) (a d : Nat) : (streamBytes s a d).length = d - a := by simp [streamBytes]

/-- Where VByte's loop runs past the stream, no varint is split off. -/
theorem splitVarint_of_vbyteLoop_none {s : State} {k a shift : Nat} {r : Word}
    (h : vbyteLoop s (k + 1) a shift r = none) : splitVarint k (s.window a (k + 1)) = none := by
  by_cases ha : a < s.l
  swap; · rw [State.window, if_neg ha]; cases k <;> rfl
  rw [vbyteLoop, if_pos ha] at h
  rw [State.window, if_pos ha]
  cases hm : (s.srcByte a).msb with
  | false => simp [hm] at h
  | true =>
    simp only [hm, if_true] at h
    cases k with
    | zero => simp [vbyteLoop] at h
    | succ k => simp only [splitVarint, hm, if_true, splitVarint_of_vbyteLoop_none h]
termination_by k

/-- The turn of VByte's loop that ends it: the byte is the last it may read, or has CONT = 0. -/
theorem vbyteLoop_of_ends {s : State} {k a : Nat} (shift : Nat) (r : Word) (ha : a < s.l)
    (h : k = 0 ∨ (s.srcByte a).msb = false) :
    vbyteLoop s (k + 1) a shift r = some (r ||| ((bits 0 7 (s.srcByte a)).setWidth 32 <<< shift), a + 1) := by
  rw [vbyteLoop, if_pos ha]
  rcases h with rfl | hm
  · simp [vbyteLoop]
  · simp [hm]

/-- Any other turn of VByte's loop. -/
theorem vbyteLoop_of_cont {s : State} {k a : Nat} (shift : Nat) (r : Word) (ha : a < s.l)
    (h : (s.srcByte a).msb = true) : vbyteLoop s (k + 1) a shift r =
      vbyteLoop s k (a + 1) (shift + 7) (r ||| ((bits 0 7 (s.srcByte a)).setWidth 32 <<< shift)) := by
  rw [vbyteLoop, if_pos ha]
  simp [h]

/-- What VByte's loop has gathered when byte number `w.vcnt` comes. -/
def Work.vbSoFar (w : Work) : Word := if w.vcnt = 0 then 0 else w.vres

/-- The bytes that VByte's loop passes from byte number `w.vcnt` on leave the loop's value (R90). -/
theorem vbBytes_of_vbyteLoop {s : State} {k a d : Nat} {v : Word} {w : Work} (hk : w.vcnt + k = 4)
    (h : vbyteLoop s (k + 1) a (7 * w.vcnt) w.vbSoFar = some (v, d)) :
    Work.vbBytes (streamBytes s a d) w = { w with dcur := w.dcur + (d - a), vres := v, vcnt := 0 } := by
  obtain ⟨had, -⟩ := splitVarint_of_vbyteLoop h
  have ha : a < s.l := by
    by_contra ha
    simp [vbyteLoop, ha] at h
  rw [streamBytes_cons had, Work.vbBytes, Work.vbByte_eq]
  cases he : w.vbEnds (s.srcByte a) with
  | true =>
    have hlast : k = 0 ∨ (s.srcByte a).msb = false := by
      simp only [Work.vbEnds, Bool.or_eq_true, beq_iff_eq, Bool.not_eq_true'] at he
      exact he.imp_left fun h4 => by omega
    rw [vbyteLoop_of_ends _ _ ha hlast] at h
    obtain ⟨rfl, rfl⟩ := Prod.mk.inj (Option.some.inj h)
    simp [Work.vbGroup, Work.vbBytes, Work.vbSoFar]
  | false =>
    obtain ⟨hne, hm⟩ : w.vcnt ≠ 4 ∧ (s.srcByte a).msb = true := by simpa [Work.vbEnds] using he
    obtain ⟨k, rfl⟩ : ∃ k', k = k' + 1 := ⟨k - 1, by omega⟩
    rw [vbyteLoop_of_cont _ _ ha hm] at h
    have hlen : 1 + (d - (a + 1)) = d - a := by omega
    rw [vbBytes_of_vbyteLoop (k := k) (by simp; omega) h]
    simp [Work.vbGroup, Nat.add_assoc, hlen]
termination_by k

/-- `VByte()` at DCUR, on the bytes it reads (R90). -/
theorem varint_of_vbyte {s : State} {v : Word} {d : Nat} (h : vbyte s s.w.dcur = some (v, d)) :
    s.w.dcur < d ∧ s.w.varint (streamBytes s s.w.dcur d) = { s.w with dcur := d, vres := v, vcnt := 0 } := by
  rw [vbyte_eq_vbyteLoop] at h
  obtain ⟨hlt, -⟩ := splitVarint_of_vbyteLoop h
  refine ⟨hlt, ?_⟩
  rw [Work.varint, vbBytes_of_vbyteLoop (w := { s.w with vcnt := 0 }) (k := 4) rfl h]
  simp [Nat.add_sub_cancel' hlt.le]

/-- `DecodeIndex()` at DCUR, on the bytes it reads (R94). -/
theorem freeIndex_of_vbyte {s : State} {v : Word} {d : Nat} (h : vbyte s s.w.dcur = some (v, d)) :
    s.w.freeIndex (streamBytes s s.w.dcur d) =
      { s.w with dcur := d, vres := v, vcnt := 0, last := s.w.last + unzigzag32 v } := by
  simp only [Work.freeIndex, (varint_of_vbyte h).2]

/-- R93's formula. -/
theorem unzigzag32_eq (v : Word) : unzigzag32 v = (v >>> 1) ^^^ (0 - (v &&& 1)) := by
  rw [unzigzag32, setWidth_bits_zero]; rfl

end Sys2Proof.Machine

namespace Sys2Proof.Proofs

open Sys2Proof.Machine Sys2Proof.Claims

/-- Settles O23: the decoder splits off the bytes that VByte passes, and they leave VByte's value. -/
theorem varintValueAndLength : Obligations.VarintValueAndLength := by
  refine fun s => ⟨fun v d h => ?_, fun h => ?_⟩
  · obtain ⟨hlt, hw⟩ := varint_of_vbyte h
    refine ⟨by rw [streamBytes_length]; omega, ?_, congrArg (fun w => Host.Outcome.next (s.withW w)) hw⟩
    rw [vbyte_eq_vbyteLoop] at h
    exact (splitVarint_of_vbyteLoop h).2
  · rw [vbyte_eq_vbyteLoop] at h
    exact splitVarint_of_vbyteLoop_none h

/-- Settles O27: FREE is VARINT and then LAST moves by R93's formula. -/
theorem freeIndexUpdatesLast : Obligations.FreeIndexUpdatesLast := by
  intro s v d h
  rw [← unzigzag32_eq]
  exact congrArg (fun w => Host.Outcome.next (s.withW w)) (freeIndex_of_vbyte h)

/-- Settles O24: each byte symbol is read at the place of its byte and runs it. -/
theorem varintIsItsBytes : Obligations.VarintIsItsBytes := by
  intro s bs hcnt h
  have hshape : varintShape 4 bs = true := by simpa [Instr.wellFormed, Instr.operandsOk, Instr.standsAt] using h
  have hw : { s.w with vcnt := 0 } = s.w := by rw [← hcnt]
  exact ⟨_, runVarintBytes_eq hcnt rfl hshape, by show execVarint bs s = _; rw [execVarint, Work.varint, hw]⟩

/-- Settles O22: each byte symbol is one turn of VByte's loop. -/
theorem varintByteEffects : Obligations.VarintByteEffects :=
  fun _ => ⟨fun _ => rfl, fun _ => rfl, fun _ _ => rfl⟩

end Sys2Proof.Proofs

/-! ## What a new-triangle byte runs, the selectors of a header byte, literal bytes, the payload of a triangle -/

namespace Sys2Proof.Machine

open Sys2Proof.Claims

/-! ### The codeAux symbol of a new triangle -/

/-- The codeAux byte that stands in the payload is read and run as the symbol that it is there (R132). -/
theorem payloadByte_of_lt {s : State} (h : s.w.dcur < s.l) :
    ((memRead s.w.dcur s).bind fun aux s =>
      if aux = 0#8 then restartTriangle s else cauxTriangle (bits 4 4 aux) (bits 0 4 aux) s).finish =
    exec (if s.srcByte s.w.dcur = 0#8 then .cauxRestart
      else .caux (bits 4 4 (s.srcByte s.w.dcur)) (bits 0 4 (s.srcByte s.w.dcur))) s := by
  rw [memRead_of_lt h, Run.bind_val]
  split <;> rfl

/-- A table entry is read and run as a codeAux byte, 0 too (R130). -/
theorem tableByte_of_lt {a : Nat} {s : State} (h : a < s.l) :
    ((memRead a s).bind fun aux s => cauxTriangle (bits 4 4 aux) (bits 0 4 aux) s).finish =
    exec (.caux (bits 4 4 (s.srcByte a)) (bits 0 4 (s.srcByte a))) s := by
  rw [memRead_of_lt h, Run.bind_val]; rfl

/-! ### Slots of a vector -/

/-- Any vector read after one slot is written. -/
theorem getD_setIfInBounds_of_imp {α : Type} {n : Nat} (v : Vector α n) (x d : α) {i j : Nat} (h : j = i → i < n) :
    (v.setIfInBounds i x).getD j d = if j = i then x else v.getD j d := by
  rcases eq_or_ne j i with rfl | hne
  · simp [Vector.getD, h]
  · by_cases hj : j < n
    · simp [Vector.getD, hj, hne, hne.symm]
    · simp [Vector.getD, hj, hne]

/-- Header byte `h` holds the selectors of groups `4h` to `4h + 3`, the first in its low bits (R67, R102). -/
theorem latchSel_getD (sel : Vector (BitVec 2) 16) (h : Nat) (s0 s1 s2 s3 : BitVec 2) {g : Nat} (hg : g < 16) :
    (latchSel sel h s0 s1 s2 s3).getD g 0 =
      if g / 4 = h then (if g % 4 = 0 then s0 else if g % 4 = 1 then s1 else if g % 4 = 2 then s2 else s3)
      else sel.getD g 0 := by
  have hin : ∀ i, g = i → i < 16 := fun i e => e ▸ hg
  simp only [latchSel, getD_setIfInBounds_of_imp _ _ _ (hin _)]
  grind

/-! ### How far a triangle reads -/

/-- A part passes `c` control bytes and at most `k` payload bytes; where it ends the call, BUSY has fallen. -/
def Passes {α : Type} (c k : Nat) (s : State) (r : Run α) : Prop :=
  (∀ a t, r = .val a t → t.w.ccur = s.w.ccur + c ∧ s.w.dcur ≤ t.w.dcur ∧ t.w.dcur ≤ s.w.dcur + k) ∧
  ∀ t, r = .stop (.next t) → t.busy = false

theorem Passes.of_val {α : Type} {c k : Nat} {s t : State} (a : α) (hc : t.w.ccur = s.w.ccur + c)
    (hl : s.w.dcur ≤ t.w.dcur) (hk : t.w.dcur ≤ s.w.dcur + k) : Passes c k s (.val a t) := by
  refine ⟨fun b u h => ?_, fun u h => by cases h⟩
  cases h
  exact ⟨hc, hl, hk⟩

theorem Passes.of_endCall {α : Type} (c k : Nat) (s u : State) (st : Status) :
    Passes c k s (.stop (.next (u.endCall st)) : Run α) := by
  refine ⟨fun a t h => (by cases h), fun t h => ?_⟩
  cases h
  rfl

theorem Passes.of_fault {α : Type} (c k : Nat) (s : State) (f : Fault) : Passes c k s (.stop (.fault f) : Run α) :=
  ⟨fun a t h => (by cases h), fun t h => (by cases h)⟩

/-- One part, then another. -/
theorem Passes.bind {α β : Type} {c c' k k' : Nat} {s : State} {r : Run α} {f : α → State → Run β}
    (h : Passes c k s r) (hf : ∀ a t, Passes c' k' t (f a t)) : Passes (c + c') (k + k') s (r.bind f) := by
  cases r with
  | val a t =>
    obtain ⟨hc, hl, hk⟩ := h.1 a t rfl
    refine ⟨fun b u hu => ?_, (hf a t).2⟩
    obtain ⟨hc', hl', hk'⟩ := (hf a t).1 b u hu
    omega
  | stop o => exact ⟨fun b u hu => (by cases hu), fun u hu => (by cases hu; exact h.2 u rfl)⟩

/-- A part run from a state whose cursors have moved before it. -/
theorem Passes.of_withW {α : Type} {c c' k k' : Nat} {s : State} {w : Work} {r : Run α} (h : Passes c k (s.withW w) r)
    (hc : w.ccur + c = s.w.ccur + c') (hl : s.w.dcur ≤ w.dcur) (hk : w.dcur + k ≤ s.w.dcur + k') :
    Passes c' k' s r := by
  refine ⟨fun a t ht => ?_, h.2⟩
  obtain ⟨hc1, hl1, hk1⟩ := h.1 a t ht
  rw [State.withW_w] at hc1 hl1 hk1
  omega

/-- A meaning that goes on has passed what its parts pass. -/
theorem Passes.finish {α : Type} {c k : Nat} {s t : State} {r : Run α} (h : Passes c k s r) (ht : r.finish = .next t)
    (hb : t.busy = true) : t.w.ccur = s.w.ccur + c ∧ s.w.dcur ≤ t.w.dcur ∧ t.w.dcur ≤ s.w.dcur + k := by
  rcases Run.finish_eq_next.1 ht with ⟨a, ha⟩ | hs
  · exact h.1 a t ha
  · rw [h.2 t hs] at hb; cases hb

theorem memRead_passes (a : Nat) (s : State) : Passes 0 0 s (memRead a s) := by
  rcases memRead_cases a s with ⟨-, e⟩ | ⟨-, e⟩ <;> rw [e]
  · exact .of_val _ rfl le_rfl le_rfl
  · exact .of_endCall ..

theorem emit_passes (a b c : Word) (s : State) : Passes 0 0 s (emit a b c s) := by
  rcases emit_cases a b c s with ⟨-, e⟩ | ⟨-, e⟩ <;> rw [e]
  · exact .of_val _ rfl le_rfl le_rfl
  · exact .of_fault ..

/-- A free index is one to five payload bytes (R97). -/
theorem decodeIndex_passes (s : State) : Passes 0 5 s (decodeIndex s) := by
  rcases decodeIndex_cases s with ⟨r, c, k, -, hk, -, e⟩ | ⟨-, e⟩ <;> rw [e]
  · exact .of_val _ rfl (Nat.le_add_right _ _) (Nat.add_le_add_left hk _)
  · exact .of_endCall ..

/-- Three vertices are at most three free indices. -/
theorem resolveNew_passes (fea feb fec : Nibble) (s : State) : Passes 0 15 s (resolveNew fea feb fec s) := by
  rcases resolveNew_cases fea feb fec s with ⟨x, n, t, k, hk, ⟨-, r, c, l, rfl⟩, e⟩ | e <;> rw [e]
  · exact .of_val _ rfl (Nat.le_add_right _ _) (Nat.add_le_add_left hk _)
  · exact .of_endCall ..

theorem newTriangle_passes (feb fec : Nibble) (s : State) : Passes 0 15 s (newTriangle feb fec s) :=
  (resolveNew_passes _ _ _ s).bind fun _ t => (emit_passes _ _ _ t).bind (c' := 0) (k' := 0) fun _ u =>
    .of_val () (by simp) (by simp) (by simp)

theorem cauxTriangle_passes (feb fec : Nibble) (s : State) : Passes 0 16 s (cauxTriangle feb fec s) := by
  unfold cauxTriangle
  split
  · exact (newTriangle_passes feb fec _).of_withW rfl (Nat.le_add_right _ _) le_rfl
  · exact (newTriangle_passes feb fec _).of_withW (w := s.w) rfl le_rfl (by omega)

theorem restartTriangle_passes (s : State) : Passes 0 16 s (restartTriangle s) :=
  (newTriangle_passes 0#4 0#4 _).of_withW rfl (Nat.le_add_right _ _) le_rfl

/-- The codeAux byte of the payload, then at most three free indices (R132). -/
theorem payloadTriangle_passes (s : State) : Passes 0 16 s ((memRead s.w.dcur s).bind fun aux s =>
    if aux = 0#8 then restartTriangle s else cauxTriangle (bits 4 4 aux) (bits 0 4 aux) s) := by
  refine (memRead_passes _ s).bind (c' := 0) (k' := 16) fun aux t => ?_
  split
  · exact restartTriangle_passes t
  · exact cauxTriangle_passes _ _ t

/-- The table entry costs no payload (R130). -/
theorem tableTriangle_passes (a : Nat) (s : State) :
    Passes 0 16 s ((memRead a s).bind fun aux s => cauxTriangle (bits 4 4 aux) (bits 0 4 aux) s) :=
  (memRead_passes a s).bind fun _ t => cauxTriangle_passes _ _ t

/-- An edge-continue triangle reads what its third vertex reads. -/
theorem edgeTriangle_passes {k : Nat} (fe : Nibble) (hit : Bool) {third : State → Run Word} (s : State)
    (h : ∀ t, Passes 0 k t (third t)) : Passes 1 k s (edgeTriangle fe hit third s) :=
  Passes.of_withW (w := s.w.passControl) (c := 0) ((h _).bind fun _ t =>
    (emit_passes _ _ _ t).bind (c' := 0) (k' := 0) fun _ u => .of_val () (by simp) (by simp) (by simp)) rfl le_rfl le_rfl

theorem takeNext_passes (s : State) : Passes 0 0 s (takeNext s) := .of_val _ rfl le_rfl le_rfl

theorem moveLast_passes (delta : Word) (s : State) : Passes 0 0 s (moveLast delta s) := .of_val _ rfl le_rfl le_rfl

theorem readVertex_passes (slot : Nibble) (s : State) : Passes 0 0 s (readVertex slot s) := .of_val _ rfl le_rfl le_rfl

/-- Every control byte is passed, and at most 16 payload bytes with it (R97). -/
theorem exec_decodeTri_passes {v0 : Bool} {b : Byte} {s t : State} (h : exec (decodeTri v0 b) s = .next t)
    (hb : t.busy = true) : t.w.ccur = s.w.ccur + 1 ∧ s.w.dcur ≤ t.w.dcur ∧ t.w.dcur ≤ s.w.dcur + 16 := by
  have hedge : ∀ {k : Nat} {fe : Nibble} {hit : Bool} {third : State → Run Word}, k ≤ 16 →
      (∀ u, Passes 0 k u (third u)) → (edgeTriangle fe hit third s).finish = .next t →
      t.w.ccur = s.w.ccur + 1 ∧ s.w.dcur ≤ t.w.dcur ∧ t.w.dcur ≤ s.w.dcur + 16 := fun hk hthird he => by
    obtain ⟨hc, hl, hd⟩ := (edgeTriangle_passes _ _ s hthird).finish he hb
    exact ⟨hc, hl, by omega⟩
  unfold decodeTri at h
  dsimp only at h
  split_ifs at h
  · exact (payloadTriangle_passes (s.withW { s.w.passControl with fea := 15#4, auxPay := true })).finish h hb
  · exact (payloadTriangle_passes (s.withW { s.w.passControl with fea := 0#4, auxPay := true })).finish h hb
  · exact (tableTriangle_passes _ (s.withW { s.w.passControl with fea := 0#4, auxPay := false })).finish h hb
  · exact hedge (Nat.zero_le _) takeNext_passes h
  · exact hedge (by decide) decodeIndex_passes h
  · exact hedge (Nat.zero_le _) (moveLast_passes _) h
  · exact hedge (Nat.zero_le _) (moveLast_passes _) h
  · exact hedge (Nat.zero_le _) (fun u => readVertex_passes _ u) h

end Sys2Proof.Machine

namespace Sys2Proof.Proofs

open Sys2Proof.Machine Sys2Proof.Claims

/-- Settles O37: a well-formed control byte is one that the map reads, and each of them is followed to its end. -/
theorem triangleReadsAtMostSixteenBytes : Obligations.TriangleReadsAtMostSixteenBytes := by
  intro v0 i s t hi _ h hb
  obtain ⟨b, -, rfl⟩ := decode_encode_ctri hi
  exact exec_decodeTri_passes h hb

/-- Settles O36: the codeAux byte is read where the control byte says and run as its symbol. -/
theorem newTriangleRunsItsCodeAux : Obligations.NewTriangleRunsItsCodeAux :=
  fun _ _ => ⟨fun h => ⟨payloadByte_of_lt h, payloadByte_of_lt h⟩, fun h => tableByte_of_lt h⟩

/-- Settles O38: the four selectors are latched, before the last header byte and at it. -/
theorem ghdrLatchesSelectors : Obligations.GhdrLatchesSelectors := by
  intro s0 s1 s2 s3 s
  by_cases hlast : s.w.dcur - s.w.hcur + 1 < s.headers
  · exact ⟨_, if_pos hlast, fun g hg => latchSel_getD _ _ s0 s1 s2 s3 hg, fun _ => rfl, fun h => by omega⟩
  · exact ⟨_, if_neg hlast, fun g hg => latchSel_getD _ _ s0 s1 s2 s3 hg, fun h => absurd h hlast, fun _ => rfl⟩

/-- Settles O43: the byte is written to its lane of RAW, or at the seed to its place in PRED. -/
theorem literalByteIsTakenVerbatim : Obligations.LiteralByteIsTakenVerbatim := by
  intro b s
  refine ⟨fun hp hlane => ⟨s.withW (s.w.literal b), ?_, fun j => ?_, rfl⟩,
    fun hp hlane => ⟨s.seedByte b, ?_, fun k => ?_, rfl⟩⟩
  · exact congrArg Host.Outcome.next (if_neg hp)
  · exact getD_setIfInBounds_of_imp _ b 0 fun _ => hlane
  · exact congrArg Host.Outcome.next (if_pos hp)
  · exact getD_setIfInBounds_of_imp _ b 0 fun _ => hlane

end Sys2Proof.Proofs

/-! ## A new triangle in one pass -/

namespace Sys2Proof.Machine

open Sys2Proof.Claims

/-! ### The free index at DCUR -/

/-- VByte's pseudocode decides what DecodeIndex does (R94). -/
theorem decodeIndex_of_vbyte {s : State} {v : Word} {d : Nat} (h : vbyte s s.w.dcur = some (v, d)) :
    decodeIndex s = .val (s.w.last + unzigzag32 v)
      (s.withW { s.w with dcur := d, vres := v, vcnt := 0, last := s.w.last + unzigzag32 v }) := by
  have hs : ∃ rest, splitVarint 4 (s.window s.w.dcur Config.varintMax) = some (streamBytes s s.w.dcur d, rest) := by
    rw [vbyte_eq_vbyteLoop] at h
    exact (splitVarint_of_vbyteLoop h).2
  obtain ⟨rest, hs⟩ := hs
  simp only [decodeIndex, fetchVarint, hs, Run.bind_val, freeIndex_of_vbyte h]

theorem decodeIndex_of_vbyte_none {s : State} (h : vbyte s s.w.dcur = none) :
    decodeIndex s = .stop (.next (s.endCall .truncated)) := by
  rw [vbyte_eq_vbyteLoop] at h
  have hs : splitVarint 4 (s.window s.w.dcur Config.varintMax) = none := splitVarint_of_vbyteLoop_none h
  simp only [decodeIndex, fetchVarint, hs, raise_eq, Run.bind_stop]

/-! ### Two phases as one pass -/

/-- `s` where NEXT, LAST and DCUR are those of a pass, and the varint registers hold some values. -/
def State.atPass (s : State) (p : Pass) (r : Word) (c : Nat) : State :=
  s.withW { s.w with next := p.next, last := p.last, dcur := p.dcur, vres := r, vcnt := c }

/-- NEXT after a vertex code (R133): only 0 takes a fresh vertex. -/
def nextAfter (code : Nibble) (next : Word) : Word := if code = 0#4 then next + 1#32 else next

/-- A vertex of the new triangle as phase 1 leaves it (R133). -/
def phase1Vertex (s : State) (code : Nibble) (next : Word) : Vertex :=
  if code = 0#4 then .known next false
  else if code = 15#4 then .pending
  else .known (slot16 s.w.vf (newVertexSlot s.w.voff code)) true

theorem vertexPhase1_atPass (s : State) (code : Nibble) (p : Pass) (r : Word) (c : Nat) :
    vertexPhase1 code (s.atPass p r c) =
      (phase1Vertex s code p.next, s.atPass { p with next := nextAfter code p.next } r c) := by
  unfold vertexPhase1 phase1Vertex nextAfter
  split_ifs <;> rfl

/-- A vertex of the single pass is that of the two phases: NEXT moves as phase 1 moves it, LAST and DCUR as phase 2 does,
whatever NEXT has become by then. -/
theorem vertexPhase2_of_passVertex {s : State} {code : Nibble} {p p' : Pass} {x : Word × Bool}
    (h : passVertex s code p = some (x, p')) (n r : Word) (c : Nat) :
    p'.next = nextAfter code p.next ∧
    ∃ r' c', vertexPhase2 (phase1Vertex s code p.next) (s.atPass { p with next := n } r c) =
      .val x (s.atPass { p' with next := n } r' c') := by
  unfold passVertex at h
  unfold phase1Vertex nextAfter
  split_ifs at h ⊢ with h0 h15
  · cases h
    exact ⟨rfl, r, c, rfl⟩
  · cases hv : vbyte s p.dcur with
    | none => simp [hv] at h
    | some vd =>
      obtain ⟨v, d⟩ := vd
      simp only [hv, Option.some.injEq, Prod.mk.injEq] at h
      obtain ⟨rfl, rfl⟩ := h
      refine ⟨rfl, v, 0, ?_⟩
      rw [vertexPhase2, decodeIndex_of_vbyte (s := s.atPass { p with next := n } r c) hv]
      rfl
  · cases h
    exact ⟨rfl, r, c, rfl⟩

/-- Only a free index that runs past the stream stops the pass, and phase 2 with it. -/
theorem vertexPhase2_of_passVertex_none {s : State} {code : Nibble} {p : Pass} (h : passVertex s code p = none)
    (n r : Word) (c : Nat) : vertexPhase2 (phase1Vertex s code p.next) (s.atPass { p with next := n } r c) =
      .stop (.next (s.endCall .truncated)) := by
  unfold passVertex at h
  split_ifs at h with h0 h15
  cases hv : vbyte s p.dcur with
  | some vd => simp [hv] at h
  | none =>
    rw [phase1Vertex, if_neg h0, if_pos h15, vertexPhase2]
    rw [decodeIndex_of_vbyte_none (s := s.atPass { p with next := n } r c) hv]
    rfl

/-- ResolveNew's two phases, phase 1 done for all three vertices (R133). -/
theorem resolveNew_atPass (s : State) (fea feb fec : Nibble) (p : Pass) (r : Word) (c : Nat) :
    resolveNew fea feb fec (s.atPass p r c) =
      let nb := nextAfter fea p.next
      let nc := nextAfter feb nb
      (vertexPhase2 (phase1Vertex s fea p.next) (s.atPass { p with next := nextAfter fec nc } r c)).bind fun a t =>
      (vertexPhase2 (phase1Vertex s feb nb) t).bind fun b t =>
      (vertexPhase2 (phase1Vertex s fec nc) t).bind fun c t => .val (a, b, c) t := by
  simp only [resolveNew, vertexPhase1_atPass]

theorem passAll_eq_some {s : State} {fea feb fec : Nibble} {p p' : Pass} {a b c : Word × Bool} :
    passAll s fea feb fec p = some (a, b, c, p') ↔
      ∃ pa pb, passVertex s fea p = some (a, pa) ∧ passVertex s feb pa = some (b, pb) ∧
        passVertex s fec pb = some (c, p') := by
  unfold passAll
  cases passVertex s fea p with
  | none => simp
  | some x =>
    obtain ⟨a1, pa⟩ := x
    cases hb : passVertex s feb pa with
    | none => grind
    | some y =>
      obtain ⟨b1, pb⟩ := y
      cases hc : passVertex s fec pb with
      | none => grind
      | some z => grind

/-- The two phases of ResolveNew are the single pass over a, b, c (R133). -/
theorem resolveNew_of_passAll {s : State} {fea feb fec : Nibble} {p p' : Pass} {a b c : Word × Bool}
    (h : passAll s fea feb fec p = some (a, b, c, p')) (r : Word) (n : Nat) :
    ∃ r' n', resolveNew fea feb fec (s.atPass p r n) = .val (a, b, c) (s.atPass p' r' n') := by
  obtain ⟨pa, pb, ha, hb, hc⟩ := passAll_eq_some.1 h
  obtain ⟨hna, ra, ka, ea⟩ := vertexPhase2_of_passVertex ha p'.next r n
  obtain ⟨hnb, rb, kb, eb⟩ := vertexPhase2_of_passVertex hb p'.next ra ka
  obtain ⟨hnc, rc, kc, ec⟩ := vertexPhase2_of_passVertex hc p'.next rb kb
  refine ⟨rc, kc, ?_⟩
  rw [resolveNew_atPass]
  dsimp only
  rw [← hna, ← hnb, ← hnc, ea, Run.bind_val, eb, Run.bind_val, ec, Run.bind_val]

/-- Where the single pass runs past the stream, ResolveNew ends the call with Truncated (R46). -/
theorem resolveNew_of_passAll_none {s : State} {fea feb fec : Nibble} {p : Pass}
    (h : passAll s fea feb fec p = none) (r : Word) (n : Nat) :
    resolveNew fea feb fec (s.atPass p r n) = .stop (.next (s.endCall .truncated)) := by
  rw [resolveNew_atPass]
  dsimp only
  cases ha : passVertex s fea p with
  | none => rw [vertexPhase2_of_passVertex_none ha, Run.bind_stop]
  | some x =>
    obtain ⟨a, pa⟩ := x
    obtain ⟨hna, ra, ka, ea⟩ := vertexPhase2_of_passVertex ha (nextAfter fec (nextAfter feb pa.next)) r n
    rw [← hna, ea, Run.bind_val]
    cases hb : passVertex s feb pa with
    | none => rw [vertexPhase2_of_passVertex_none hb, Run.bind_stop]
    | some y =>
      obtain ⟨b, pb⟩ := y
      obtain ⟨hnb, rb, kb, eb⟩ := vertexPhase2_of_passVertex hb (nextAfter fec (nextAfter feb pa.next)) ra ka
      rw [eb, Run.bind_val, ← hnb]
      cases hc : passVertex s fec pb with
      | none => rw [vertexPhase2_of_passVertex_none hc, Run.bind_stop]
      | some z => rw [passAll_eq_some.2 ⟨pa, pb, ha, hb, hc⟩] at h; cases h

/-! ### What is pushed -/

theorem pushed_nil (f : Vector Word 16) (o : Nibble) : Pushed f f o o [] := ⟨by simp, fun k => by simp⟩

/-- One more value is pushed, after fewer than sixteen (R123, R124). -/
theorem pushed_push {f g : Vector Word 16} {o o' : Nibble} {vs : List Word} (h : Pushed f g o o' vs)
    (hlen : vs.length < 16) (x : Word) : Pushed f (setSlot16 g o' x) o (o' + 1#4) (vs ++ [x]) := by
  obtain ⟨rfl, hf⟩ := h
  have hk16 : (BitVec.ofNat 4 vs.length).toNat = vs.length := by simp; omega
  refine ⟨?_, fun k => ?_⟩
  · rw [List.length_append, List.length_singleton, BitVec.ofNat_add, BitVec.add_assoc]
  · by_cases hk : k = BitVec.ofNat 4 vs.length
    · subst hk
      rw [slot16_setSlot16, hk16]
      simp
    · have hne : k.toNat ≠ vs.length := fun e => hk (BitVec.eq_of_toNat_eq (e.trans hk16.symm))
      have hslot : o + BitVec.ofNat 4 vs.length ≠ o + k := fun e => hk (by simpa using e.symm)
      rw [slot16_setSlot16_ne _ _ hslot, hf k]
      congr 1
      rcases Nat.lt_or_gt_of_ne hne with hlt | hgt
      · rw [List.getElem?_append_left hlt]
      · rw [List.getElem?_eq_none hgt.le, List.getElem?_eq_none (by simp; omega)]

theorem notHit_cons (x : Word × Bool) (xs : List (Word × Bool)) :
    notHit (x :: xs) = notHit [x] ++ notHit xs := by
  obtain ⟨v, hit⟩ := x
  cases hit <;> rfl

/-- A vertex is pushed unless it was a hit. -/
theorem pushed_pushVertexUnless {f : Vector Word 16} {o : Nibble} {vs : List Word} {w : Work}
    (h : Pushed f w.vf o w.voff vs) (hlen : vs.length < 16) (x : Word × Bool) :
    Pushed f (w.pushVertexUnless x.2 x.1).vf o (w.pushVertexUnless x.2 x.1).voff (vs ++ notHit [x]) := by
  obtain ⟨v, hit⟩ := x
  cases hit with
  | true => simpa [notHit, Work.pushVertexUnless] using h
  | false => exact pushed_push h hlen v

theorem notHit_length_le (xs : List (Word × Bool)) : (notHit xs).length ≤ xs.length := by
  simpa [notHit] using List.length_filter_le _ xs

/-! ### What is written -/

theorem elementByte_append_of_lt {e y : Nat} {vs : List Word} (v : Word) (h : y < vs.length * e) :
    elementByte e (vs ++ [v]) y = elementByte e vs y := by
  have hlt : y / e < vs.length := Nat.div_lt_of_lt_mul (by rwa [Nat.mul_comm])
  rw [elementByte, elementByte, List.getElem?_append_left hlt]

theorem elementByte_append_last {e i : Nat} (vs : List Word) (v : Word) (h : i < e) :
    elementByte e (vs ++ [v]) (vs.length * e + i) = bits (8 * i) 8 v := by
  have hdiv : (vs.length * e + i) / e = vs.length := by
    rw [Nat.mul_comm, Nat.mul_add_div (by omega), Nat.div_eq_of_lt h, Nat.add_zero]
  have hmod : (vs.length * e + i) % e = i := by rw [Nat.mul_comm, Nat.mul_add_mod, Nat.mod_eq_of_lt h]
  simp [elementByte, hdiv, hmod]

theorem written_nil {s t : State} (h : t.dst = s.dst) : Written s t [] := by
  intro x
  have hno : ¬ (s.w.idx * s.e ≤ x ∧ x < (s.w.idx + ([] : List Word).length) * s.e) := by simp
  rw [if_neg hno, State.dstByte, h, State.dstByte]

/-- One more element is written after those that stand (R45, R47). -/
theorem written_write {s t u : State} {vs : List Word} {v : Word} (h : Written s t vs)
    (hu : u.dst = Mem.writeBytes .dst t.dst ((s.w.idx + vs.length) * s.e) (leBytes s.e v)) :
    Written s u (vs ++ [v]) := by
  intro x
  have hstart : (s.w.idx + vs.length) * s.e = s.w.idx * s.e + vs.length * s.e := by ring
  have hend : (s.w.idx + (vs ++ [v]).length) * s.e = s.w.idx * s.e + vs.length * s.e + s.e := by
    rw [List.length_append, List.length_singleton]; ring
  have hx : u.dstByte x = if (s.w.idx + vs.length) * s.e ≤ x ∧ x < (s.w.idx + vs.length) * s.e + s.e then
      (leBytes s.e v)[x - (s.w.idx + vs.length) * s.e]? else t.dstByte x := by
    rw [State.dstByte, hu, Mem.read_writeBytes_dst, leBytes_length]; rfl
  rw [hx, hend, h x, hstart]
  by_cases hnew : s.w.idx * s.e + vs.length * s.e ≤ x ∧ x < s.w.idx * s.e + vs.length * s.e + s.e
  · have hy : x - s.w.idx * s.e = vs.length * s.e + (x - (s.w.idx * s.e + vs.length * s.e)) := by omega
    rw [if_pos hnew, if_pos (by omega), leBytes_getElem?, if_pos (by omega), hy, elementByte_append_last _ _ (by omega)]
  · rw [if_neg hnew]
    by_cases hold : s.w.idx * s.e ≤ x ∧ x < s.w.idx * s.e + vs.length * s.e
    · rw [if_pos hold, if_pos (by omega), elementByte_append_of_lt v (by omega)]
    · rw [if_neg hold, if_neg (by omega)]

/-- Emit writes its three elements (R138). -/
theorem emit_of_room {s : State} (a b c : Word) (h : RoomForTriangle s) :
    ∃ t, emit a b c s = .val () t ∧ Written s t [a, b, c] ∧
      t = { s with dst := t.dst, w := { s.w with idx := s.w.idx + 3 } } := by
  rcases emit_cases a b c s with ⟨-, e⟩ | ⟨hlt, -⟩
  · have h1 : Written s { s with dst := _ } ([] ++ [a]) := written_write (written_nil rfl) rfl
    have h2 : Written s { s with dst := _ } ([] ++ [a] ++ [b]) := written_write h1 rfl
    exact ⟨_, e, written_write (vs := [a, b]) h2 rfl, rfl⟩
  · exact absurd h (Nat.not_le.2 hlt)

/-! ### The new triangle -/

/-- The three vertices of a new triangle and its three edges are pushed (R135). -/
def Work.pushNew (a b c : Word × Bool) (w : Work) : Work :=
  (((((w.pushVertexUnless a.2 a.1).pushVertexUnless b.2 b.1).pushVertexUnless c.2 c.1).pushEdge
    b.1 a.1).pushEdge c.1 b.1).pushEdge a.1 c.1

/-- A vertex push changes the VertexFifo and nothing else. -/
theorem Work.pushVertexUnless_eq (hit : Bool) (v : Word) (w : Work) :
    ∃ f o, w.pushVertexUnless hit v = { w with vf := f, voff := o } := by
  cases hit with
  | true => exact ⟨w.vf, w.voff, rfl⟩
  | false => exact ⟨_, _, rfl⟩

theorem Work.pushVertices_eq (a b c : Word × Bool) (w : Work) :
    ∃ f o, ((w.pushVertexUnless a.2 a.1).pushVertexUnless b.2 b.1).pushVertexUnless c.2 c.1 =
      { w with vf := f, voff := o } := by
  obtain ⟨f1, o1, h1⟩ := w.pushVertexUnless_eq a.2 a.1
  obtain ⟨f2, o2, h2⟩ := Work.pushVertexUnless_eq b.2 b.1 { w with vf := f1, voff := o1 }
  obtain ⟨f3, o3, h3⟩ := Work.pushVertexUnless_eq c.2 c.1 { w with vf := f2, voff := o2 }
  exact ⟨f3, o3, by rw [h1, h2, h3]⟩

theorem pushed_pushVertices (a b c : Word × Bool) (w : Work) :
    Pushed w.vf (w.pushNew a b c).vf w.voff (w.pushNew a b c).voff (notHit [a, b, c]) := by
  have hlen : (notHit [a]).length ≤ 1 ∧ (notHit [b]).length ≤ 1 := ⟨notHit_length_le [a], notHit_length_le [b]⟩
  have h1 := pushed_pushVertexUnless (pushed_nil w.vf w.voff) (by simp) a
  have h2 := pushed_pushVertexUnless h1 (by simp; omega) b
  have h3 := pushed_pushVertexUnless h2 (by simp; omega) c
  rw [notHit_cons a, notHit_cons b, ← List.append_assoc, ← List.nil_append (notHit [a])]
  exact h3

theorem pushed_pushEdges (a b c : Word × Bool) (w : Work) :
    Pushed w.efA (w.pushNew a b c).efA w.eoff (w.pushNew a b c).eoff [b.1, c.1, a.1] ∧
    Pushed w.efB (w.pushNew a b c).efB w.eoff (w.pushNew a b c).eoff [a.1, b.1, c.1] := by
  obtain ⟨f, o, h⟩ := w.pushVertices_eq a b c
  rw [Work.pushNew, h]
  have hpush : ∀ (e : Vector Word 16) (x y z : Word),
      Pushed e (setSlot16 (setSlot16 (setSlot16 e w.eoff x) (w.eoff + 1#4) y) (w.eoff + 1#4 + 1#4) z)
        w.eoff (w.eoff + 1#4 + 1#4 + 1#4) [x, y, z] := fun e x y z =>
    pushed_push (pushed_push (pushed_push (pushed_nil e w.eoff) (by simp) x) (by simp) y) (by simp) z
  exact ⟨hpush w.efA b.1 c.1 a.1, hpush w.efB a.1 b.1 c.1⟩

/-- The pushes of a new triangle, and that they change the two FIFOs and nothing else. -/
theorem pushNew_cases (a b c : Word × Bool) (w : Work) : ∃ f o ea eb eo,
    w.pushNew a b c = { w with vf := f, voff := o, efA := ea, efB := eb, eoff := eo } ∧
    Pushed w.vf f w.voff o (notHit [a, b, c]) ∧ Pushed w.efA ea w.eoff eo [b.1, c.1, a.1] ∧
    Pushed w.efB eb w.eoff eo [a.1, b.1, c.1] := by
  refine ⟨_, _, _, _, _, ?_, pushed_pushVertices a b c w, pushed_pushEdges a b c w⟩
  obtain ⟨f, o, h⟩ := w.pushVertices_eq a b c
  rw [Work.pushNew, h]
  rfl

/-- What follows the codeAux byte, resolved from `p` on: the triangle of the single pass, or Truncated (R133 to R135). -/
theorem newTriangle_atPass (s : State) (feb fec : Nibble) (p : Pass) (r : Word) (n : Nat) :
    NewTriangle s s.w.fea feb fec p (newTriangle feb fec (s.atPass p r n)).finish
      (fun t => t.w.ccur = s.w.ccur ∧ t.w.fea = s.w.fea ∧ t.w.auxPay = s.w.auxPay) := by
  unfold NewTriangle
  cases h : passAll s s.w.fea feb fec p with
  | none =>
    have e := resolveNew_of_passAll_none h r n
    exact congrArg Run.finish (congrArg (Run.bind · _) e)
  | some x =>
    obtain ⟨a, b, c, p'⟩ := x
    intro hroom
    obtain ⟨r', n', e⟩ := resolveNew_of_passAll h r n
    obtain ⟨t, he, hwritten, ht⟩ := emit_of_room (s := s.atPass p' r' n') a.1 b.1 c.1 hroom
    have hrun : (newTriangle feb fec (s.atPass p r n)).finish = .next (t.withW (t.w.pushNew a b c)) := by
      have hres : resolveNew (s.atPass p r n).w.fea feb fec (s.atPass p r n) = _ := e
      rw [newTriangle, hres, Run.bind_val]
      dsimp only
      rw [he, Run.bind_val]
      rfl
    obtain ⟨d, rfl⟩ : ∃ d, t = { s.atPass p' r' n' with
        dst := d, w := { (s.atPass p' r' n').w with idx := s.w.idx + 3 } } := ⟨t.dst, ht⟩
    obtain ⟨f, o, ea, eb, eo, hpush, hv, hea, heb⟩ :=
      pushNew_cases a b c { (s.atPass p' r' n').w with idx := s.w.idx + 3 }
    rw [hpush] at hrun
    exact ⟨_, hrun, ⟨hwritten, hv, hea, heb, rfl, rfl⟩, rfl, rfl, rfl, rfl, rfl, rfl⟩

/-- A codeAux byte of the payload is passed, a table entry is not (R130, R132). -/
theorem cauxTriangle_eq (feb fec : Nibble) (s : State) : cauxTriangle feb fec s =
    newTriangle feb fec (s.atPass ⟨s.w.next, s.w.last, s.w.dcur + s.w.auxPay.toNat⟩ s.w.vres s.w.vcnt) := by
  unfold cauxTriangle
  cases s.w.auxPay <;> rfl

end Sys2Proof.Machine

namespace Sys2Proof.Proofs

open Sys2Proof.Machine Sys2Proof.Claims

/-- Settles O34: once the codeAux byte is passed, the two phases and what follows them are the single pass. -/
theorem cauxResolvesInOnePass : Obligations.CauxResolvesInOnePass := by
  intro feb fec s
  show NewTriangle s s.w.fea feb fec _ (cauxTriangle feb fec s).finish _
  rw [cauxTriangle_eq]
  exact newTriangle_atPass s feb fec _ _ _

end Sys2Proof.Proofs

/-! ## Zigzag is a bijection -/

namespace Sys2Proof.Machine

/-- Bit 0 of a value is its parity. -/
theorem toNat_and_one (v : Word) : (v &&& 1).toNat = v.toNat % 2 := by
  simp [Nat.and_one_is_mod]

theorem toInt_half (v : Word) : (v >>> 1).toInt = ((v.toNat / 2 : Nat) : Int) := by
  have hhalf : (v >>> 1).toNat = v.toNat / 2 := by simp [Nat.shiftRight_one]
  rw [BitVec.toInt_eq_toNat_of_lt (by omega), hhalf]

/-- Even values are the nonnegative deltas. -/
theorem unzigzag32_of_even {v : Word} (h : v.toNat % 2 = 0) : unzigzag32 v = v >>> 1 := by
  have hbit : v &&& 1 = 0 := BitVec.eq_of_toNat_eq ((toNat_and_one v).trans h)
  rw [unzigzag32_eq, hbit]
  simp

/-- Odd values are the negative deltas: the complement of the half. -/
theorem unzigzag32_of_odd {v : Word} (h : v.toNat % 2 = 1) : unzigzag32 v = ~~~(v >>> 1) := by
  have hbit : v &&& 1 = 1 := BitVec.eq_of_toNat_eq ((toNat_and_one v).trans h)
  have hones : (0 - 1 : Word) = BitVec.allOnes 32 := by decide
  rw [unzigzag32_eq, hbit, hones, BitVec.xor_allOnes]

/-- The complement of a word is one less than its negative. -/
theorem toInt_complement (x : Word) : (~~~x).toInt = -x.toInt - 1 := by
  simp only [BitVec.toInt_eq_toNat_cond, BitVec.toNat_not]
  split_ifs <;> omega

theorem toInt_unzigzag32 (v : Word) : (unzigzag32 v).toInt =
    if v.toNat % 2 = 0 then ((v.toNat / 2 : Nat) : Int) else -((v.toNat / 2 : Nat) : Int) - 1 := by
  split_ifs with h
  · rw [unzigzag32_of_even h, toInt_half]
  · rw [unzigzag32_of_odd (by omega), toInt_complement, toInt_half]

/-- The sign of the delta tells the parity, its size the half. -/
theorem unzigzag32_injective : Function.Injective unzigzag32 := by
  intro v v' h
  have hint := congrArg BitVec.toInt h
  rw [toInt_unzigzag32, toInt_unzigzag32] at hint
  refine BitVec.eq_of_toNat_eq ?_
  split_ifs at hint <;> omega

end Sys2Proof.Machine

namespace Sys2Proof.Proofs

open Sys2Proof.Machine Sys2Proof.Claims

/-- Settles O26: the signed value by parity tells `v` back, and an injection of the finitely many words is a bijection. -/
theorem zigzagIsBijective : Obligations.ZigzagIsBijective :=
  ⟨Finite.injective_iff_bijective.1 unzigzag32_injective, unzigzag32_eq, toInt_unzigzag32⟩

end Sys2Proof.Proofs

/-! ## A byte plane -/

namespace Sys2Proof.Machine

open Sys2Proof.Claims

/-- R95's formula. -/
theorem unzigzag8_eq (r : Byte) : unzigzag8 r = (r >>> 1) ^^^ (0 - (r &&& 1)) := by
  have hbit : (bits 0 1 r).setWidth 8 = r &&& 1 := by revert r; decide
  rw [unzigzag8, hbit]

/-- The byte of the current plane before byte `i` (R162): PRED[PLANE] before the first. -/
def byteBefore (s : State) : Nat → Byte
  | 0 => s.w.pred.getD s.w.plane 0
  | i + 1 => planeByte s i

theorem planeByte_eq (s : State) (i : Nat) : planeByte s i = unzigzag8 (s.w.raw.getD i 0) + byteBefore s i := by
  rw [unzigzag8_eq]
  cases i <;> rfl

/-- One turn of the loop of R162. -/
theorem planeLoop_succ (s : State) (c i : Nat) (tr : Vector Byte 8192) :
    planeLoop s.w.raw s.e s.w.plane (c + 1) i (byteBefore s i) tr =
      planeLoop s.w.raw s.e s.w.plane c (i + 1) (byteBefore s (i + 1))
        (tr.setIfInBounds (i * s.e + s.w.plane) (planeByte s i)) := by
  rw [byteBefore, planeByte_eq]; rfl

/-- The loop writes its vertices' bytes of the plane and no other byte. -/
theorem planeLoop_getD_of_ne {s : State} {c i j : Nat} {tr : Vector Byte 8192}
    (hj : ∀ m, i ≤ m → m < i + c → j ≠ m * s.e + s.w.plane) :
    (planeLoop s.w.raw s.e s.w.plane c i (byteBefore s i) tr).getD j 0 = tr.getD j 0 := by
  induction c generalizing i tr with
  | zero => rfl
  | succ c ih =>
    rw [planeLoop_succ, ih fun m hm hlt => hj m (by omega) (by omega), getD_setIfInBounds,
      if_neg fun h => hj i le_rfl (by omega) h.1.symm]

/-- The loop leaves each vertex of the plane the sum of the deltas up to it, where the vertex lies in TRANS. -/
theorem planeLoop_getD {s : State} (he : 0 < s.e) {c i m : Nat} {tr : Vector Byte 8192} (him : i ≤ m)
    (hmc : m < i + c) (hin : m * s.e + s.w.plane < 8192) :
    (planeLoop s.w.raw s.e s.w.plane c i (byteBefore s i) tr).getD (m * s.e + s.w.plane) 0 = planeByte s m := by
  induction c generalizing i tr with
  | zero => omega
  | succ c ih =>
    rw [planeLoop_succ]
    rcases eq_or_lt_of_le him with rfl | hlt
    · have hlater : ∀ k, i + 1 ≤ k → k < i + 1 + c → i * s.e + s.w.plane ≠ k * s.e + s.w.plane := fun k hk _ => by
        have := Nat.mul_lt_mul_of_pos_right (show i < k by omega) he
        omega
      rw [planeLoop_getD_of_ne hlater, getD_setIfInBounds, if_pos ⟨rfl, hin⟩]
    · exact ih hlt (by omega)

/-- A block fits TRANS (R161). -/
theorem bc_mul_e_le (s : State) : s.bc * s.e ≤ 8192 := by
  have hbc : s.bc ≤ 8192 / s.e := by
    simp only [State.bc, blockCount, blockSize, Config.blockBytes, Config.groupBytes, Config.blockMaxVerts]
    omega
  exact (Nat.mul_le_mul_right _ hbc).trans (Nat.div_mul_le_self _ _)

/-- A byte of a vertex of the block lies in TRANS. -/
theorem plane_offset_lt {s : State} {i : Nat} (hi : i < s.bc) (hk : s.w.plane < s.e) :
    i * s.e + s.w.plane < 8192 := by
  have hsucc : (i + 1) * s.e = i * s.e + s.e := Nat.succ_mul i s.e
  have hle : (i + 1) * s.e ≤ s.bc * s.e := Nat.mul_le_mul_right _ hi
  have := bc_mul_e_le s
  omega

theorem due_planeEnd {s : State} (hp : s.pos = .planeEnd) : due s = .work := by simp only [due, hp]

theorem due_runTop {s : State} (hp : s.pos = .runTop) (h : s.headers ≤ s.l - s.w.dcur) : due s = .work := by
  simp only [due, hp, truncatedIf_of_not (Nat.not_lt.2 h)]

theorem step_planeEnd {s : State} (hs : s.host = []) (hp : s.pos = .planeEnd) : step s = .next s.endPlane := by
  rw [step_of_host_nil hs, blockStep_eq_between (due_planeEnd hp)]
  simp only [between, hp]

theorem step_runTop {s : State} (hs : s.host = []) (hp : s.pos = .runTop) (h : s.headers ≤ s.l - s.w.dcur) :
    step s = .next s.beginRun := by
  rw [step_of_host_nil hs, blockStep_eq_between (due_runTop hp h)]
  simp only [between, hp]

end Sys2Proof.Machine

namespace Sys2Proof.Proofs

open Sys2Proof.Machine Sys2Proof.Claims

/-- Settles O45: the loop of R162 vertex by vertex, each inside TRANS; the start of a run by its lookahead test. -/
theorem planeReconstruction : Obligations.PlaneReconstruction := by
  refine ⟨fun s _ hok ⟨hs, _⟩ hp => ?_, fun s hs hp h => step_runTop hs hp h⟩
  obtain ⟨-, -, hplane⟩ : s.attrOk ∧ s.w.blk < s.n ∧ s.w.plane < s.e := by simpa only [State.callOk, hp] using hok
  refine ⟨s.endPlane, step_planeEnd hs hp, fun i hi => ?_, fun j hj => ?_, rfl⟩
  · exact planeLoop_getD (by omega) (Nat.zero_le i) (by omega) (plane_offset_lt hi hplane)
  · exact planeLoop_getD_of_ne fun m _ hm => hj m (by omega)

end Sys2Proof.Proofs

/-! ## No symbol reads past the stream -/

namespace Sys2Proof.Machine

open Sys2Proof.Claims

/-! ### Parts that go through where their bytes are in the stream -/

/-- Where `k` bytes from a cursor on lie below CFG_SRCLEN, the part goes on and passes at most these; IDX stays, and nothing but
the working registers changes. -/
def ReadsWithin {α : Type} (cursor : Work → Nat) (k : Nat) (r : Run α) (s : State) : Prop :=
  cursor s.w + k ≤ s.l → ∃ a w, r = .val a (s.withW w) ∧ cursor w ≤ cursor s.w + k ∧ w.idx = s.w.idx

/-- A part that moves neither the cursor nor IDX. -/
theorem ReadsWithin.of_val {α : Type} {cursor : Work → Nat} {s : State} (a : α) {w : Work}
    (hc : cursor w = cursor s.w) (hi : w.idx = s.w.idx) : ReadsWithin cursor 0 (.val a (s.withW w)) s :=
  fun _ => ⟨a, w, rfl, hc.le, hi⟩

theorem ReadsWithin.mono {α : Type} {cursor : Work → Nat} {j k : Nat} {r : Run α} {s : State}
    (h : ReadsWithin cursor j r s) (hjk : j ≤ k) : ReadsWithin cursor k r s := fun hk => by
  obtain ⟨a, w, e, hc, hi⟩ := h (by omega)
  exact ⟨a, w, e, by omega, hi⟩

/-- One part, then another. -/
theorem ReadsWithin.bind {α β : Type} {cursor : Work → Nat} {j k : Nat} {r : Run α} {f : α → State → Run β} {s : State}
    (h : ReadsWithin cursor j r s) (hf : ∀ a t, ReadsWithin cursor k (f a t) t) :
    ReadsWithin cursor (j + k) (r.bind f) s := fun hjk => by
  obtain ⟨a, w, rfl, hc, hi⟩ := h (by omega)
  obtain ⟨b, v, e, hc', hi'⟩ := hf a (s.withW w) (by rw [State.withW_w, State.withW_l]; omega)
  rw [State.withW_w] at hc' hi'
  exact ⟨b, v, e, by omega, hi'.trans hi⟩

/-! ### The parts of a triangle -/

theorem takeNext_readsWithin (s : State) : ReadsWithin Work.dcur 0 (takeNext s) s := .of_val _ rfl rfl

theorem moveLast_readsWithin (delta : Word) (s : State) : ReadsWithin Work.dcur 0 (moveLast delta s) s := .of_val _ rfl rfl

theorem readVertex_readsWithin (slot : Nibble) (s : State) : ReadsWithin Work.dcur 0 (readVertex slot s) s :=
  .of_val (w := s.w) _ rfl rfl

/-- Five bytes hold a free index (R97). -/
theorem decodeIndex_readsWithin (s : State) : ReadsWithin Work.dcur 5 (decodeIndex s) s := fun h => by
  rcases decodeIndex_cases s with ⟨r, c, k, -, hk, -, e⟩ | ⟨hnone, -⟩
  · exact ⟨_, _, e, Nat.add_le_add_left hk _, rfl⟩
  · obtain ⟨p, hp⟩ := splitVarint_some_of_length (k := 4) (bs := s.window s.w.dcur 5) (by simp; omega)
    rw [hp] at hnone
    cases hnone

theorem vertexPhase2_readsWithin (x : Vertex) (s : State) : ReadsWithin Work.dcur 5 (vertexPhase2 x s) s := by
  cases x with
  | known v hit => exact (ReadsWithin.of_val (w := s.w) _ rfl rfl).mono (Nat.zero_le _)
  | pending => exact (decodeIndex_readsWithin s).bind fun v t => .of_val (w := t.w) _ rfl rfl

theorem phase1_readsWithin (code : Nibble) (s : State) : ReadsWithin Work.dcur 0 (phase1 code s) s := by
  obtain ⟨n, h⟩ := vertexPhase1_frame code s
  rw [phase1, h]
  exact .of_val _ rfl rfl

/-- Fifteen bytes hold the free indices of three vertices (R97). -/
theorem resolveNew_readsWithin (fea feb fec : Nibble) (s : State) :
    ReadsWithin Work.dcur 15 (resolveNew fea feb fec s) s := by
  rw [resolveNew_eq]
  exact (phase1_readsWithin fea s).bind fun a t => (phase1_readsWithin feb t).bind fun b t =>
    (phase1_readsWithin fec t).bind fun c t => (vertexPhase2_readsWithin a t).bind fun a t =>
    (vertexPhase2_readsWithin b t).bind fun b t => (vertexPhase2_readsWithin c t).bind (k := 0) fun c t =>
    .of_val (w := t.w) _ rfl rfl

/-! ### Triangles -/

/-- The outcome is a next state in which BUSY is what it was. -/
def GoesThrough (o : Res) (s : State) : Prop := ∃ t, o = .next t ∧ t.busy = s.busy

/-- Vertices whose bytes are in the stream are resolved, then emitted where DST has room, then pushed. -/
theorem goesThrough_of_readsWithin {α : Type} {k : Nat} {r : Run α} {s : State} {a b c : α → Word} {push : α → Work → Work}
    (hr : ReadsWithin Work.dcur k r s) (hd : s.w.dcur + k ≤ s.l) (hroom : RoomForTriangle s) :
    GoesThrough (r.bind fun x u => (emit (a x) (b x) (c x) u).bind fun _ u => .val () (u.withW (push x u.w))).finish s := by
  obtain ⟨x, w, rfl, -, hi⟩ := hr hd
  obtain ⟨t, he, -, ht⟩ := emit_of_room (s := s.withW w) (a x) (b x) (c x) (by
    rw [RoomForTriangle, State.withW_w, hi]; exact hroom)
  rw [Run.bind_val, he]
  exact ⟨_, rfl, by rw [ht]; rfl⟩

/-- A new triangle is resolved, emitted and pushed (R133, R135). -/
theorem newTriangle_eq (feb fec : Nibble) (s : State) : newTriangle feb fec s =
    (resolveNew s.w.fea feb fec s).bind fun x u => (emit x.1.1 x.2.1.1 x.2.2.1 u).bind fun _ u =>
      .val () (u.withW (u.w.pushNew x.1 x.2.1 x.2.2)) := rfl

theorem newTriangle_goesThrough (feb fec : Nibble) {s : State} (hd : s.w.dcur + 15 ≤ s.l) (hroom : RoomForTriangle s) :
    GoesThrough (newTriangle feb fec s).finish s := by
  rw [newTriangle_eq]
  exact goesThrough_of_readsWithin (resolveNew_readsWithin s.w.fea feb fec s) hd hroom

/-- A codeAux byte, then at most three free indices (R97). -/
theorem cauxTriangle_goesThrough (feb fec : Nibble) {s : State} (hd : s.w.dcur + 16 ≤ s.l) (hroom : RoomForTriangle s) :
    GoesThrough (cauxTriangle feb fec s).finish s := by
  unfold cauxTriangle
  split
  · exact newTriangle_goesThrough (s := s.withW { s.w with dcur := s.w.dcur + 1 }) feb fec (by simp; omega) hroom
  · exact newTriangle_goesThrough feb fec (by omega) hroom

theorem restartTriangle_goesThrough {s : State} (hd : s.w.dcur + 16 ≤ s.l) (hroom : RoomForTriangle s) :
    GoesThrough (restartTriangle s).finish s :=
  newTriangle_goesThrough (s := s.withW { s.w with dcur := s.w.dcur + 1, next := 0#32 }) 0#4 0#4 (by simp; omega) hroom

theorem newFromPayload_goesThrough (fea : Nibble) {s : State} (hd : s.w.dcur + 16 ≤ s.l) (hroom : RoomForTriangle s) :
    GoesThrough (newFromPayload fea s).finish s := by
  have hlt : (s.withW { s.w.passControl with fea := fea, auxPay := true }).w.dcur < s.l := show s.w.dcur < s.l by omega
  rw [newFromPayload, payloadByte_of_lt hlt]
  split
  · exact restartTriangle_goesThrough hd hroom
  · exact cauxTriangle_goesThrough _ _ hd hroom

/-- The table is the last sixteen bytes of the stream (R43). -/
theorem execTriNewTable_goesThrough (j : Nibble) {s : State} (hd : s.w.dcur + 16 ≤ s.l) (hroom : RoomForTriangle s) :
    GoesThrough (execTriNewTable j s) s := by
  have hlt : s.tableStart + j.toNat < s.l := by
    have hts : s.tableStart = s.l - 16 := rfl
    omega
  have e : execTriNewTable j s = _ :=
    tableByte_of_lt (s := s.withW { s.w.passControl with fea := 0#4, auxPay := false }) hlt
  rw [e]
  exact cauxTriangle_goesThrough _ _ hd hroom

theorem edgeTriangle_goesThrough {k : Nat} (fe : Nibble) (hit : Bool) {third : State → Run Word} {s : State}
    (hthird : ∀ u, ReadsWithin Work.dcur k (third u) u) (hd : s.w.dcur + k ≤ s.l) (hroom : RoomForTriangle s) :
    GoesThrough (edgeTriangle fe hit third s).finish s :=
  goesThrough_of_readsWithin (hthird (s.withW s.w.passControl)) hd hroom
    (a := fun _ => slot16 s.w.efA (edgeSlot s.w.eoff fe)) (b := fun _ => slot16 s.w.efB (edgeSlot s.w.eoff fe))
    (c := fun c => c) (push := fun c w =>
      ((w.pushVertexUnless hit c).pushEdge c (slot16 s.w.efB (edgeSlot s.w.eoff fe))).pushEdge
        (slot16 s.w.efA (edgeSlot s.w.eoff fe)) c)

/-- Every control byte goes through where sixteen payload bytes are left and DST has room for its triangle (R97). -/
theorem exec_decodeTri_goesThrough (v0 : Bool) (b : Byte) {s : State} (hd : s.w.dcur + 16 ≤ s.l)
    (hroom : RoomForTriangle s) : GoesThrough (exec (decodeTri v0 b) s) s := by
  unfold decodeTri
  dsimp only
  split_ifs
  · exact newFromPayload_goesThrough 15#4 hd hroom
  · exact newFromPayload_goesThrough 0#4 hd hroom
  · exact execTriNewTable_goesThrough _ hd hroom
  · exact edgeTriangle_goesThrough _ _ takeNext_readsWithin (by omega) hroom
  · exact edgeTriangle_goesThrough _ _ decodeIndex_readsWithin (by omega) hroom
  · exact edgeTriangle_goesThrough _ _ (moveLast_readsWithin _) (by omega) hroom
  · exact edgeTriangle_goesThrough _ _ (moveLast_readsWithin _) (by omega) hroom
  · exact edgeTriangle_goesThrough _ _ (fun u => readVertex_readsWithin _ u) (by omega) hroom

/-! ### Sequence symbols -/

/-- A sequence symbol goes through where DST has room for its element. -/
theorem exec_seq_goesThrough (bs : List Byte) {s : State} (hroom : s.w.idx * s.e + s.e ≤ s.n * s.e) :
    GoesThrough (exec (.seq bs) s) s := by
  show GoesThrough (execSeq bs s) s
  unfold execSeq
  dsimp only
  rw [memWrite_of_le (by simpa using hroom)]
  exact ⟨_, rfl, rfl⟩

/-! ### Byte groups -/

theorem codeLane_readsWithin (sent : Bool) (v : Byte) (s : State) : ReadsWithin Work.ext 1 (codeLane sent v s) s := by
  intro h
  rcases codeLane_cases sent v s with ⟨-, e⟩ | ⟨-, -, e⟩ | ⟨-, hle, -⟩
  · exact ⟨_, _, e, by simp, rfl⟩
  · exact ⟨_, _, e, by simp, rfl⟩
  · omega

theorem c2Lanes_readsWithin (c0 c1 c2 c3 : BitVec 2) (s : State) : ReadsWithin Work.ext 4 (c2Lanes c0 c1 c2 c3 s) s :=
  (codeLane_readsWithin _ _ s).bind fun _ t => (codeLane_readsWithin _ _ t).bind fun _ t =>
    (codeLane_readsWithin _ _ t).bind fun _ t => codeLane_readsWithin _ _ t

theorem c4Lanes_readsWithin (c0 c1 : Nibble) (s : State) : ReadsWithin Work.ext 2 (c4Lanes c0 c1 s) s :=
  (codeLane_readsWithin _ _ s).bind fun _ t => codeLane_readsWithin _ _ t

theorem repeatRun_readsWithin {k : Nat} {f : State → Run Unit} (hf : ∀ t, ReadsWithin Work.ext k (f t) t) (m : Nat)
    (s : State) : ReadsWithin Work.ext (m * k) (repeatRun f m s) s := by
  induction m generalizing s with
  | zero => rw [Nat.zero_mul]; exact .of_val (w := s.w) () rfl rfl
  | succ m ih => rw [Nat.succ_mul, Nat.add_comm]; exact (hf s).bind fun _ t => ih t

/-- The control bytes lie below CFG_SRCLEN; each is unpacked into lanes. -/
theorem controlBytes_readsWithin {k : Nat} {f : Byte → State → Run Unit} (hf : ∀ b t, ReadsWithin Work.ext k (f b t) t)
    {m a : Nat} {s : State} (ha : a + m ≤ s.l) : ReadsWithin Work.ext (m * k) (controlBytes f m a s) s := by
  induction m generalizing a s with
  | zero => rw [Nat.zero_mul]; exact .of_val (w := s.w) () rfl rfl
  | succ m ih =>
    intro hk
    rw [Nat.succ_mul] at hk ⊢
    obtain ⟨_, w, e, hc, hi⟩ := hf (s.srcByte a) s (by omega)
    obtain ⟨_, v, e', hc', hi'⟩ := ih (a := a + 1) (s := s.withW w) (by rw [State.withW_l]; omega)
      (by rw [State.withW_w, State.withW_l]; omega)
    rw [State.withW_w] at hc' hi'
    refine ⟨(), v, ?_, by omega, hi'.trans hi⟩
    rw [controlBytes, memRead_of_lt (by omega), Run.bind_val, e, Run.bind_val, e', State.withW_withW]

/-- A group of sixteen lanes goes through where its control bytes and sixteen extension bytes are in the stream (R111). -/
theorem groupOf_goesThrough {ctl : Nat} {lanes : State → Run Unit} {s : State} (hd : s.w.dcur + ctl + 16 ≤ s.l)
    (hl : ∀ u, u.l = s.l → ReadsWithin Work.ext 16 (lanes u) u) : GoesThrough (groupOf ctl lanes s) s := by
  obtain ⟨_, w, e, -⟩ := hl (s.withW (s.w.beginGroup ctl)) rfl hd
  rw [groupOf, e]
  exact ⟨_, rfl, rfl⟩

/-- Every selector's group goes through where 24 bytes are left (R111). -/
theorem exec_decodeSel_goesThrough (sel : BitVec 2) {s : State} (hd : s.w.dcur + 24 ≤ s.l) :
    GoesThrough (exec (decodeSel sel) s) s := by
  unfold decodeSel
  split_ifs
  · exact groupOf_goesThrough (by omega) fun u _ => repeatRun_readsWithin (codeLane_readsWithin false 0#8) 16 u
  · exact groupOf_goesThrough (by omega) fun u hu =>
      controlBytes_readsWithin (m := 4) (fun _ => c2Lanes_readsWithin _ _ _ _) (by omega)
  · exact groupOf_goesThrough (by omega) fun u hu =>
      controlBytes_readsWithin (m := 8) (fun _ => c4Lanes_readsWithin _ _) (by omega)
  · exact groupOf_goesThrough (by omega) fun u _ => repeatRun_readsWithin (codeLane_readsWithin true 0#8) 16 u

theorem exec_ghdr_goesThrough (s0 s1 s2 s3 : BitVec 2) (s : State) : GoesThrough (exec (.ghdr s0 s1 s2 s3) s) s := by
  show GoesThrough (execGhdr s0 s1 s2 s3 s) s
  unfold execGhdr
  dsimp only
  split <;> exact ⟨_, rfl, rfl⟩

/-! ### The symbol that is due, position by position -/

/-- The bytes hold a symbol of the position, and it goes through. -/
def SymbolRuns (c : Ctx) (bytes : List Byte) (s : State) : Prop :=
  ∃ i rest, decode c bytes = .ok (i, rest) ∧ GoesThrough (exec i s) s

/-- A symbol stands behind a lookahead test that has passed. -/
theorem truncatedIf_eq_symbol {p : Prop} [Decidable p] {d : Due} {c : Ctx} {bytes : List Byte} :
    truncatedIf (decide p) d = .symbol c bytes ↔ ¬p ∧ d = .symbol c bytes := by
  by_cases h : p <;> simp [truncatedIf, h]

section Dues

variable {s : State} {c : Ctx} {bytes : List Byte} (hdue : due s = .symbol c bytes) (hok : s.callOk)
include hdue hok

theorem symbolRuns_seed (hp : s.pos = .seed) : SymbolRuns c bytes s := by
  obtain ⟨⟨-, htail, -⟩, -, hlane⟩ : s.attrOk ∧ s.w.blk = 0 ∧ s.w.lane < s.e := by simpa only [State.callOk, hp] using hok
  have he : s.e ≤ tailSize s.e := le_max_right _ _
  rw [due_seed hp (by omega)] at hdue
  obtain ⟨rfl, rfl⟩ := Due.symbol.inj hdue
  exact ⟨_, _, rfl, _, rfl, by rw [if_pos hp]; rfl⟩

theorem symbolRuns_groupHeader (hp : s.pos = .groupHeader) : SymbolRuns c bytes s := by
  simp only [State.callOk, hp] at hok
  obtain ⟨-, -, -, -, hlt, hlen⟩ := hok
  rw [due_groupHeader hp (by omega)] at hdue
  obtain ⟨rfl, rfl⟩ := Due.symbol.inj hdue
  exact ⟨_, _, rfl, exec_ghdr_goesThrough _ _ _ _ s⟩

omit hok in
/-- R105's test leaves GROUP_MARGIN bytes. -/
theorem symbolRuns_group (hm : 24 ≤ s.par.groupMargin) (hp : s.pos = .group) : SymbolRuns c bytes s := by
  simp only [due, hp, truncatedIf_eq_symbol, Due.symbol.injEq] at hdue
  obtain ⟨hleft, rfl, rfl⟩ := hdue
  exact ⟨_, _, rfl, exec_decodeSel_goesThrough _ (by omega)⟩

/-- R122's test leaves the sixteen bytes of the table, and `CCUR ≤ T` leaves room for the triangle. -/
theorem symbolRuns_triangles (hp : s.pos = .triangles) : SymbolRuns c bytes s := by
  simp only [State.callOk, hp] at hok
  obtain ⟨-, hlen, h1, -, hidx, -⟩ := hok
  have hlen : 1 + s.t + 16 ≤ s.l := hlen
  have hts : s.tableStart = s.l - 16 := rfl
  have ht : s.t = s.n / 3 := rfl
  simp only [due, hp] at hdue
  split at hdue
  · next hlt =>
    obtain ⟨hd, hsym⟩ := truncatedIf_eq_symbol.1 hdue
    rw [State.window_one (by omega)] at hsym
    obtain ⟨rfl, rfl⟩ := Due.symbol.inj hsym
    exact ⟨_, _, rfl, exec_decodeTri_goesThrough _ _ (by omega) (Nat.mul_le_mul_right _ (by omega))⟩
  · cases hdue

omit hok in
/-- R153's test leaves five bytes. -/
theorem symbolRuns_sequence (hp : s.pos = .sequence) : SymbolRuns c bytes s := by
  have hse : s.safeEnd = s.l - 4 := rfl
  simp only [due, hp] at hdue
  split at hdue
  · next hlt =>
    obtain ⟨hd, hsym⟩ := truncatedIf_eq_symbol.1 hdue
    obtain ⟨rfl, rfl⟩ := Due.symbol.inj hsym
    obtain ⟨⟨v, rest⟩, hs⟩ :=
      splitVarint_some_of_length (k := 4) (bs := s.window s.w.dcur Config.varintMax) (by simp; omega)
    refine ⟨_, _, decode_seq_of_splitVarint hs, exec_seq_goesThrough v ?_⟩
    rw [← Nat.succ_mul]
    exact Nat.mul_le_mul_right _ hlt
  · cases hdue

/-- Every symbol past the header is there and goes through (R204). -/
theorem symbolRuns_of_due (hm : 24 ≤ s.par.groupMargin) (hc : c ≠ .header) : SymbolRuns c bytes s := by
  cases hp : s.pos with
  | seed => exact symbolRuns_seed hdue hok hp
  | groupHeader => exact symbolRuns_groupHeader hdue hok hp
  | group => exact symbolRuns_group hdue hm hp
  | triangles => exact symbolRuns_triangles hdue hok hp
  | sequence => exact symbolRuns_sequence hdue hp
  | header =>
    simp only [due, hp, truncatedIf_eq_symbol, Due.symbol.injEq] at hdue
    obtain ⟨-, hheader, -⟩ := hdue
    exact absurd hheader.symm hc
  | blockTop => simp only [due, hp] at hdue; split at hdue <;> cases hdue
  | runTop => simp [due, hp, truncatedIf_eq_symbol] at hdue
  | idle | planeEnd | blockEnd => simp [due, hp] at hdue

end Dues

end Sys2Proof.Machine

namespace Sys2Proof.Proofs

open Sys2Proof.Machine Sys2Proof.Claims

/-- Settles O59: at each position the lookahead test leaves as many bytes as the symbol can read. -/
theorem noReadPassesTheStream : Obligations.NoReadPassesTheStream := by
  rintro s c bytes - hok ⟨-, hb⟩ hm hdue hc
  obtain ⟨i, rest, hdec, t, hex, hbusy⟩ := symbolRuns_of_due hdue hok hm hc
  exact ⟨i, rest, t, hdec, hex, hbusy.trans hb⟩

end Sys2Proof.Proofs

/-! ## The size of a block, the lookahead tests, the selectors of a run -/

namespace Sys2Proof.Machine

open Sys2Proof.Claims

/-! ### The size of a block -/

/-- `blockSize` is the quotient `8192/E` cut at 256 and then down to a multiple of 16 (R161). -/
theorem blockSize_eq (e : Nat) : blockSize e = min (8192 / e) 256 / 16 * 16 := by
  simp only [blockSize, Config.blockBytes, Config.groupBytes, Config.blockMaxVerts]
  omega

/-- The vertices of a block fit TRANS, whatever their size. -/
theorem blockSize_mul_le (e : Nat) : blockSize e * e ≤ 8192 := by
  have hle : blockSize e ≤ 8192 / e := by rw [blockSize_eq]; omega
  exact (Nat.mul_le_mul_right _ hle).trans (Nat.div_mul_le_self _ _)

/-! ### The lookahead tests -/

/-- A lookahead test that holds ends the call. -/
theorem truncatedIf_of {p : Prop} [Decidable p] (h : p) (d : Due) : truncatedIf (decide p) d = .ends .truncated := by
  simp [truncatedIf, h]

/-- With no host move pending, a call whose end is due ends. -/
theorem step_of_due_ends {s : State} {st : Status} (hs : s.host = []) (hd : due s = .ends st) :
    step s = .next (s.endCall st) := by
  rw [step_of_host_nil hs, blockStep, hd]

section Lookahead

variable {s : State}

theorem due_header_short (hp : s.pos = .header) (h : s.l < s.leastLength) : due s = .ends .truncated := by
  simp only [due, hp, truncatedIf_of h]

theorem due_triangles_short (hp : s.pos = .triangles) (hlt : s.w.ccur < 1 + s.t) (h : s.tableStart < s.w.dcur) :
    due s = .ends .truncated := by
  simp only [due, hp, hlt, if_true, truncatedIf_of h]

theorem due_sequence_short (hp : s.pos = .sequence) (hlt : s.w.idx < s.n) (h : s.safeEnd ≤ s.w.dcur) :
    due s = .ends .truncated := by
  simp only [due, hp, hlt, if_true, truncatedIf_of h]

theorem due_runTop_short (hp : s.pos = .runTop) (h : s.l - s.w.dcur < s.headers) : due s = .ends .truncated := by
  simp only [due, hp, truncatedIf_of h]

theorem due_group_short (hp : s.pos = .group) (h : s.l - s.w.dcur < s.par.groupMargin) :
    due s = .ends .truncated := by
  simp only [due, hp, truncatedIf_of h]

theorem leastLength_attr (h : s.cfgMode = 0#2) : s.leastLength = 1 := by simp [State.leastLength, h]

theorem leastLength_tri (h : s.cfgMode = 1#2) : s.leastLength = 1 + s.n / 3 + 16 := by
  simp [State.leastLength, h, State.t]

theorem leastLength_seq (h : s.cfgMode = 2#2) : s.leastLength = 1 + s.n + 4 := by simp [State.leastLength, h]

end Lookahead

/-! ### The selectors of a run -/

/-- The selectors of the first `k` groups of the run are latched as R102 extracts them from the header bytes. -/
def LatchedBelow (k : Nat) (s : State) : Prop := ∀ g, g < k → g < 16 → s.w.sel.getD g 0 = selector s g

theorem selectorsOk_groupHeader {s : State} (hp : s.pos = .groupHeader) :
    selectorsOk s ↔ LatchedBelow (4 * (s.w.dcur - s.w.hcur)) s := by
  simp only [selectorsOk, hp, LatchedBelow]

/-- A run has at most sixteen groups. -/
theorem selectorsOk_group {s : State} (hp : s.pos = .group) : selectorsOk s ↔ LatchedBelow s.groups s := by
  obtain ⟨-, hgroups, -⟩ := bc_le s
  simp only [selectorsOk, hp, LatchedBelow]
  exact forall₂_congr fun g hg => ⟨fun h _ => h, fun h => h (by omega)⟩

/-- Outside a run's headers and groups there are no selectors to be latched. -/
theorem selectorsOk_of_pos_ne {s : State} (hh : s.pos ≠ .groupHeader) (hg : s.pos ≠ .group) : selectorsOk s := by
  unfold selectorsOk
  split
  · exact absurd ‹_› hh
  · exact absurd ‹_› hg
  · trivial

/-- The four selectors of a header byte, the first in its low bits (R67, R102). -/
theorem headerByte_selector (b : Byte) (g : Nat) :
    (if g % 4 = 0 then bits 0 2 b else if g % 4 = 1 then bits 2 2 b else if g % 4 = 2 then bits 4 2 b else bits 6 2 b) =
      bits (2 * (g % 4)) 2 b := by
  have hg : g % 4 < 4 := Nat.mod_lt _ (by omega)
  generalize g % 4 = r at hg
  interval_cases r <;> rfl

/-- The selectors of R102 are those of SRC and HCUR. -/
theorem selector_congr {s t : State} (hsrc : t.src = s.src) (hhcur : t.w.hcur = s.w.hcur) (g : Nat) :
    selector t g = selector s g := by
  simp only [selector, State.srcByte, hsrc, hhcur]

/-- A header byte of the run adds the selectors of its four groups to those that are latched. -/
theorem LatchedBelow.headerByte {s : State} {sel : Vector (BitVec 2) 16} (hle : s.w.hcur ≤ s.w.dcur)
    (hold : LatchedBelow (4 * (s.w.dcur - s.w.hcur)) s)
    (hsel : ∀ g, g < 16 → sel.getD g 0 =
      if g / 4 = s.w.dcur - s.w.hcur then bits (2 * (g % 4)) 2 (s.srcByte s.w.dcur) else s.w.sel.getD g 0) :
    LatchedBelow (4 * (s.w.dcur - s.w.hcur + 1)) (s.withW { s.w with sel := sel }) := by
  intro g hlt hg
  refine (hsel g hg).trans ?_
  split
  · next hnum =>
    have haddr : s.w.hcur + g / 4 = s.w.dcur := by omega
    simp only [selector, State.withW_w, State.withW_srcByte, haddr]
  · exact hold g (by omega) hg

/-- What is latched does not depend on DCUR, GRP and the position. -/
theorem LatchedBelow.of_eq {j k : Nat} {s t : State} (h : LatchedBelow j s) (hkj : k ≤ j) (hsel : t.w.sel = s.w.sel)
    (hsrc : t.src = s.src) (hhcur : t.w.hcur = s.w.hcur) : LatchedBelow k t := fun g hlt hg => by
  rw [hsel, selector_congr hsrc hhcur]
  exact h g (by omega) hg

section Steps

variable {s t : State} (hsel : selectorsOk s)
include hsel

/-- A header byte of a run is latched; after the last one every group's selector is (R101, R102). -/
theorem selectorsOk_groupHeader_step (hok : s.callOk) (hp : s.pos = .groupHeader) (h : blockStep s = .next t) :
    selectorsOk t := by
  simp only [State.callOk, hp] at hok
  obtain ⟨-, -, -, hle, hlt, hlen⟩ := hok
  have hstep := blockStep_eq_exec (due_groupHeader hp (by omega)) rfl
  obtain ⟨u, hu, hlatch, hmore, hlast⟩ := Proofs.ghdrLatchesSelectors _ _ _ _ s
  obtain rfl : t = u := Host.Outcome.next.inj (h.symm.trans (hstep.trans hu))
  have hnew := ((selectorsOk_groupHeader hp).1 hsel).headerByte hle fun g hg =>
    (hlatch g hg).trans (by rw [headerByte_selector])
  by_cases hm : s.w.dcur - s.w.hcur + 1 < s.headers
  · have ht := hmore hm
    rw [selectorsOk_groupHeader (by rw [ht]; exact hp)]
    refine hnew.of_eq ?_ rfl (by rw [ht]; rfl) (by rw [ht]; rfl)
    rw [ht]
    show 4 * (s.w.dcur + 1 - s.w.hcur) ≤ _
    omega
  · have ht := hlast (by omega)
    rw [selectorsOk_group (by rw [ht])]
    refine hnew.of_eq ?_ rfl (by rw [ht]; rfl) (by rw [ht]; rfl)
    rw [ht]
    show s.groups ≤ _
    have hheaders : s.headers = (s.groups + 3) / 4 := rfl
    omega

theorem selectorsOk_groupPassed (hp : s.pos = .group) (h : GroupPassed s t) : selectorsOk t := by
  obtain ⟨raw, k, x, -, rfl⟩ := h
  by_cases hmore : s.w.grp + 1 < s.groups
  · rw [selectorsOk_group (if_pos hmore)]
    exact ((selectorsOk_group hp).1 hsel).of_eq le_rfl rfl rfl rfl
  · exact selectorsOk_of_pos_ne (by simp [hmore]) (by simp [hmore])

end Steps

/-- A run begins with no header byte passed (R104). -/
theorem selectorsOk_beginRun (s : State) : selectorsOk s.beginRun := by
  rw [selectorsOk_groupHeader rfl]
  intro g hlt
  simp only [State.beginRun, Nat.sub_self, Nat.mul_zero] at hlt
  omega

/-- The header byte leads to the seed or to the loop of triangles or indices. -/
theorem HeaderPassed.pos {s t : State} (h : HeaderPassed s t) : t.pos = .seed ∨ t.pos = .triangles ∨ t.pos = .sequence := by
  rcases h with ⟨-, htail, rfl⟩ | ⟨-, -, v, rfl⟩ | ⟨-, -, v, rfl⟩
  · rw [beginAttributes, if_neg (Nat.not_lt.2 htail)]
    exact .inl rfl
  · exact .inr (.inl rfl)
  · exact .inr (.inr rfl)

theorem State.seedByte_pos (b : Byte) (s : State) : (s.seedByte b).pos = .seed ∨ (s.seedByte b).pos = .blockTop := by
  simp only [State.seedByte]
  split
  · exact .inl rfl
  · exact .inr rfl

theorem State.endPlane_pos (s : State) : s.endPlane.pos = .runTop ∨ s.endPlane.pos = .blockEnd := by
  simp only [State.endPlane]
  split
  · exact .inl rfl
  · exact .inr rfl

/-- A step that goes on with a call past another position than a header byte of a run. -/
theorem goesOn_selectorsOk {s t : State} (hok : s.callOk) (hsel : selectorsOk s) (hp : s.pos ≠ .groupHeader)
    (h : GoesOn s t) : selectorsOk t := by
  have hrest : t.pos ≠ .groupHeader ∧ t.pos ≠ .group → selectorsOk t := fun hne => selectorsOk_of_pos_ne hne.1 hne.2
  unfold GoesOn at h
  cases hpos : s.pos <;> simp only [hpos] at h
  case idle => exact h ▸ hsel
  case header => rcases h.pos with e | e | e <;> exact hrest (by simp [e])
  case seed => obtain ⟨b, rfl⟩ := h; rcases s.seedByte_pos b with e | e <;> exact hrest (by simp [e])
  case blockTop => obtain ⟨-, rfl⟩ := h; exact hrest (by simp [State.beginBlock])
  case runTop => obtain ⟨-, rfl⟩ := h; exact selectorsOk_beginRun s
  case groupHeader => exact absurd hpos hp
  case group => exact selectorsOk_groupPassed hsel hpos h
  case planeEnd => subst h; rcases s.endPlane_pos with e | e <;> exact hrest (by simp [e])
  case blockEnd =>
    obtain ⟨-, _, ht⟩ := h (idx_eq_blk_of_blockEnd hok hpos)
    exact hrest (by rw [ht]; simp)
  case triangles => obtain ⟨-, -, -, -, ht⟩ := h; exact hrest (by rw [ht]; simp [hpos])
  case sequence => obtain ⟨-, -, -, ht⟩ := h; exact hrest (by rw [ht]; simp [hpos])

/-- A step of the block that is not that of a run's header byte ends the call or goes on with it. -/
theorem blockStep_selectorsOk {s t : State} (hok : s.callOk) (hsel : selectorsOk s) (h : blockStep s = .next t) :
    selectorsOk t := by
  by_cases hp : s.pos = .groupHeader
  · exact selectorsOk_groupHeader_step hsel hok hp h
  · rcases blockStep_cases h with ⟨st, -, rfl⟩ | ⟨-, rfl⟩ | hgo
    · exact selectorsOk_of_pos_ne (by simp) (by simp)
    · exact selectorsOk_of_pos_ne (by simp) (by simp)
    · exact goesOn_selectorsOk hok hsel hp hgo

end Sys2Proof.Machine

namespace Sys2Proof.Proofs

open Sys2Proof.Machine Sys2Proof.Claims

/-- Settles O39: each header byte of a run latches its four selectors, and no other step touches the latch, SRC or HCUR
before the run's groups are through. -/
theorem selectorsAreTheHeaderBytes : Obligations.SelectorsAreTheHeaderBytes :=
  fun _ _ _ hok ⟨hs, _⟩ hsel h => blockStep_selectorsOk hok hsel ((step_of_host_nil hs).symm.trans h)

/-- Settles O44: a legal vertex size divides into 8192 at least 32 times; the rest is the definition of the counts. -/
theorem blockSizeFitsScratch : Obligations.BlockSizeFitsScratch := by
  refine ⟨fun e _ h4 h256 => ?_, fun s => ⟨rfl, rfl, rfl⟩⟩
  have h32 : 32 ≤ 8192 / e := (Nat.le_div_iff_mul_le (by omega)).2 (by omega)
  have hmul := blockSize_mul_le e
  rw [blockSize_eq] at hmul ⊢
  exact ⟨by omega, by omega, by omega, by omega, hmul⟩

/-- Settles O47: each lookahead test, where it fails, makes the end of the call due. -/
theorem lookaheadTestsTruncate : Obligations.LookaheadTestsTruncate := by
  refine fun s hs => ⟨fun hp hm h => ?_, fun hp hm h => ?_, fun hp hm h => ?_, fun hp hlt h => ?_, fun hp hlt h => ?_,
    fun hp h => ?_, fun hp h => ?_⟩ <;> apply step_of_due_ends hs
  · exact due_header_short hp (by rwa [leastLength_attr hm])
  · exact due_header_short hp (by rwa [leastLength_tri hm])
  · exact due_header_short hp (by rwa [leastLength_seq hm])
  · exact due_triangles_short hp hlt h
  · exact due_sequence_short hp hlt h
  · exact due_runTop_short hp h
  · exact due_group_short hp h

end Sys2Proof.Proofs

/-! ## The byte groups, lane by lane -/

namespace Sys2Proof.Machine

open Sys2Proof.Claims

/-! ### The codes of a group, one after another -/

theorem codeLanes_part (codes : List (Byte × Bool)) (s : State) : LanePart (codeLanes codes s) s := by
  induction codes generalizing s with
  | nil => exact .inl ⟨s.w.raw, 0, s.w.ext, le_rfl, .inl rfl, rfl⟩
  | cons c r ih => exact (codeLane_part c.2 c.1 s).bind ih

theorem codeLanes_append (xs ys : List (Byte × Bool)) (s : State) :
    codeLanes (xs ++ ys) s = (codeLanes xs s).bind fun _ t => codeLanes ys t := by
  induction xs generalizing s with
  | nil => rfl
  | cons c r ih =>
    simp only [List.cons_append, codeLanes]
    cases codeLane c.2 c.1 s with
    | val _ t => exact ih t
    | stop o => rfl

theorem repeatRun_eq_codeLanes (sent : Bool) (v : Byte) (k : Nat) (s : State) :
    repeatRun (codeLane sent v) k s = codeLanes (List.replicate k (v, sent)) s := by
  induction k generalizing s with
  | zero => rfl
  | succ k ih => simp only [repeatRun, List.replicate_succ, codeLanes, ih]

/-- Control bytes that are all in the stream fill the lanes of their codes in order; that the extension bytes are read in
between makes no difference (R113). -/
theorem controlBytes_eq_codeLanes {f : Byte → State → Run Unit} {codes : Byte → List (Byte × Bool)}
    (hf : ∀ b t, f b t = codeLanes (codes b) t) {k a : Nat} {s : State} (h : a + k ≤ s.l) :
    controlBytes f k a s = codeLanes ((streamBytes s a (a + k)).flatMap codes) s := by
  induction k generalizing a s with
  | zero => simp [controlBytes, codeLanes]
  | succ k ih =>
    rw [controlBytes, memRead_of_lt (by omega), Run.bind_val, hf, streamBytes_cons (by omega), List.flatMap_cons,
      codeLanes_append]
    rcases codeLanes_part (codes (s.srcByte a)) s with ⟨raw, j, x, -, -, e⟩ | e
    · have hrest : a + (k + 1) = a + 1 + k := by omega
      rw [e, Run.bind_val, Run.bind_val, hrest]
      exact ih (by rw [State.withW_l]; omega)
    · rw [e]; rfl

/-- Sixteen lanes, each its value and whether it takes the sentinel. -/
def laneCodes (code : Nat → Byte × Bool) : List (Byte × Bool) := (List.range 16).map code

@[simp] theorem laneCodes_length (code : Nat → Byte × Bool) : (laneCodes code).length = 16 := by simp [laneCodes]

theorem laneCodes_getD (code : Nat → Byte × Bool) {i : Nat} (h : i < 16) : (laneCodes code).getD i (0#8, false) = code i := by
  simp [laneCodes, h]

theorem countBefore_congr {p q : Nat → Bool} {n : Nat} (h : ∀ i, i < n → p i = q i) : countBefore p n = countBefore q n := by
  induction n with
  | zero => rfl
  | succ n ih => rw [countBefore, countBefore, ih fun i hi => h i (by omega), h n (by omega)]

/-- The sentinels among the first `n` lanes of a group (R113). -/
def groupSentinels (code : Nat → Byte × Bool) (n : Nat) : Nat := countBefore (fun i => (code i).2) n

theorem sentinelsBefore_laneCodes (code : Nat → Byte × Bool) {n : Nat} (h : n ≤ 16) :
    sentinelsBefore (laneCodes code) n = groupSentinels code n :=
  countBefore_congr fun i hi => by rw [laneCodes_getD code (by omega)]

/-- The lane view of R113: lane `i` of a group with `ctl` control bytes takes its code, or extension byte number "count of
sentinel codes in lanes 0..i-1". -/
def groupLane (s : State) (ctl : Nat) (code : Nat → Byte × Bool) (i : Nat) : Byte :=
  if (code i).2 then s.srcByte (s.w.dcur + ctl + groupSentinels code i) else (code i).1

theorem laneByte_laneCodes (s : State) (ctl : Nat) (code : Nat → Byte × Bool) {i : Nat} (h : i < 16) :
    laneByte (s.withW (s.w.beginGroup ctl)) (laneCodes code) i = groupLane s ctl code i := by
  simp only [laneByte, laneCodes_getD code h, sentinelsBefore_laneCodes code (by omega : i ≤ 16)]; rfl

/-! ### A group -/

/-- The bytes of a group, its `ctl` control bytes and its extension bytes, are in the stream, and it is done lane by lane; or
they are not, and the call ends with Truncated. -/
def GroupOutcome (s : State) (o : Res) (ctl : Nat) (code : Nat → Byte × Bool) : Prop :=
  (s.w.grp < 16 → groupSentinels code 16 = 0 ∨ s.w.dcur + ctl + groupSentinels code 16 ≤ s.l →
    ∃ t, o = .next t ∧ GroupDone s t (groupLane s ctl code) (ctl + groupSentinels code 16)) ∧
  (groupSentinels code 16 ≠ 0 → s.l < s.w.dcur + ctl + groupSentinels code 16 → o = .next (s.endCall .truncated))

/-- A group stops where its lanes stop. -/
theorem groupOf_of_stop {ctl : Nat} {lanes : State → Run Unit} {s : State} {o : Res}
    (h : lanes (s.withW (s.w.beginGroup ctl)) = .stop o) : groupOf ctl lanes s = o := by
  rw [groupOf, h]; rfl

theorem groupOf_of_val {ctl : Nat} {lanes : State → Run Unit} {s t : State}
    (h : lanes (s.withW (s.w.beginGroup ctl)) = .val () t) : groupOf ctl lanes s = .next t.endGroup := by
  rw [groupOf, h]; rfl

/-- A group whose lanes are those of sixteen codes. -/
theorem groupOf_outcome {ctl : Nat} {lanes : State → Run Unit} {code : Nat → Byte × Bool} {s : State}
    (h : lanes (s.withW (s.w.beginGroup ctl)) = codeLanes (laneCodes code) (s.withW (s.w.beginGroup ctl))) :
    GroupOutcome s (groupOf ctl lanes s) ctl code := by
  obtain ⟨hgo, hend⟩ := codesTaken_iff.1 (codesTaken_codeLanes (laneCodes code) (s.withW (s.w.beginGroup ctl)))
  simp only [laneCodes_length, sentinelsBefore_laneCodes code le_rfl, State.withW_w, State.withW_l, Work.beginGroup_grp,
    Work.beginGroup_lane, Work.beginGroup_ext, Work.beginGroup_raw, State.endCall_withW, Nat.add_zero] at hgo hend
  rw [← h] at hgo hend
  rcases codeLanes_part (laneCodes code) (s.withW (s.w.beginGroup ctl)) with ⟨raw, k, x, -, -, e⟩ | e <;> rw [← h] at e
  · rw [GroupOutcome, groupOf_of_val e]
    rw [e, Run.finish_val] at hgo hend
    refine ⟨fun hg hused => ?_, fun hne hlt => ?_⟩
    · obtain ⟨t, ht, hlanes, hframe, hrest⟩ := hgo (by omega) hused
      obtain rfl := Host.Outcome.next.inj ht
      refine ⟨_, rfl, fun i hi => ?_, hframe, ?_⟩
      · rw [← laneByte_laneCodes s ctl code hi]; exact hlanes i hi
      · rw [hrest, ← Nat.add_assoc]; rfl
    · have hdrops := congrArg State.drops (Host.Outcome.next.inj (hend hne hlt))
      simp at hdrops
  · rw [GroupOutcome, groupOf_of_stop e]
    rw [e, Run.finish_stop] at hgo hend
    refine ⟨fun hg hused => ?_, hend⟩
    obtain ⟨t, ht, -, -, hrest⟩ := hgo (by omega) hused
    rw [← Host.Outcome.next.inj ht] at hrest
    have hdrops := congrArg State.drops hrest
    simp at hdrops

/-- Where a control byte is not in the stream, the call ends with Truncated. -/
theorem groupOf_controlBytes_short {ctl : Nat} {f : Byte → State → Run Unit} (hf : ∀ b t, LanePart (f b t) t) {s : State}
    (h : s.l < s.w.dcur + ctl) (hctl : 0 < ctl) :
    groupOf ctl (controlBytes f ctl s.w.dcur) s = .next (s.endCall .truncated) := by
  rcases controlBytes_part hf ctl s.w.dcur (s.withW (s.w.beginGroup ctl)) with ⟨raw, k, x, -, -, e⟩ | e
  · rcases controlBytes_bound hf e with h0 | hle
    · omega
    · rw [State.withW_l] at hle; omega
  · exact groupOf_of_stop e

/-- A group with control bytes, from the first of them to the last extension byte (R109, R110). -/
theorem groupOf_controlBytes_outcome {ctl : Nat} {f : Byte → State → Run Unit} {codes : Byte → List (Byte × Bool)}
    {code : Nat → Byte × Bool} {s : State} (hctl : 0 < ctl) (hf : ∀ b t, f b t = codeLanes (codes b) t)
    (hcodes : (streamBytes s s.w.dcur (s.w.dcur + ctl)).flatMap codes = laneCodes code) :
    (s.w.grp < 16 → s.w.dcur + (ctl + groupSentinels code 16) ≤ s.l →
      ∃ t, groupOf ctl (controlBytes f ctl s.w.dcur) s = .next t ∧
        GroupDone s t (groupLane s ctl code) (ctl + groupSentinels code 16)) ∧
    (s.l < s.w.dcur + (ctl + groupSentinels code 16) →
      groupOf ctl (controlBytes f ctl s.w.dcur) s = .next (s.endCall .truncated)) := by
  by_cases hshort : s.l < s.w.dcur + ctl
  · exact ⟨fun _ hle => by omega,
      fun _ => groupOf_controlBytes_short (fun b t => by rw [hf]; exact codeLanes_part _ t) hshort hctl⟩
  · obtain ⟨hdone, hend⟩ := groupOf_outcome (lanes := controlBytes f ctl s.w.dcur) (code := code) (s := s) (ctl := ctl) <| by
      rw [controlBytes_eq_codeLanes hf (by rw [State.withW_l]; omega), ← hcodes]; rfl
    exact ⟨fun hg hle => hdone hg (.inr (by omega)), fun hlt => hend (by omega) (by omega)⟩

/-! ### The codes of the control bytes -/

/-- The codes of a C2 byte, the first in its high bits (R68). -/
def c2Codes (b : Byte) : List (Byte × Bool) :=
  [bits 6 2 b, bits 4 2 b, bits 2 2 b, bits 0 2 b].map fun c => (c.setWidth 8, c == 3#2)

/-- The codes of a C4 byte, the first in its high bits (R69). -/
def c4Codes (b : Byte) : List (Byte × Bool) :=
  [bits 4 4 b, bits 0 4 b].map fun c => (c.setWidth 8, c == 15#4)

/-- The four control bytes of a width-2 group hold the codes of its lanes (R68, R109). -/
theorem flatMap_c2Codes (s : State) : (streamBytes s s.w.dcur (s.w.dcur + 4)).flatMap c2Codes =
    laneCodes fun i => ((code2 s i).setWidth 8, sentinel2 s i) := by
  rw [streamBytes, Nat.add_sub_cancel_left]; rfl

/-- The eight control bytes of a width-4 group hold the codes of its lanes (R69, R110). -/
theorem flatMap_c4Codes (s : State) : (streamBytes s s.w.dcur (s.w.dcur + 8)).flatMap c4Codes =
    laneCodes fun i => ((code4 s i).setWidth 8, sentinel4 s i) := by
  rw [streamBytes, Nat.add_sub_cancel_left]; rfl

/-! ### Groups whose lanes all take one code -/

theorem groupSentinels_none (v : Byte) (n : Nat) : groupSentinels (fun _ => (v, false)) n = 0 := by
  induction n with
  | zero => rfl
  | succ n ih => exact ih

theorem groupSentinels_all (v : Byte) (n : Nat) : groupSentinels (fun _ => (v, true)) n = n := by
  induction n with
  | zero => rfl
  | succ n ih => exact congrArg (· + 1) ih

/-- Lanes that all take the sentinel take the bytes after the control bytes in stream order. -/
theorem groupLane_all (s : State) (ctl : Nat) (v : Byte) :
    groupLane s ctl (fun _ => (v, true)) = fun i => s.srcByte (s.w.dcur + ctl + i) :=
  funext fun i => by simp only [groupLane, groupSentinels_all, if_true]

theorem groupLane_none (s : State) (ctl : Nat) (v : Byte) : groupLane s ctl (fun _ => (v, false)) = fun _ => v := rfl

/-- The lanes of a group without control bytes, each given the one code (R106, R107). -/
theorem groupOf_repeatRun_outcome (sent : Bool) (v : Byte) (s : State) :
    GroupOutcome s (groupOf 0 (repeatRun (codeLane sent v) 16) s) 0 fun _ => (v, sent) :=
  groupOf_outcome (repeatRun_eq_codeLanes sent v 16 _)

end Sys2Proof.Machine

namespace Sys2Proof.Proofs

open Sys2Proof.Machine Sys2Proof.Claims

/-- Settles O40: sixteen lanes that take 0, and sixteen that take the bytes from DCUR on. -/
theorem groupsW0AndW8 : Obligations.GroupsW0AndW8 := by
  intro s
  obtain ⟨hzeros, -⟩ := groupOf_repeatRun_outcome false 0#8 s
  obtain ⟨hverbatim, hshort⟩ := groupOf_repeatRun_outcome true 0#8 s
  rw [groupSentinels_none, groupLane_none] at hzeros
  rw [groupSentinels_all, groupLane_all] at hverbatim
  rw [groupSentinels_all] at hshort
  exact ⟨fun hg => hzeros hg (.inl rfl), fun hg hle => hverbatim hg (.inr hle), hshort (by omega)⟩

/-- Settles O41: the control bytes hold the codes of sixteen lanes, which are taken one after another. -/
theorem groupsW2AndW4 : Obligations.GroupsW2AndW4 := by
  intro s
  obtain ⟨hdone2, hshort2⟩ := groupOf_controlBytes_outcome (by decide)
    (fun b t => c2Lanes_eq_codeLanes (bits 6 2 b) (bits 4 2 b) (bits 2 2 b) (bits 0 2 b) t) (flatMap_c2Codes s)
  obtain ⟨hdone4, hshort4⟩ := groupOf_controlBytes_outcome (by decide)
    (fun b t => c4Lanes_eq_codeLanes (bits 4 4 b) (bits 0 4 b) t) (flatMap_c4Codes s)
  exact ⟨hdone2, hshort2, hdone4, hshort4⟩

end Sys2Proof.Proofs

/-! ## Triangles: the edge-continue path, the codeAux bytes, the start; and the end of every decode -/

namespace Sys2Proof.Machine

open Sys2Proof.Claims

/-- A part that stops ends the meaning it stands in with its outcome (R200). -/
theorem Run.finish_bind_of_stop {α β : Type} {r : Run α} {o : Res} (h : r = .stop o) (f : α → State → Run β) :
    (r.bind f).finish = o := by
  rw [h, Run.bind_stop, Run.finish_stop]

/-! ### Edge-continue triangles -/

/-- The pushes of an edge-continue triangle (R126), and that they change the two FIFOs and nothing else. -/
theorem pushContinue_cases (a b c : Word) (hit : Bool) (w : Work) : ∃ f o ea eb eo,
    ((w.pushVertexUnless hit c).pushEdge c b).pushEdge a c =
      { w with vf := f, voff := o, efA := ea, efB := eb, eoff := eo } ∧
    Pushed w.vf f w.voff o (if hit then [] else [c]) ∧ Pushed w.efA ea w.eoff eo [c, a] ∧
    Pushed w.efB eb w.eoff eo [b, c] := by
  have hpush : ∀ (e : Vector Word 16) (x y : Word),
      Pushed e (setSlot16 (setSlot16 e w.eoff x) (w.eoff + 1#4) y) w.eoff (w.eoff + 1#4 + 1#4) [x, y] := fun e x y =>
    pushed_push (pushed_push (pushed_nil e w.eoff) (by simp) x) (by simp) y
  cases hit with
  | true => exact ⟨_, _, _, _, _, rfl, pushed_nil w.vf w.voff, hpush w.efA c a, hpush w.efB b c⟩
  | false =>
    exact ⟨_, _, _, _, _, rfl, pushed_push (pushed_nil w.vf w.voff) (by simp) c, hpush w.efA c a, hpush w.efB b c⟩

/-- The end of an edge-continue triangle where DST has room: it is emitted and pushed, and no other register moves. -/
theorem finishEdge_of_room {u : State} (a b c : Word) (hit : Bool) (hroom : RoomForTriangle u) :
    ∃ d i f o ea eb eo, let t : State :=
        { u with dst := d, w := { u.w with idx := i, vf := f, voff := o, efA := ea, efB := eb, eoff := eo } }
      finishEdge a b c hit u = .val () t ∧ TriangleDone u t a b c (if hit then [] else [c]) [(c, b), (a, c)] := by
  obtain ⟨t, he, hwritten, ht⟩ := emit_of_room a b c hroom
  obtain ⟨f, o, ea, eb, eo, hpush, hv, hea, heb⟩ := pushContinue_cases a b c hit { u.w with idx := u.w.idx + 3 }
  refine ⟨t.dst, u.w.idx + 3, f, o, ea, eb, eo, ?_, hwritten, hv, hea, heb, rfl, rfl⟩
  rw [finishEdge, he, Run.bind_val, ht]
  exact congrArg (fun w => Run.val () (State.withW { u with dst := t.dst } w)) hpush

/-- Once the third vertex is resolved, with NEXT, LAST and DCUR those of `p` by then, the triangle is written and pushed
(R126 to R128). -/
theorem edgeTriangle_done {fe : Nibble} {hit : Bool} {third : State → Run Word} {s : State} {c : Word} {p : Pass} {r : Word}
    {k : Nat} (hthird : third (s.withW s.w.passControl) = .val c ((s.withW s.w.passControl).atPass p r k))
    (hroom : RoomForTriangle s) :
    ∃ t, (edgeTriangle fe hit third s).finish = .next t ∧ EdgeDone s t fe c hit ∧ t.w.next = p.next ∧
      t.w.last = p.last ∧ t.w.dcur = p.dcur ∧ t.w.vres = r ∧ t.w.vcnt = k := by
  obtain ⟨d, i, f, o, ea, eb, eo, hfinish, hdone⟩ :=
    finishEdge_of_room (u := (s.withW s.w.passControl).atPass p r k) (slot16 s.w.efA (edgeSlot s.w.eoff fe))
      (slot16 s.w.efB (edgeSlot s.w.eoff fe)) c hit hroom
  refine ⟨_, ?_, ⟨hdone, rfl, rfl, rfl⟩, rfl, rfl, rfl, rfl, rfl⟩
  rw [edgeTriangle, hthird, Run.bind_val, hfinish]
  rfl

/-- `13 - (13 ^ 3)` is -1 (R127). -/
theorem add_shortDelta_dec (x : Word) : x + shortDelta 13#4 = x - 1#32 := by
  rw [show shortDelta 13#4 = -1#32 by decide, BitVec.sub_eq_add_neg]

/-- `14 - (14 ^ 3)` is 1 (R127). -/
theorem add_shortDelta_inc (x : Word) : x + shortDelta 14#4 = x + 1#32 := by
  rw [show shortDelta 14#4 = 1#32 by decide]

/-- The third vertex is LAST moved by a delta, and LAST becomes it (R127). -/
theorem edgeTriangle_moveLast {fe : Nibble} {s : State} {delta x : Word} (hx : s.w.last + delta = x)
    (hroom : RoomForTriangle s) :
    ∃ t, (edgeTriangle fe false (moveLast delta) s).finish = .next t ∧ EdgeDone s t fe x false ∧ t.w.last = x ∧
      t.w.next = s.w.next ∧ t.w.dcur = s.w.dcur ∧ t.w.vres = s.w.vres ∧ t.w.vcnt = s.w.vcnt := by
  subst hx
  obtain ⟨t, hrun, hdone, hnext, hlast, hrest⟩ := edgeTriangle_done (fe := fe) (hit := false) (third := moveLast delta)
    (p := ⟨s.w.next, s.w.last + delta, s.w.dcur⟩) (r := s.w.vres) (k := s.w.vcnt) rfl hroom
  exact ⟨t, hrun, hdone, hlast, hnext, hrest⟩

/-! ### New triangles -/

/-- What the outcome of a new triangle meets may be weakened. -/
theorem newTriangle_mono {s : State} {fea feb fec : Nibble} {p : Pass} {o : Res} {q q' : State → Prop}
    (h : NewTriangle s fea feb fec p o q) (hq : ∀ t, q t → q' t) : NewTriangle s fea feb fec p o q' := by
  unfold NewTriangle at h ⊢
  cases hp : passAll s fea feb fec p with
  | none => simpa [hp] using h
  | some x =>
    obtain ⟨a, b, c, p'⟩ := x
    simp only [hp] at h ⊢
    intro hroom
    obtain ⟨t, ho, hdone, hnext, hlast, hdcur, ht⟩ := h hroom
    exact ⟨t, ho, hdone, hnext, hlast, hdcur, hq t ht⟩

/-- `s` after the control byte of a new triangle: the byte is passed, `fea` and the place of the codeAux byte stand
(R131, R136, R137). -/
def State.atCodeAux (s : State) (fea : Nibble) (auxPay : Bool) : State :=
  { s with w := { s.w with ccur := s.w.ccur + 1, fea := fea, auxPay := auxPay } }

/-- The registers that a control byte sets are among those that a triangle may write, and no vertex depends on them. -/
theorem newTriangle_atCodeAux {s : State} {f : Nibble} {pay : Bool} {fea feb fec : Nibble} {p : Pass} {o : Res}
    {q : State → Prop} (h : NewTriangle (s.atCodeAux f pay) fea feb fec p o q) : NewTriangle s fea feb fec p o q := h

/-- What follows the restart marker: the byte is passed, and the vertices are resolved from NEXT = 0 (R132). -/
theorem exec_cauxRestart_newTriangle (s : State) :
    NewTriangle s s.w.fea 0#4 0#4 ⟨0#32, s.w.last, s.w.dcur + 1⟩ (exec .cauxRestart s)
      (fun t => t.w.ccur = s.w.ccur ∧ t.w.fea = s.w.fea ∧ t.w.auxPay = s.w.auxPay) :=
  newTriangle_atPass s 0#4 0#4 ⟨0#32, s.w.last, s.w.dcur + 1⟩ s.w.vres s.w.vcnt

/-- Three fresh vertices (R133). -/
theorem passAll_fresh (s : State) (p : Pass) : passAll s 0#4 0#4 0#4 p =
    some ((p.next, false), (p.next + 1#32, false), (p.next + 1#32 + 1#32, false),
      { p with next := p.next + 1#32 + 1#32 + 1#32 }) := rfl

/-- The codeAux byte of a control byte 0xFE or 0xFF, the restart marker or any other: NEXT is 0 where it is the marker,
and the byte is passed (R132). -/
theorem exec_payloadSymbol_newTriangle (fea : Nibble) (aux : Byte) (s : State) :
    NewTriangle s fea (bits 4 4 aux) (bits 0 4 aux) ⟨if aux = 0#8 then 0#32 else s.w.next, s.w.last, s.w.dcur + 1⟩
      (exec (if aux = 0#8 then .cauxRestart else .caux (bits 4 4 aux) (bits 0 4 aux)) (s.atCodeAux fea true))
      (fun t => t.w.ccur = s.w.ccur + 1) := by
  by_cases h0 : aux = 0#8
  · subst h0
    exact newTriangle_atCodeAux
      (newTriangle_mono (exec_cauxRestart_newTriangle (s.atCodeAux fea true)) fun _ ⟨hccur, _⟩ => hccur)
  · simp only [if_neg h0]
    exact newTriangle_atCodeAux
      (newTriangle_mono (Proofs.cauxResolvesInOnePass (bits 4 4 aux) (bits 0 4 aux) (s.atCodeAux fea true))
        fun _ ⟨hccur, _⟩ => hccur)

/-- A codeAux byte that the stream does not hold ends the call (R46). -/
theorem newFromPayload_of_le (fea : Nibble) {s : State} (h : s.l ≤ s.w.dcur) :
    (newFromPayload fea s).finish = .next (s.endCall .truncated) :=
  Run.finish_bind_of_stop (memRead_of_le (s := s.atCodeAux fea true) h) _

/-! ### The start of a triangle decode -/

theorem slot16_replicate {α : Type} (x : α) (i : Nibble) : slot16 (Vector.replicate 16 x) i = x := by simp [slot16]

/-- A header symbol in the mode it belongs to starts the decode (R177). -/
theorem headerFor_of_mode {mode : BitVec 2} {s : State} (go : State → State) (h : s.cfgMode = mode) :
    headerFor mode s go = .next (go s) := if_pos h

/-! ### The final cursor tests -/

theorem finalTest_eq (x y : Nat) : finalTest (x == y) = .ends (if x = y then .ok else .trailingMismatch) := by
  simp [finalTest]

section FinalTests

variable {s : State}

theorem due_triangles_last (hp : s.pos = .triangles) (h : 1 + s.t ≤ s.w.ccur) :
    due s = finalTest (s.w.dcur == s.tableStart) := by
  simp only [due, hp, if_neg (Nat.not_lt.2 h)]

theorem due_sequence_last (hp : s.pos = .sequence) (h : s.n ≤ s.w.idx) :
    due s = finalTest (s.w.dcur == s.safeEnd) := by
  simp only [due, hp, if_neg (Nat.not_lt.2 h)]

theorem due_blockTop_last (hp : s.pos = .blockTop) (h : s.n ≤ s.w.blk) :
    due s = finalTest (s.l - s.w.dcur == tailSize s.e) := by
  simp only [due, hp, if_neg (Nat.not_lt.2 h)]

end FinalTests

end Sys2Proof.Machine

namespace Sys2Proof.Proofs

open Sys2Proof.Machine Sys2Proof.Claims

/-- Settles O29: the third vertex is NEXT, or the slot that the VertexFifo holds. -/
theorem triEdgeNextAndFifoTriangle : Obligations.TriEdgeNextAndFifoTriangle := fun _ s hroom =>
  ⟨edgeTriangle_done (p := ⟨s.w.next + 1#32, s.w.last, s.w.dcur⟩) (r := s.w.vres) (k := s.w.vcnt) rfl hroom,
    fun _ => edgeTriangle_done (p := ⟨s.w.next, s.w.last, s.w.dcur⟩) (r := s.w.vres) (k := s.w.vcnt) rfl hroom⟩

/-- Settles O30: the short delta of `fec` 13 is -1, that of 14 is 1. -/
theorem triEdgeDecIncTriangle : Obligations.TriEdgeDecIncTriangle := fun _ _ hroom =>
  ⟨edgeTriangle_moveLast (add_shortDelta_dec _) hroom, edgeTriangle_moveLast (add_shortDelta_inc _) hroom⟩

/-- Settles O31: the free index at DCUR is what VByte's pseudocode reads there. -/
theorem triEdgeFreeTriangle : Obligations.TriEdgeFreeTriangle := by
  refine fun fe s => ⟨fun v d h hroom => ?_, fun h => ?_⟩
  · obtain ⟨t, hrun, hdone, hnext, hlast, hdcur, -, -⟩ := edgeTriangle_done (fe := fe) (hit := false)
      (p := ⟨s.w.next, s.w.last + unzigzag32 v, d⟩) (decodeIndex_of_vbyte (s := s.withW s.w.passControl) h) hroom
    exact ⟨t, hrun, hdone, hlast, hnext, hdcur⟩
  · exact Run.finish_bind_of_stop (decodeIndex_of_vbyte_none (s := s.withW s.w.passControl) h) _

/-- Settles O32: the table entry is run as a codeAux byte for which no payload is passed. -/
theorem triNewTableTriangle : Obligations.TriNewTableTriangle := by
  intro j s hj
  have hrun := (newTriangleRunsItsCodeAux s j).2 hj
  dsimp only at hrun ⊢
  rw [hrun]
  exact newTriangle_atCodeAux
    (newTriangle_mono (cauxResolvesInOnePass _ _ (s.atCodeAux 0#4 false)) fun _ ⟨hccur, _⟩ => hccur)

/-- Settles O33: the byte at DCUR is run as the codeAux symbol that it is there. -/
theorem triNewByteTriangle : Obligations.TriNewByteTriangle := by
  refine fun s => ⟨fun hlt => ?_, fun hle => ⟨newFromPayload_of_le 0#4 hle, newFromPayload_of_le 15#4 hle⟩⟩
  obtain ⟨hbyte0, hbyte15⟩ := (newTriangleRunsItsCodeAux s 0#4).1 hlt
  dsimp only at hbyte0 hbyte15 ⊢
  rw [hbyte0, hbyte15]
  exact ⟨exec_payloadSymbol_newTriangle 0#4 _ s, exec_payloadSymbol_newTriangle 15#4 _ s⟩

/-- Settles O35: after the restart every code 0 takes a fresh vertex from 0 on. -/
theorem restartResetsNext : Obligations.RestartResetsNext := by
  refine fun s => ⟨exec_cauxRestart_newTriangle s, fun hfea hroom => ?_⟩
  have h := exec_cauxRestart_newTriangle s
  rw [hfea, NewTriangle, passAll_fresh] at h
  obtain ⟨t, hrun, ⟨hwritten, -⟩, hnext, hlast, -⟩ := h hroom
  exact ⟨t, hrun, hwritten, hnext, hlast⟩

/-- Settles O20: the header of the mode starts the decode, every FIFO slot at its initial value. -/
theorem hdrTriBeginsDecode : Obligations.HdrTriBeginsDecode := by
  intro v s hmode
  have hver : (v.setWidth 4).toNat = v.toNat := BitVec.toNat_setWidth_of_le (by decide)
  exact ⟨beginTriangles v s, headerFor_of_mode (beginTriangles v) hmode, rfl, rfl, rfl, rfl, rfl, rfl, rfl, rfl,
    fun i => ⟨slot16_replicate _ i, slot16_replicate _ i, slot16_replicate _ i⟩, hver, rfl, rfl⟩

/-- Settles O48: past the last element the final test of the mode is due. -/
theorem finalCursorTests : Obligations.FinalCursorTests := by
  refine fun s hs => ⟨fun hp h => ?_, fun hp h => ?_, fun hp h => ?_⟩
  · exact step_of_due_ends hs ((due_triangles_last hp h).trans (finalTest_eq _ _))
  · exact step_of_due_ends hs ((due_sequence_last hp h).trans (finalTest_eq _ _))
  · exact step_of_due_ends hs ((due_blockTop_last hp h).trans (finalTest_eq _ _))

end Sys2Proof.Proofs

/-! ## Index sequences, the start of an attribute decode and of a sequence decode -/

namespace Sys2Proof.Machine

open Sys2Proof.Claims

/-! ### Index sequences -/

/-- The delta of a sequence symbol is the zigzag of a half, so it lies in a quarter of the signed range (R152). -/
theorem seqDelta_range (v : Word) : -(2 ^ 30) ≤ (seqDelta v).toInt ∧ (seqDelta v).toInt < 2 ^ 30 := by
  have hhalf : (v >>> 1).toNat < 2 ^ 31 := by
    rw [BitVec.toNat_ushiftRight, Nat.shiftRight_one]; omega
  rw [seqDelta, toInt_unzigzag32]
  split_ifs <;> omega

/-- The registers after the varint at DCUR and the predictor's move (R90, R152). -/
theorem seqIndex_of_vbyte {s : State} {v : Word} {d : Nat} (h : vbyte s s.w.dcur = some (v, d)) :
    (s.w.varint (streamBytes s s.w.dcur d)).seqIndex = { s.w with
      dcur := d, vres := v, vcnt := 0
      seqlast := setSlot2 s.w.seqlast (seqSlot v) (slot2 s.w.seqlast (seqSlot v) + seqDelta v) } := by
  obtain ⟨-, hvarint⟩ := varint_of_vbyte h
  rw [hvarint]
  rfl

/-- SEQ where DST has room: the slot of the varint's value, moved, is the element written at IDX (R152). -/
theorem execSeq_of_room {bs : List Byte} {w : Work} {s : State} (hw : (s.w.varint bs).seqIndex = w)
    (hroom : (s.w.idx + 1) * s.e ≤ s.n * s.e) :
    ∃ t, execSeq bs s = .next t ∧ Written s t [slot2 w.seqlast (seqSlot w.vres)] ∧
      t = { s with dst := t.dst, w := { w with idx := w.idx + 1 } } := by
  have hfit : s.w.idx * s.e + s.e ≤ s.n * s.e := by rwa [← Nat.succ_mul]
  rw [execSeq, hw, memWrite_of_le (by simpa using hfit), Run.bind_val]
  exact ⟨_, rfl, written_write (vs := []) (written_nil (s := s) rfl) rfl, rfl⟩

/-! ### The headers -/

section Tail

variable {s : State}

theorem beginAttributes_of_tail (h : tailSize s.e ≤ s.l - 1) : beginAttributes s =
    { s with pos := .seed, w := { s.w with ver := 0#4, dcur := 1, idx := 0, blk := 0, lane := 0 } } :=
  if_neg (Nat.not_lt.2 h)

theorem beginAttributes_short (h : s.l - 1 < tailSize s.e) : beginAttributes s = s.endCall .truncated := if_pos h

end Tail

theorem slot2_replicate (x : Word) (i : BitVec 1) : slot2 (Vector.replicate 2 x) i = x := by simp [slot2]

end Sys2Proof.Machine

namespace Sys2Proof.Proofs

open Sys2Proof.Machine Sys2Proof.Claims

/-- Settles O28: the varint at DCUR moves one slot, and that slot is the element written. -/
theorem seqSymbolWritesIndex : Obligations.SeqSymbolWritesIndex := by
  intro s v d hv hroom
  refine ⟨seqDelta_range v, ?_⟩
  obtain ⟨t, hrun, hwritten, ht⟩ := execSeq_of_room (seqIndex_of_vbyte hv) hroom
  have hseqlast : t.w.seqlast = setSlot2 s.w.seqlast (seqSlot v) (slot2 s.w.seqlast (seqSlot v) + seqDelta v) := by
    rw [ht]
  refine ⟨t, hrun, ?_, ?_, fun o ho => ?_, ?_⟩
  · rwa [slot2_setSlot2] at hwritten
  · rw [hseqlast]
    exact slot2_setSlot2 ..
  · rw [hseqlast]
    exact slot2_setSlot2_ne _ _ ho.symm
  · rwa [hseqlast]

/-- Settles O19: the header of the mode starts the decode, by the outcome of the tail test. -/
theorem hdrAttrBeginsDecode : Obligations.HdrAttrBeginsDecode := fun _ hmode =>
  have hgo := headerFor_of_mode beginAttributes hmode
  ⟨fun htail => hgo.trans (congrArg Host.Outcome.next (beginAttributes_of_tail htail)),
    fun hshort => hgo.trans (congrArg Host.Outcome.next (beginAttributes_short hshort))⟩

/-- Settles O21: the header of the mode starts the decode, both slots 0. -/
theorem hdrSeqBeginsDecode : Obligations.HdrSeqBeginsDecode := fun v s hmode =>
  ⟨beginIndices v s, headerFor_of_mode (beginIndices v) hmode, slot2_replicate 0,
    BitVec.toNat_setWidth_of_le (by decide), rfl⟩

end Sys2Proof.Proofs

/-! ## Progress and the end of a call -/

namespace Sys2Proof.Machine

open Sys2Proof.Claims

/-! ### What a step that ends a call leaves -/

/-- A step that goes on with a call leaves it running. -/
theorem goesOn_busy {s t : State} (hok : s.callOk) (h : GoesOn s t) : t.busy = s.busy := by
  unfold GoesOn at h
  cases hp : s.pos <;> simp only [hp] at h
  case idle => rw [h]
  case header =>
    rcases h with ⟨-, htail, rfl⟩ | ⟨-, -, v, rfl⟩ | ⟨-, -, v, rfl⟩
    · rw [beginAttributes_of_tail htail]
    · rfl
    · rfl
  case seed => obtain ⟨b, rfl⟩ := h; rfl
  case blockTop => obtain ⟨-, rfl⟩ := h; rfl
  case runTop => obtain ⟨-, rfl⟩ := h; rfl
  case groupHeader => obtain ⟨sel, ⟨-, rfl⟩ | ⟨-, rfl⟩⟩ := h <;> rfl
  case group => obtain ⟨raw, k, x, -, rfl⟩ := h; rfl
  case planeEnd => subst h; rfl
  case blockEnd => obtain ⟨-, pred, ht⟩ := h (idx_eq_blk_of_blockEnd hok hp); rw [ht]
  case triangles => obtain ⟨-, -, -, -, ht⟩ := h; rw [ht]
  case sequence => obtain ⟨-, -, -, ht⟩ := h; rw [ht]

/-- A step of a running call ends it, or goes on with it and leaves it running. -/
theorem step_endsOrGoesOn {s t : State} (hok : s.callOk) (hrun : s.running) (h : step s = .next t) :
    (∃ st, t = s.endCall st) ∨ (GoesOn s t ∧ t.busy = true) := by
  obtain ⟨hhost, hb⟩ := hrun
  rw [step_of_host_nil hhost] at h
  rcases blockStep_cases h with ⟨st, -, ht⟩ | ⟨-, ht⟩ | hgo
  · exact .inl ⟨st, ht⟩
  · exact .inl ⟨.ok, ht⟩
  · exact .inr ⟨hgo, (goesOn_busy hok hgo).trans hb⟩

/-! ### A step of the block never stops -/

/-- A header symbol answers a next state in every mode (R177, R191). -/
theorem exec_header_isNext {i : Instr} (hi : i = .hdrAttr ∨ (∃ v, i = .hdrTri v) ∨ ∃ v, i = .hdrSeq v) (s : State) :
    ∃ t, exec i s = .next t := by
  have hfor : ∀ mode go, ∃ t, headerFor mode s go = .next t := fun mode go => by
    unfold headerFor
    split <;> exact ⟨_, rfl⟩
  rcases hi with rfl | ⟨v, rfl⟩ | ⟨v, rfl⟩ <;> exact hfor _ _

theorem groupOf_isNext (ctl : Nat) {lanes : State → Run Unit} (hl : ∀ t, LanePart (lanes t) t) (s : State) :
    ∃ t, groupOf ctl lanes s = .next t := by
  rcases groupOf_cases ctl hl s with ⟨raw, k, x, -, -, e⟩ | e <;> exact ⟨_, e⟩

/-- A group answers a next state wherever the stream ends, Truncated's if not the group's. -/
theorem exec_decodeSel_isNext (sel : BitVec 2) (s : State) : ∃ t, exec (decodeSel sel) s = .next t := by
  unfold decodeSel
  split_ifs
  · exact groupOf_isNext 0 (repeatRun_part (codeLane_part false 0#8) 16) s
  · exact groupOf_isNext 4 (controlBytes_part (fun _ => c2Lanes_part _ _ _ _) 4 s.w.dcur) s
  · exact groupOf_isNext 8 (controlBytes_part (fun _ => c4Lanes_part _ _) 8 s.w.dcur) s
  · exact groupOf_isNext 0 (repeatRun_part literalLane_part 16) s

/-- The sequencer's own work never faults: a block lies inside DST (R47). -/
theorem between_isNext {s : State} (hok : s.callOk) : ∃ t, between s = .next t := by
  unfold between
  cases hp : s.pos
  case blockEnd =>
    simp only [State.callOk, hp] at hok
    obtain ⟨-, hblk⟩ := hok
    exact ⟨_, endBlock_of_fits (block_fits s hblk.le)⟩
  all_goals exact ⟨_, rfl⟩

theorem SymbolRuns.blockStep_isNext {s : State} {c : Ctx} {bytes : List Byte} (h : SymbolRuns c bytes s)
    (hdue : due s = .symbol c bytes) : ∃ t, blockStep s = .next t := by
  obtain ⟨i, rest, hdec, t, hex, -⟩ := h
  exact ⟨t, (blockStep_eq_exec hdue hdec).trans hex⟩

/-- At a symbol the block answers a next state: that of the symbol, or the end of the call. -/
theorem blockStep_isNext_of_symbol {s : State} {c : Ctx} {bytes : List Byte} (hok : s.callOk)
    (hdue : due s = .symbol c bytes) : ∃ t, blockStep s = .next t := by
  cases hp : s.pos with
  | seed => exact (symbolRuns_seed hdue hok hp).blockStep_isNext hdue
  | groupHeader => exact (symbolRuns_groupHeader hdue hok hp).blockStep_isNext hdue
  | triangles => exact (symbolRuns_triangles hdue hok hp).blockStep_isNext hdue
  | sequence => exact (symbolRuns_sequence hdue hp).blockStep_isNext hdue
  | header =>
    obtain ⟨-, rfl, rfl⟩ : _ ∧ _ = c ∧ _ = bytes := by
      simpa only [due, hp, truncatedIf_eq_symbol, Due.symbol.injEq] using hdue
    cases hdec : decode .header (s.window 0 1) with
    | ok x =>
      rw [blockStep_eq_exec hdue hdec]
      exact exec_header_isNext (decode_header_cases hdec) s
    | error e => exact ⟨s.endCall (statusOf e), by simp only [blockStep, hdue, hdec]⟩
  | group =>
    obtain ⟨-, rfl, rfl⟩ : _ ∧ _ = c ∧ _ = bytes := by
      simpa only [due, hp, truncatedIf_eq_symbol, Due.symbol.injEq] using hdue
    rw [blockStep_eq_exec hdue rfl]
    exact exec_decodeSel_isNext _ s
  | blockTop => simp only [due, hp] at hdue; split at hdue <;> cases hdue
  | runTop => simp [due, hp, truncatedIf_eq_symbol] at hdue
  | idle | planeEnd | blockEnd => simp [due, hp] at hdue

/-- Within its ranges the block neither faults nor refuses. -/
theorem blockStep_isNext {s : State} (hok : s.callOk) : ∃ t, blockStep s = .next t := by
  cases hdue : due s with
  | rest => exact ⟨s, by simp only [blockStep, hdue]⟩
  | ends st => exact ⟨s.endCall st, by simp only [blockStep, hdue]⟩
  | work =>
    rw [blockStep_eq_between hdue]
    exact between_isNext hok
  | symbol c bytes => exact blockStep_isNext_of_symbol hok hdue

/-! ### The bound on the steps left, position by position -/

/-- The bound at the end of the current block (R163, R165). -/
def State.stepsAtBlockEnd (s : State) : Nat := 2 + (s.n - s.w.blk - 1) * blockSteps s.e

/-- The bound at the end of the current plane (R162). -/
def State.stepsAtPlaneEnd (s : State) : Nat := s.stepsAtBlockEnd + planeSteps * (s.e - s.w.plane - 1) + 1

section Bounds

variable {s : State}

theorem stepsLeft_idle (hp : s.pos = .idle) : s.stepsLeft = 0 := by simp only [State.stepsLeft, hp]

theorem stepsLeft_header (hp : s.pos = .header) : s.stepsLeft = 3 + s.n + s.e + s.n * blockSteps s.e := by
  simp only [State.stepsLeft, hp]

theorem stepsLeft_seed (hp : s.pos = .seed) : s.stepsLeft = 1 + s.n * blockSteps s.e + (s.e - s.w.lane) := by
  simp only [State.stepsLeft, hp]

theorem stepsLeft_blockTop (hp : s.pos = .blockTop) : s.stepsLeft = 1 + (s.n - s.w.blk) * blockSteps s.e := by
  simp only [State.stepsLeft, hp]

theorem stepsLeft_runTop (hp : s.pos = .runTop) : s.stepsLeft = s.stepsAtPlaneEnd + 21 := by
  simp only [State.stepsLeft, hp]; rfl

theorem stepsLeft_groupHeader (hp : s.pos = .groupHeader) :
    s.stepsLeft = s.stepsAtPlaneEnd + s.groups + (s.headers - (s.w.dcur - s.w.hcur)) := by
  simp only [State.stepsLeft, hp]; rfl

theorem stepsLeft_group (hp : s.pos = .group) : s.stepsLeft = s.stepsAtPlaneEnd + (s.groups - s.w.grp) := by
  simp only [State.stepsLeft, hp]; rfl

theorem stepsLeft_planeEnd (hp : s.pos = .planeEnd) : s.stepsLeft = s.stepsAtPlaneEnd := by
  simp only [State.stepsLeft, hp]; rfl

theorem stepsLeft_blockEnd (hp : s.pos = .blockEnd) : s.stepsLeft = s.stepsAtBlockEnd := by
  simp only [State.stepsLeft, hp]; rfl

theorem stepsLeft_triangles (hp : s.pos = .triangles) : s.stepsLeft = 2 + s.t - s.w.ccur := by
  simp only [State.stepsLeft, hp]

theorem stepsLeft_sequence (hp : s.pos = .sequence) : s.stepsLeft = 1 + (s.n - s.w.idx) := by
  simp only [State.stepsLeft, hp]

/-- While a call runs its end is at least a step away. -/
theorem stepsLeft_pos (hok : s.callOk) (hp : s.pos ≠ .idle) : 0 < s.stepsLeft := by
  cases hpos : s.pos with
  | idle => exact absurd hpos hp
  | header => rw [stepsLeft_header hpos]; omega
  | seed => rw [stepsLeft_seed hpos]; omega
  | blockTop => rw [stepsLeft_blockTop hpos]; omega
  | runTop => rw [stepsLeft_runTop hpos]; omega
  | groupHeader => rw [stepsLeft_groupHeader hpos, State.stepsAtPlaneEnd]; omega
  | group => rw [stepsLeft_group hpos, State.stepsAtPlaneEnd]; omega
  | planeEnd => rw [stepsLeft_planeEnd hpos, State.stepsAtPlaneEnd]; omega
  | blockEnd => rw [stepsLeft_blockEnd hpos, State.stepsAtBlockEnd]; omega
  | triangles =>
    simp only [State.callOk, hpos] at hok
    obtain ⟨-, -, -, hccur, -⟩ := hok
    rw [stepsLeft_triangles hpos]
    omega
  | sequence => rw [stepsLeft_sequence hpos]; omega

end Bounds

/-! ### Every step that goes on lowers the bound -/

theorem headerPassed_stepsLeft {s t : State} (hp : s.pos = .header) (h : HeaderPassed s t) :
    t.stepsLeft < s.stepsLeft := by
  rw [stepsLeft_header hp]
  rcases h with ⟨-, htail, rfl⟩ | ⟨-, -, v, rfl⟩ | ⟨-, -, v, rfl⟩
  · rw [beginAttributes_of_tail htail, stepsLeft_seed rfl]
    show 1 + s.n * blockSteps s.e + (s.e - 0) < _
    omega
  · have ht : s.t = s.n / 3 := rfl
    rw [stepsLeft_triangles rfl]
    show 2 + s.t - 1 < _
    omega
  · rw [stepsLeft_sequence rfl]
    show 1 + (s.n - 0) < _
    omega

section Descent

variable {s t : State} (hok : s.callOk)
include hok

theorem seedByte_stepsLeft (hp : s.pos = .seed) (b : Byte) : (s.seedByte b).stepsLeft < s.stepsLeft := by
  simp only [State.callOk, hp] at hok
  obtain ⟨-, hblk, hlane⟩ := hok
  rw [stepsLeft_seed hp]
  by_cases hlt : s.w.lane + 1 < s.e
  · rw [stepsLeft_seed (s := s.seedByte b) (if_pos hlt)]
    show 1 + s.n * blockSteps s.e + (s.e - (s.w.lane + 1)) < _
    omega
  · rw [stepsLeft_blockTop (s := s.seedByte b) (if_neg hlt)]
    show 1 + (s.n - s.w.blk) * blockSteps s.e < _
    rw [hblk, Nat.sub_zero]
    omega

/-- A block takes the steps of its planes, and two for its head and its copy. -/
theorem beginBlock_stepsLeft (hp : s.pos = .blockTop) (hleg : s.configLegal = true) (hlt : s.w.blk < s.n) :
    s.beginBlock.stepsLeft < s.stepsLeft := by
  simp only [State.callOk, hp] at hok
  obtain ⟨hm, -⟩ := hok
  have he := elemSize_of_attr hleg hm
  have hrest : s.n - s.w.blk = (s.n - s.w.blk - 1) + 1 := by omega
  rw [stepsLeft_blockTop hp, hrest, Nat.succ_mul, stepsLeft_runTop (s := s.beginBlock) rfl]
  show 2 + (s.n - s.w.blk - 1) * blockSteps s.e + 22 * (s.e - 0 - 1) + 1 + 21 < 1 + (_ + (22 * s.e + 3))
  omega

omit hok in
/-- A run has at most four header bytes and sixteen groups. -/
theorem beginRun_stepsLeft (hp : s.pos = .runTop) : s.beginRun.stepsLeft < s.stepsLeft := by
  obtain ⟨-, hgroups, hheaders⟩ := bc_le s
  rw [stepsLeft_runTop hp, stepsLeft_groupHeader (s := s.beginRun) rfl]
  show s.stepsAtPlaneEnd + s.groups + (s.headers - (s.w.dcur - s.w.dcur)) < _
  omega

theorem headerBytePassed_stepsLeft (hp : s.pos = .groupHeader) (h : HeaderBytePassed s t) :
    t.stepsLeft < s.stepsLeft := by
  simp only [State.callOk, hp] at hok
  obtain ⟨-, -, -, hle, hlt, -⟩ := hok
  rw [stepsLeft_groupHeader hp]
  obtain ⟨sel, ⟨-, rfl⟩ | ⟨-, rfl⟩⟩ := h
  · rw [stepsLeft_groupHeader (by exact hp)]
    show s.stepsAtPlaneEnd + s.groups + (s.headers - (s.w.dcur + 1 - s.w.hcur)) < _
    omega
  · rw [stepsLeft_group rfl]
    show s.stepsAtPlaneEnd + (s.groups - 0) < _
    omega

theorem groupPassed_stepsLeft (hp : s.pos = .group) (h : GroupPassed s t) : t.stepsLeft < s.stepsLeft := by
  simp only [State.callOk, hp] at hok
  obtain ⟨-, -, -, hgrp⟩ := hok
  obtain ⟨raw, k, x, -, rfl⟩ := h
  rw [stepsLeft_group hp]
  by_cases hlt : s.w.grp + 1 < s.groups
  · rw [stepsLeft_group (if_pos hlt)]
    show s.stepsAtPlaneEnd + (s.groups - (s.w.grp + 1)) < _
    omega
  · rw [stepsLeft_planeEnd (if_neg hlt)]
    show s.stepsAtPlaneEnd < _
    omega

omit hok in
theorem endPlane_stepsLeft (hp : s.pos = .planeEnd) : s.endPlane.stepsLeft < s.stepsLeft := by
  rw [stepsLeft_planeEnd hp, State.stepsAtPlaneEnd, planeSteps]
  by_cases hlt : s.w.plane + 1 < s.e
  · rw [stepsLeft_runTop (s := s.endPlane) (if_pos hlt)]
    show s.stepsAtBlockEnd + 22 * (s.e - (s.w.plane + 1) - 1) + 1 + 21 < _
    omega
  · rw [stepsLeft_blockEnd (s := s.endPlane) (if_neg hlt)]
    show s.stepsAtBlockEnd < _
    omega

/-- A block has a vertex, so at least one block's steps are through. -/
theorem blockCopied_stepsLeft (hp : s.pos = .blockEnd) (hleg : s.configLegal = true) (h : BlockCopied s t) :
    t.stepsLeft < s.stepsLeft := by
  simp only [State.callOk, hp] at hok
  obtain ⟨⟨hm, -⟩, hblk⟩ := hok
  obtain ⟨hgroups, -⟩ := groups_pos (elemSize_of_attr hleg hm) hblk
  have hbc : 1 ≤ s.bc := by
    have hg : s.groups = (s.bc + 15) / 16 := rfl
    omega
  have hle : (s.n - (s.w.blk + s.bc)) * blockSteps s.e ≤ (s.n - s.w.blk - 1) * blockSteps s.e :=
    Nat.mul_le_mul_right _ (by omega)
  obtain ⟨-, pred, ht⟩ := h
  rw [ht, stepsLeft_blockEnd hp, stepsLeft_blockTop rfl]
  show 1 + (s.n - (s.w.blk + s.bc)) * blockSteps s.e < 2 + (s.n - s.w.blk - 1) * blockSteps s.e
  omega

omit hok in
theorem triangleMade_stepsLeft (hp : s.pos = .triangles) (hlt : s.w.ccur < 1 + s.t) (h : TriangleMade 1 s t) :
    t.stepsLeft < s.stepsLeft := by
  obtain ⟨-, hccur, -, ht⟩ := h
  rw [ht, stepsLeft_triangles hp, stepsLeft_triangles (by exact hp)]
  show 2 + s.t - t.w.ccur < _
  omega

omit hok in
theorem indexMade_stepsLeft (hp : s.pos = .sequence) (hlt : s.w.idx < s.n) (h : IndexMade s t) :
    t.stepsLeft < s.stepsLeft := by
  obtain ⟨⟨hidx, -⟩, -, ht⟩ := h
  rw [ht, stepsLeft_sequence hp, stepsLeft_sequence (by exact hp)]
  show 1 + (s.n - t.w.idx) < _
  omega

/-- A step that goes on with a call brings its end nearer (R228). -/
theorem goesOn_stepsLeft (hleg : s.configLegal = true) (hpos : s.pos ≠ .idle) (h : GoesOn s t) :
    t.stepsLeft < s.stepsLeft := by
  unfold GoesOn at h
  cases hp : s.pos <;> simp only [hp] at h
  case idle => exact absurd hp hpos
  case header => exact headerPassed_stepsLeft hp h
  case seed => obtain ⟨b, rfl⟩ := h; exact seedByte_stepsLeft hok hp b
  case blockTop => obtain ⟨hlt, rfl⟩ := h; exact beginBlock_stepsLeft hok hp hleg hlt
  case runTop => obtain ⟨-, rfl⟩ := h; exact beginRun_stepsLeft hp
  case groupHeader => exact headerBytePassed_stepsLeft hok hp h
  case group => exact groupPassed_stepsLeft hok hp h
  case planeEnd => exact h ▸ endPlane_stepsLeft hp
  case blockEnd => exact blockCopied_stepsLeft hok hp hleg (h (idx_eq_blk_of_blockEnd hok hp))
  case triangles => obtain ⟨hlt, hmade⟩ := h; exact triangleMade_stepsLeft hp hlt hmade
  case sequence => obtain ⟨hlt, hmade⟩ := h; exact indexMade_stepsLeft hp hlt hmade

end Descent

/-! ### Runs -/

/-- A run takes its first step, then the others. -/
theorem run_succ_of_step {s t : State} (h : step s = .next t) (k : Nat) :
    Sys2Proof.core.run (k + 1) s = Sys2Proof.core.run k t := by
  have h : Sys2Proof.core.step s = .next t := h
  simp only [Host.Core.run, h]

end Sys2Proof.Machine

namespace Sys2Proof.Proofs

open Sys2Proof.Machine Sys2Proof.Claims

/-- Settles O50: a step that does not end the call leaves BUSY. -/
theorem everyCallEndsByOneOperation : Obligations.EveryCallEndsByOneOperation := by
  intro s t _ hok hrun h hidle
  rcases step_endsOrGoesOn hok hrun h with hend | ⟨-, hb⟩
  · exact hend
  · simp [hidle] at hb

/-- Settles O57: DST has room for what the step writes, and at each position the step lowers the bound. -/
theorem runningCallMakesProgress : Obligations.RunningCallMakesProgress := by
  intro s hs hok hrun
  obtain ⟨hhost, hb⟩ := id hrun
  have hpos : s.pos ≠ .idle := hs.busy_iff.1 hb
  obtain ⟨t, ht⟩ := blockStep_isNext hok
  have hstep : step s = .next t := (step_of_host_nil hhost).trans ht
  refine ⟨t, hstep, ?_⟩
  rcases step_endsOrGoesOn hok hrun hstep with ⟨st, rfl⟩ | ⟨hgo, -⟩
  · rw [stepsLeft_idle rfl]
    exact stepsLeft_pos hok hpos
  · exact goesOn_stepsLeft hok (hs.legal hb) hpos hgo

/-- Settles O58, by induction on the bound: each step ends the call or leaves a running call with a lower bound. -/
theorem everyDecodeEnds : Obligations.EveryDecodeEnds := by
  intro s hs hok hrun
  induction hbound : s.stepsLeft using Nat.strong_induction_on generalizing s with
  | _ bound ih =>
    obtain ⟨t, hstep, hless⟩ := runningCallMakesProgress s hs hok hrun
    rcases step_endsOrGoesOn hok hrun hstep with ⟨st, ht⟩ | ⟨-, hb⟩
    · exact ⟨1, t, by omega, run_succ_of_step hstep 0, by rw [ht]; rfl, by rw [ht]; rfl⟩
    · obtain ⟨-, -, -, -, -, -, -, hhost, -⟩ := inputsAreNeverWritten.2 s t hrun.1 hstep
      obtain ⟨k, u, hk, hrest, hidle, hdone⟩ := ih t.stepsLeft (hbound ▸ hless) t (everyStepKeepsInvariant s t hs hstep)
        (everyStepKeepsCursorRanges s t hs hok hstep) ⟨hhost.trans hrun.1, hb⟩ rfl
      exact ⟨k + 1, u, by omega, (run_succ_of_step hstep k).trans hrest, hidle, hdone⟩

/-- Settles O15: the limit of R171 is 2^32. -/
theorem configurationLegality : Obligations.ConfigurationLegality := configLegal_iff

/-- Settles O17: the refusal sets the two flags. -/
theorem startRefusesIllegalConfiguration : Obligations.StartRefusesIllegalConfiguration :=
  fun x _ hb hc => exec_start_of_illegal x hb hc

end Sys2Proof.Proofs

/-! ## The check of the header byte -/

namespace Sys2Proof.Machine

/-! ### The symbol of the header position -/

/-- The CFG_MODE that a header symbol belongs to (R177). -/
def headerMode : Instr → Option (BitVec 2)
  | .hdrAttr => some 0#2
  | .hdrTri _ => some 1#2
  | .hdrSeq _ => some 2#2
  | _ => none

theorem decode_header_of_some {b : Byte} {i : Instr} (h : decodeHeader b = some i) : decode .header [b] = .ok (i, []) := by
  simp only [decode, h]

theorem decode_header_of_none {b : Byte} (h : decodeHeader b = none) : decode .header [b] = .error .badHeader := by
  simp only [decode, h]

/-- A legal header byte stands for a symbol of some mode (R61). -/
theorem headerMode_of_decodeHeader {b : Byte} {i : Instr} (h : decodeHeader b = some i) :
    ∃ mode, headerMode i = some mode := by
  rcases decode_header_cases (decode_header_of_some h) with rfl | ⟨v, rfl⟩ | ⟨v, rfl⟩ <;> exact ⟨_, rfl⟩

/-- The symbol of a legal header byte belongs to the mode that the byte is legal under (R61, R177). -/
theorem headerByte_legal_iff (mode : BitVec 2) (b : Byte) :
    ((mode = 0#2 ∧ b = 0xA0#8) ∨ (mode = 1#2 ∧ (b = 0xE0#8 ∨ b = 0xE1#8)) ∨
      (mode = 2#2 ∧ (b = 0xD0#8 ∨ b = 0xD1#8))) ↔
      ∃ i, decodeHeader b = some i ∧ headerMode i = some mode := by
  have bit : ∀ v : BitVec 1, v = 0#1 ∨ v = 1#1 := by decide
  constructor
  · rintro (⟨rfl, rfl⟩ | ⟨rfl, rfl | rfl⟩ | ⟨rfl, rfl | rfl⟩) <;> exact ⟨_, rfl, rfl⟩
  · rintro ⟨i, hdec, hmode⟩
    obtain ⟨-, henc⟩ := decodeHeader_some hdec
    rcases decode_header_cases (decode_header_of_some hdec) with rfl | ⟨v, rfl⟩ | ⟨v, rfl⟩ <;>
      obtain rfl := Option.some.inj hmode <;> obtain rfl := List.head_eq_of_cons_eq henc
    · exact .inl ⟨rfl, rfl⟩
    · obtain rfl | rfl := bit v
      · exact .inr (.inl ⟨rfl, .inl rfl⟩)
      · exact .inr (.inl ⟨rfl, .inr rfl⟩)
    · obtain rfl | rfl := bit v
      · exact .inr (.inr ⟨rfl, .inl rfl⟩)
      · exact .inr (.inr ⟨rfl, .inr rfl⟩)

/-! ### The step at the header position -/

theorem leastLength_pos (s : State) : 0 < s.leastLength := by
  unfold State.leastLength
  split_ifs <;> omega

section HeaderByte

variable {s : State} {i : Instr}

/-- Where the stream is long enough for the mode, the header byte is read (R178, R179, R180). -/
theorem due_header (hp : s.pos = .header) (hlen : s.leastLength ≤ s.l) : due s = .symbol .header [s.srcByte 0] := by
  simp only [due, hp, truncatedIf_of_not (Nat.not_lt.2 hlen), State.window_one ((leastLength_pos s).trans_le hlen)]

/-- A byte that is no header symbol ends the call (R72, R191). -/
theorem blockStep_header_of_none (hd : due s = .symbol .header [s.srcByte 0]) (h : decodeHeader (s.srcByte 0) = none) :
    blockStep s = .next (s.endCall .badHeader) := by
  simp only [blockStep, hd, decode_header_of_none h, statusOf]

/-- A header symbol under a mode that it does not belong to (R177, R191). -/
theorem exec_header_of_mode_ne {mode : BitVec 2} (hi : headerMode i = some mode) (hne : s.cfgMode ≠ mode) :
    exec i s = .next (s.endCall .badHeader) := by
  cases i with
  | hdrAttr | hdrTri | hdrSeq =>
    obtain rfl := Option.some.inj hi
    exact if_neg hne
  | _ => cases hi

/-- The state after the end of a call tells its status. -/
theorem endCall_truncated_ne_badHeader (s : State) : s.endCall .truncated ≠ s.endCall .badHeader := fun h =>
  absurd (congrArg State.status h) (by decide : (0xFE#8 : Byte) ≠ 0xFF#8)

/-- A state in which the sequencer stands somewhere in a call is not that after the end of one. -/
theorem ne_endCall_of_pos {t : State} (hp : t.pos ≠ .idle) (st : Status) : t ≠ s.endCall st := fun h =>
  hp (congrArg State.pos h)

/-- The start of an attribute decode can end the call, but with Truncated (R160, R178). -/
theorem beginAttributes_ne_badHeader (s : State) : beginAttributes s ≠ s.endCall .badHeader := by
  rcases Nat.lt_or_ge (s.l - 1) (tailSize s.e) with hshort | htail
  · rw [beginAttributes_short hshort]
    exact endCall_truncated_ne_badHeader s
  · rw [beginAttributes_of_tail htail]
    exact ne_endCall_of_pos (by simp) _

theorem headerFor_ne_badHeader {mode : BitVec 2} {go : State → State} (hm : mode = s.cfgMode)
    (hgo : go s ≠ s.endCall .badHeader) : headerFor mode s go ≠ .next (s.endCall .badHeader) := fun h =>
  hgo (Host.Outcome.next.inj ((headerFor_of_mode go hm.symm).symm.trans h))

/-- A header symbol under the mode that it belongs to does not end the call with BadHeader (R177). -/
theorem exec_header_ne_badHeader (hi : headerMode i = some s.cfgMode) : exec i s ≠ .next (s.endCall .badHeader) := by
  cases i with
  | hdrAttr => exact headerFor_ne_badHeader (Option.some.inj hi) (beginAttributes_ne_badHeader s)
  | hdrTri v =>
    have hpos : (beginTriangles v s).pos ≠ .idle := nofun
    exact headerFor_ne_badHeader (Option.some.inj hi) (ne_endCall_of_pos hpos _)
  | hdrSeq v =>
    have hpos : (beginIndices v s).pos ≠ .idle := nofun
    exact headerFor_ne_badHeader (Option.some.inj hi) (ne_endCall_of_pos hpos _)
  | _ => cases hi

end HeaderByte

end Sys2Proof.Machine

namespace Sys2Proof.Proofs

open Sys2Proof.Machine

/-- Settles O4: a legal byte is one whose symbol belongs to CFG_MODE; it is BadHeader where there is no symbol, or where
the symbol belongs to another mode. -/
theorem headerByteIsChecked : Obligations.HeaderByteIsChecked := by
  intro s hrun hp hlen legal
  have hlegal : legal ↔ ∃ i, decodeHeader (s.srcByte 0) = some i ∧ headerMode i = some s.cfgMode :=
    headerByte_legal_iff s.cfgMode (s.srcByte 0)
  have hdue : due s = .symbol .header [s.srcByte 0] := due_header hp hlen
  rw [hlegal, step_of_host_nil hrun.1]
  constructor
  · intro hillegal
    cases hdec : decodeHeader (s.srcByte 0) with
    | none => exact blockStep_header_of_none hdue hdec
    | some i =>
      obtain ⟨mode, hmode⟩ := headerMode_of_decodeHeader hdec
      have hne : s.cfgMode ≠ mode := fun h => hillegal ⟨i, hdec, h ▸ hmode⟩
      rw [blockStep_eq_exec hdue (decode_header_of_some hdec)]
      exact exec_header_of_mode_ne hmode hne
  · rintro ⟨i, hsome, hmode⟩
    have hdec := decode_header_of_some hsome
    have hstep := blockStep_eq_exec hdue hdec
    exact ⟨i, hdec, hstep, hstep ▸ exec_header_ne_badHeader hmode⟩

end Sys2Proof.Proofs
